-- ==== Sys2Proof/Word.lean ====
section
/-! DEFINITION. The word types of the TMP95C061B CPU and their plainest arithmetic (00_scope.md R7, R8). -/

namespace Sys2Proof

/-- A byte, the unit of memory and of instruction codes (R8). -/
abbrev Byte := BitVec 8

/-- A long word, the width of a general register (R20). -/
abbrev Long := BitVec 32

/-- A memory or program address (R28, R50). -/
abbrev Addr := BitVec 24

end Sys2Proof
end

