-- ==== Sys2Proof/Syntax.lean ====
section
/-! DEFINITION. The instructions as syntax: operand forms, and one constructor of `Instr` for each of the 55
rows of spec/opcode_table.json (30_encoding.md R104), in the table's order. -/

namespace Sys2Proof

/-- The three operand sizes (R8). -/
inductive Size where
  | byte
  | word
  | long
  deriving DecidableEq, Repr

/-- Width in bits (R8). -/
abbrev Size.bits : Size → Nat
  | .byte => 8
  | .word => 16
  | .long => 32

/-- Width in bytes (R8). -/
abbrev Size.bytes : Size → Nat
  | .byte => 1
  | .word => 2
  | .long => 4

/-- The one-bit size field `z` of forms whose Long word column is marked `×` (R74, R76). -/
inductive BW where
  | byte
  | word
  deriving DecidableEq, Repr

abbrev BW.size : BW → Size
  | .byte => .byte
  | .word => .word

/-- The size twice as wide: the destination of a multiply (R10, R202). -/
abbrev BW.wide : BW → Size
  | .byte => .word
  | .word => .long

/-- The one-bit size field `s` of LDA and LDAR (R76). -/
inductive WL where
  | word
  | long
  deriving DecidableEq, Repr

abbrev WL.size : WL → Size
  | .word => .word
  | .long => .long

/-- The four banked 32-bit registers (R24). -/
inductive BankReg where
  | xwa
  | xbc
  | xde
  | xhl
  deriving DecidableEq, Repr

/-- The 32-bit register that `code8[7:2]` of an extension code selects (R79). -/
inductive R32Sel where
  | bank (b : Fin 4) (r : BankReg)
  | previous (r : BankReg)
  | current (r : BankReg)
  | xix
  | xiy
  | xiz
  | xsp
  deriving DecidableEq, Repr

/-- An extension-coded register (R79): a 32-bit register and, in `part`, which byte of it the
register starts at (`code8[1:0]`). -/
structure ExtReg where
  sel : R32Sel
  part : BitVec 2
  deriving DecidableEq, Repr

/-- The register operand `r` or `rr` of a register prefix: a 3-bit code (R78) or the extension
coding (R79). -/
inductive RegOp where
  | short (c : BitVec 3)
  | ext (e : ExtReg)
  deriving DecidableEq, Repr

/-- The step of a pre-decrement or post-increment mode (R85). -/
inductive AutoStep where
  | one
  | two
  | four
  deriving DecidableEq, Repr

/-- The addressing modes of a `mem` operand (R85). -/
inductive Mem where
  | ind (r : BitVec 3)
  | indD8 (r : BitVec 3) (d : BitVec 8)
  | abs8 (a : BitVec 8)
  | abs16 (a : BitVec 16)
  | abs24 (a : BitVec 24)
  | extInd (r : R32Sel)
  | extD16 (r : R32Sel) (d : BitVec 16)
  | idx8 (base : R32Sel) (index : ExtReg)
  | idx16 (base : R32Sel) (index : ExtReg)
  | preDec (r : R32Sel) (step : AutoStep)
  | postInc (r : R32Sel) (step : AutoStep)
  deriving DecidableEq, Repr

/-- The conditions of R89, in the order of their codes. -/
inductive Cond where
  | f
  | lt
  | le
  | ule
  | ov
  | mi
  | z
  | c
  | t
  | ge
  | gt
  | ugt
  | nov
  | pl
  | nz
  | nc
  deriving DecidableEq, Repr

/-- The instructions.  `R` operands are 3-bit codes, `r` operands are `RegOp`, and immediates have
the width of their field in the encoding. -/
inductive Instr where
  /-- row 1, HALT (R120) -/
  | halt
  /-- row 2, INC #3,r (R125); `num` is the field, 0 codes 8 -/
  | incReg (sz : Size) (num : BitVec 3) (r : RegOp)
  /-- row 3, INC<W> #3,(mem) (R126) -/
  | incMem (z : BW) (num : BitVec 3) (m : Mem)
  /-- row 4, INCF (R130) -/
  | incf
  /-- row 5, JP #16 (R135) -/
  | jpAbs16 (a : BitVec 16)
  /-- row 6, JP #24 (R136) -/
  | jpAbs24 (a : BitVec 24)
  /-- row 7, JP [cc,] mem (R137) -/
  | jpMem (cc : Cond) (m : Mem)
  /-- row 8, JR [cc,] $+2+d8 (R138) -/
  | jr (cc : Cond) (d : BitVec 8)
  /-- row 9, JRL [cc,] $+3+d16 (R139) -/
  | jrl (cc : Cond) (d : BitVec 16)
  /-- row 10, LD R,r (R145) -/
  | ldCodeFromReg (sz : Size) (c : BitVec 3) (r : RegOp)
  /-- row 11, LD r,R (R146) -/
  | ldRegFromCode (sz : Size) (r : RegOp) (c : BitVec 3)
  /-- row 12, LD r,#3 (R147) -/
  | ldRegImm3 (sz : Size) (r : RegOp) (v : BitVec 3)
  /-- row 13, LD R,# (R148) -/
  | ldCodeImm (sz : Size) (c : BitVec 3) (v : BitVec sz.bits)
  /-- row 14, LD r,# (R149) -/
  | ldRegImm (sz : Size) (r : RegOp) (v : BitVec sz.bits)
  /-- row 15, LD R,(mem) (R150) -/
  | ldCodeMem (sz : Size) (c : BitVec 3) (m : Mem)
  /-- row 16, LD (mem),R (R151) -/
  | ldMemCode (sz : Size) (m : Mem) (c : BitVec 3)
  /-- row 17, LD<W> (#8),# (R152) -/
  | ldAbs8Imm (z : BW) (a : BitVec 8) (v : BitVec z.size.bits)
  /-- row 18, LD<W> (mem),# (R153) -/
  | ldMemImm (z : BW) (m : Mem) (v : BitVec z.size.bits)
  /-- row 19, LD<W> (#16),(mem) (R154) -/
  | ldAbs16Mem (z : BW) (a : BitVec 16) (m : Mem)
  /-- row 20, LD<W> (mem),(#16) (R155) -/
  | ldMemAbs16 (z : BW) (m : Mem) (a : BitVec 16)
  /-- row 21, LDA R,mem (R160) -/
  | lda (w : WL) (c : BitVec 3) (m : Mem)
  /-- row 22, LDAR R,$+4+d16 (R161) -/
  | ldar (w : WL) (c : BitVec 3) (d : BitVec 16)
  /-- row 23, LDC cr,r (R162) -/
  | ldcToCr (sz : Size) (cr : BitVec 8) (r : RegOp)
  /-- row 24, LDC r,cr (R163) -/
  | ldcFromCr (sz : Size) (r : RegOp) (cr : BitVec 8)
  /-- row 25, LDCF #4,r (R164); `b` is the whole third byte -/
  | ldcfImmReg (z : BW) (b : BitVec 8) (r : RegOp)
  /-- row 26, LDCF A,r (R165) -/
  | ldcfAReg (z : BW) (r : RegOp)
  /-- row 27, LDCF #3,(mem) (R166) -/
  | ldcfImmMem (num : BitVec 3) (m : Mem)
  /-- row 28, LDCF A,(mem) (R167) -/
  | ldcfAMem (m : Mem)
  /-- row 29, LDD<W> [(XDE-),(XHL-)] (R172) -/
  | lddDeHl (z : BW)
  /-- row 30, LDD<W> (XIX-),(XIY-) (R172) -/
  | lddIxIy (z : BW)
  /-- row 31, LDDR<W> [(XDE-),(XHL-)] (R173) -/
  | lddrDeHl (z : BW)
  /-- row 32, LDDR<W> (XIX-),(XIY-) (R173) -/
  | lddrIxIy (z : BW)
  /-- row 33, LDI<W> [(XDE+),(XHL+)] (R170) -/
  | ldiDeHl (z : BW)
  /-- row 34, LDI<W> (XIX+),(XIY+) (R170) -/
  | ldiIxIy (z : BW)
  /-- row 35, LDIR<W> [(XDE+),(XHL+)] (R171) -/
  | ldirDeHl (z : BW)
  /-- row 36, LDIR<W> (XIX+),(XIY+) (R171) -/
  | ldirIxIy (z : BW)
  /-- row 37, LDF #3 (R131) -/
  | ldf (num : BitVec 3)
  /-- row 38, LDX (#8),# (R157) -/
  | ldx (a : BitVec 8) (v : BitVec 8)
  /-- row 39, LINK r,d16 (R180) -/
  | link (r : RegOp) (d : BitVec 16)
  /-- row 40, MDEC1 #,r (R185); `field` holds # - 1 -/
  | mdec1 (field : BitVec 16) (r : RegOp)
  /-- row 41, MDEC2 #,r (R186); `field` holds # - 2 -/
  | mdec2 (field : BitVec 16) (r : RegOp)
  /-- row 42, MDEC4 #,r (R187); `field` holds # - 4 -/
  | mdec4 (field : BitVec 16) (r : RegOp)
  /-- row 43, MINC1 #,r (R188); `field` holds # - 1 -/
  | minc1 (field : BitVec 16) (r : RegOp)
  /-- row 44, MINC2 #,r (R189); `field` holds # - 2 -/
  | minc2 (field : BitVec 16) (r : RegOp)
  /-- row 45, MINC4 #,r (R190); `field` holds # - 4 -/
  | minc4 (field : BitVec 16) (r : RegOp)
  /-- row 46, MIRR r (R191) -/
  | mirr (r : RegOp)
  /-- row 47, MUL RR,r (R195) -/
  | mulReg (z : BW) (c : BitVec 3) (r : RegOp)
  /-- row 48, MUL rr,# (R196) -/
  | mulImm (z : BW) (r : RegOp) (v : BitVec z.size.bits)
  /-- row 49, MUL RR,(mem) (R197) -/
  | mulMem (z : BW) (c : BitVec 3) (m : Mem)
  /-- row 50, MULA rr (R201) -/
  | mula (r : RegOp)
  /-- row 51, MULS RR,r (R198) -/
  | mulsReg (z : BW) (c : BitVec 3) (r : RegOp)
  /-- row 52, MULS rr,# (R199) -/
  | mulsImm (z : BW) (r : RegOp) (v : BitVec z.size.bits)
  /-- row 53, MULS RR,(mem) (R200) -/
  | mulsMem (z : BW) (c : BitVec 3) (m : Mem)
  /-- row 54, NEG r (R128) -/
  | neg (z : BW) (r : RegOp)
  /-- row 55, NOP (R121) -/
  | nop
  deriving DecidableEq, Repr

end Sys2Proof
end

