-- ==== Sys2Proof/Config.lean ====
section
/-! DEFINITION. What is fixed for a run: the free values the spec leaves open (R57, R168), the
address space (R50), the reset vector (R35), and the launch arguments of R237 as data. -/

namespace Sys2Proof

/-- The free value of the carry flag after LDCF on a byte with bit number 8 to 15 (R168, U1):
the n-th draw.  No body: nothing can be proved of its value.  Log 12. -/
opaque Config.freeBit : Nat → Bool

/-- The free value of a byte read from a device address (R57, U12): the n-th draw.  Log 13. -/
opaque Config.freeByte : Nat → Byte

/-- The number of byte addresses (R50: 24-bit addresses). -/
def Config.addressSpace : Nat := 0x1000000

/-- Where the start address is read at reset (R35). -/
def Config.resetVector : Nat := 0xFFFF00

/-- A run of byte addresses: `size` addresses from `base` on (R212). -/
structure Region where
  base : Nat
  size : Nat
  deriving DecidableEq, Repr

/-- The names of control registers: those of R32, source and destination addresses, counters and
modes of the DMA channels 0 to 3, and `other k` for any further register that a `CR_MAP` names
(D18). -/
inductive CrName where
  | dmas (n : Fin 4)
  | dmad (n : Fin 4)
  | dmac (n : Fin 4)
  | dmam (n : Fin 4)
  | other (k : Nat)
  deriving DecidableEq, Repr

/-- One entry of `CR_MAP` (D18): the code an LDC gives, the register it names, and the register's
width. -/
structure CrEntry where
  code : Byte
  name : CrName
  width : Size
  deriving DecidableEq, Repr

/-- The launch arguments of R237, each open one with the default of R6 and D17 to D19.  No step
changes them. -/
structure Launch where
  /-- The admitted memory (R212). -/
  regions : List Region
  /-- `IO_REGION` (D17): addresses with device behaviour. -/
  io : List Region := []
  /-- `CR_MAP` (D18). -/
  crMap : List CrEntry := []
  /-- `GK_ENCODINGS` (D19): rows graded damaged or lost decode. -/
  gkEncodings : Bool := false
  /-- A listing has settled the row graded suspect (C3, D19).  Log 2. -/
  suspectEncodings : Bool := false
  deriving DecidableEq, Repr

end Sys2Proof
end

