-- ==== Sys2Proof/WellFormed.lean ====
section
/-! DEFINITION. Which terms of `Instr` stand for an encoding of 30_encoding.md R104: the checks on register
codes that the types do not make (R79, R85, R202). -/

namespace Sys2Proof

/-- R79: a Word register starts at a half of its 32-bit register (`code8[0]` = 0), a Long word
register at its bottom (`code8[1:0]` = 00). -/
def ExtReg.fits (sz : Size) (e : ExtReg) : Bool :=
  match sz with
  | .byte => true
  | .word => e.part == 0#2 || e.part == 2#2
  | .long => e.part == 0#2

/-- A register operand of size `sz` (R38, R79). -/
def RegOp.ok (sz : Size) : RegOp → Bool
  | .short _ => true
  | .ext e => e.fits sz

/-- R85: the index of `(r+r16)` is a word register. -/
def Mem.ok : Mem → Bool
  | .idx16 _ index => index.fits .word
  | _ => true

/-- R202: the 3-bit codes that name a multiply destination; an even Byte code names none (U6). -/
def mulCodeOk (z : BW) (c : BitVec 3) : Bool :=
  match z with
  | .byte => c.getLsbD 0
  | .word => true

/-- R202: a multiply destination `rr`, the extension coding included (U7). -/
def RegOp.mulOk (z : BW) : RegOp → Bool
  | .short c => mulCodeOk z c
  | .ext e => e.fits z.wide

/-- A term of `Instr` that the encoding of R104 can express. -/
def Instr.wf : Instr → Bool
  | .halt => true
  | .incReg sz _ r => r.ok sz
  | .incMem _ _ m => m.ok
  | .incf => true
  | .jpAbs16 _ => true
  | .jpAbs24 _ => true
  | .jpMem _ m => m.ok
  | .jr _ _ => true
  | .jrl _ _ => true
  | .ldCodeFromReg sz _ r => r.ok sz
  | .ldRegFromCode sz r _ => r.ok sz
  | .ldRegImm3 sz r _ => r.ok sz
  | .ldCodeImm _ _ _ => true
  | .ldRegImm sz r _ => r.ok sz
  | .ldCodeMem _ _ m => m.ok
  | .ldMemCode _ m _ => m.ok
  | .ldAbs8Imm _ _ _ => true
  | .ldMemImm _ m _ => m.ok
  | .ldAbs16Mem _ _ m => m.ok
  | .ldMemAbs16 _ m _ => m.ok
  | .lda _ _ m => m.ok
  | .ldar _ _ _ => true
  | .ldcToCr sz _ r => r.ok sz
  | .ldcFromCr sz r _ => r.ok sz
  | .ldcfImmReg z _ r => r.ok z.size
  | .ldcfAReg z r => r.ok z.size
  | .ldcfImmMem _ m => m.ok
  | .ldcfAMem m => m.ok
  | .lddDeHl _ => true
  | .lddIxIy _ => true
  | .lddrDeHl _ => true
  | .lddrIxIy _ => true
  | .ldiDeHl _ => true
  | .ldiIxIy _ => true
  | .ldirDeHl _ => true
  | .ldirIxIy _ => true
  | .ldf _ => true
  | .ldx _ _ => true
  | .link r _ => r.ok .long
  | .mdec1 _ r => r.ok .word
  | .mdec2 _ r => r.ok .word
  | .mdec4 _ r => r.ok .word
  | .minc1 _ r => r.ok .word
  | .minc2 _ r => r.ok .word
  | .minc4 _ r => r.ok .word
  | .mirr r => r.ok .word
  | .mulReg z c r => mulCodeOk z c && r.ok z.size
  | .mulImm z r _ => r.mulOk z
  | .mulMem z c m => mulCodeOk z c && m.ok
  | .mula r => r.mulOk .word
  | .mulsReg z c r => mulCodeOk z c && r.ok z.size
  | .mulsImm z r _ => r.mulOk z
  | .mulsMem z c m => mulCodeOk z c && m.ok
  | .neg z r => r.ok z.size
  | .nop => true

end Sys2Proof
end

