-- ==== Sys2Proof/Decode.lean ====
section
/-! DEFINITION. The decoder of 30_encoding.md R94 (total on any bytes, every rejection named), the encoder of R104
from the same tables, the length of an instruction (R73) and the grade of its row (R70). -/

namespace Sys2Proof

/-! ### Results of reading -/

/-- Why bytes are no admitted instruction (R96). -/
inductive DecodeError where
  /-- no row of R104 has this first or second opcode byte (R90 to R93; U16) -/
  | unknownOpcode
  /-- a mode byte outside R85 -/
  | unknownMode
  /-- an extension code that R79 assigns to no register of the operand's size -/
  | unknownRegister
  /-- a size that the form's Size column marks `×` -/
  | sizeNotAllowed
  /-- a multiply destination that R202 does not list (U6, U7) -/
  | multiplyRegister
  /-- the row's grade is refused by the launch arguments (R70, D19; U18) -/
  | gradeRefused
  deriving DecidableEq, Repr

/-- The outcome of reading bytes: a value and the bytes after it, a rejection with the bytes not
examined, or bytes that end before the instruction does. -/
inductive Parsed (α : Type) where
  | ok (a : α) (rest : List Byte)
  | short
  | reject (why : DecodeError) (rest : List Byte)
  deriving DecidableEq, Repr

def Parsed.bind {α β : Type} (p : Parsed α) (f : α → List Byte → Parsed β) : Parsed β :=
  match p with
  | .ok a rest => f a rest
  | .short => .short
  | .reject why rest => .reject why rest

/-! ### Immediates, low byte first (R83) -/

def take8 : List Byte → Parsed (BitVec 8)
  | b :: rest => .ok b rest
  | [] => .short

def take16 : List Byte → Parsed (BitVec 16)
  | lo :: hi :: rest => .ok (hi ++ lo) rest
  | _ => .short

def take24 : List Byte → Parsed (BitVec 24)
  | lo :: mid :: hi :: rest => .ok (hi ++ mid ++ lo) rest
  | _ => .short

def take32 : List Byte → Parsed (BitVec 32)
  | b0 :: b1 :: b2 :: b3 :: rest => .ok (b3 ++ b2 ++ b1 ++ b0) rest
  | _ => .short

/-- An immediate of the operation size (R83). -/
def takeImm (sz : Size) (bs : List Byte) : Parsed (BitVec sz.bits) :=
  match sz with
  | .byte => take8 bs
  | .word => take16 bs
  | .long => take32 bs

def le16 (v : BitVec 16) : List Byte :=
  [v.extractLsb' 0 8, v.extractLsb' 8 8]

def le24 (v : BitVec 24) : List Byte :=
  [v.extractLsb' 0 8, v.extractLsb' 8 8, v.extractLsb' 16 8]

def le32 (v : BitVec 32) : List Byte :=
  [v.extractLsb' 0 8, v.extractLsb' 8 8, v.extractLsb' 16 8, v.extractLsb' 24 8]

def encodeImm (sz : Size) (v : BitVec sz.bits) : List Byte :=
  match sz, v with
  | .byte, v => [v]
  | .word, v => le16 v
  | .long, v => le32 v

/-! ### Fields of a byte (R74, R78, R84) -/

/-- Bits 7:3 and bits 2:0 of an opcode byte. -/
def hi5 (b : Byte) : BitVec 5 := b.extractLsb' 3 5
def lo3 (b : Byte) : BitVec 3 := b.extractLsb' 0 3

/-- An opcode byte from its bits 7:3 and 2:0. -/
def opByte (h : BitVec 5) (l : BitVec 3) : Byte := h ++ l

/-- A first byte `top ss b3 low` (R71: bits 7:6, 5:4, 3, 2:0). -/
def firstByte (top ss : BitVec 2) (b3 : BitVec 1) (low : BitVec 3) : Byte := top ++ ss ++ b3 ++ low

def topBits (b : Byte) : BitVec 2 := b.extractLsb' 6 2
def sizeBits (b : Byte) : BitVec 2 := b.extractLsb' 4 2
def bit3 (b : Byte) : BitVec 1 := b.extractLsb' 3 1

/-- The size field `zz` (R74). -/
def Size.code : Size → BitVec 2
  | .byte => 0#2
  | .word => 1#2
  | .long => 2#2

/-- The size bit `z` (R74, R76). -/
def BW.code : BW → BitVec 1
  | .byte => 0#1
  | .word => 1#1

/-- The size bit `s` (R76). -/
def WL.code : WL → BitVec 1
  | .word => 0#1
  | .long => 1#1

/-- R74; `11` is no size. -/
def sizeOfCode (c : BitVec 2) : Option Size :=
  match c with
  | 0#2 => some .byte
  | 1#2 => some .word
  | 2#2 => some .long
  | _ => none

/-- The condition codes of R89. -/
def Cond.code : Cond → BitVec 4
  | .f => 0#4
  | .lt => 1#4
  | .le => 2#4
  | .ule => 3#4
  | .ov => 4#4
  | .mi => 5#4
  | .z => 6#4
  | .c => 7#4
  | .t => 8#4
  | .ge => 9#4
  | .gt => 10#4
  | .ugt => 11#4
  | .nov => 12#4
  | .pl => 13#4
  | .nz => 14#4
  | .nc => 15#4

def condOfCode (c : BitVec 4) : Cond :=
  match c with
  | 0#4 => .f
  | 1#4 => .lt
  | 2#4 => .le
  | 3#4 => .ule
  | 4#4 => .ov
  | 5#4 => .mi
  | 6#4 => .z
  | 7#4 => .c
  | 8#4 => .t
  | 9#4 => .ge
  | 10#4 => .gt
  | 11#4 => .ugt
  | 12#4 => .nov
  | 13#4 => .pl
  | 14#4 => .nz
  | _ => .nc

/-- The step code `b[1:0]` of a pre-decrement or post-increment mode (R85). -/
def AutoStep.code : AutoStep → BitVec 2
  | .one => 0#2
  | .two => 1#2
  | .four => 2#2

def stepOfCode (c : BitVec 2) : Option AutoStep :=
  match c with
  | 0#2 => some .one
  | 1#2 => some .two
  | 2#2 => some .four
  | _ => none

/-! ### Extension codes (R79) -/

def BankReg.code : BankReg → BitVec 2
  | .xwa => 0#2
  | .xbc => 1#2
  | .xde => 2#2
  | .xhl => 3#2

def bankRegOfCode (c : BitVec 2) : BankReg :=
  match c with
  | 0#2 => .xwa
  | 1#2 => .xbc
  | 2#2 => .xde
  | _ => .xhl

/-- `code8[7:2]` (R79). -/
def R32Sel.code : R32Sel → BitVec 6
  | .bank b r => BitVec.ofNat 4 b.val ++ r.code
  | .previous r => 0xD#4 ++ r.code
  | .current r => 0xE#4 ++ r.code
  | .xix => 0xF#4 ++ 0#2
  | .xiy => 0xF#4 ++ 1#2
  | .xiz => 0xF#4 ++ 2#2
  | .xsp => 0xF#4 ++ 3#2

/-- R79: codes 40H to CFH are unassigned. -/
def selOfCode (c : BitVec 6) : Option R32Sel :=
  let low := c.extractLsb' 0 2
  match c.extractLsb' 2 4 with
  | 0x0#4 => some (.bank 0 (bankRegOfCode low))
  | 0x1#4 => some (.bank 1 (bankRegOfCode low))
  | 0x2#4 => some (.bank 2 (bankRegOfCode low))
  | 0x3#4 => some (.bank 3 (bankRegOfCode low))
  | 0xD#4 => some (.previous (bankRegOfCode low))
  | 0xE#4 => some (.current (bankRegOfCode low))
  | 0xF#4 =>
    match low with
    | 0#2 => some .xix
    | 1#2 => some .xiy
    | 2#2 => some .xiz
    | _ => some .xsp
  | _ => none

/-- A mode byte or code: `code8[7:2]` of a 32-bit register above two low bits (R79, R85). -/
def code8 (sel : R32Sel) (low : BitVec 2) : Byte := sel.code ++ low

def selBits (b : Byte) : BitVec 6 := b.extractLsb' 2 6
def lo2 (b : Byte) : BitVec 2 := b.extractLsb' 0 2

/-- An extension-coded register (R79). -/
def takeExtReg (bs : List Byte) : Parsed ExtReg :=
  (take8 bs).bind fun b rest =>
    match selOfCode (selBits b) with
    | some sel => .ok ⟨sel, lo2 b⟩ rest
    | none => .reject .unknownRegister rest

/-- An extension-coded 32-bit register: `code8[1:0]` is 00 (R79, R85). -/
def takeSel (bs : List Byte) : Parsed R32Sel :=
  (takeExtReg bs).bind fun e rest =>
    if e.fits .long then .ok e.sel rest else .reject .unknownRegister rest

/-! ### Memory modes (R85) -/

/-- The mode byte and what follows it, for prefixes `11ss0011`. -/
def takeMode3 (bs : List Byte) : Parsed Mem :=
  (take8 bs).bind fun b rest =>
    if b = 0x03#8 then
      (takeSel rest).bind fun base rest1 =>
        (takeExtReg rest1).bind fun index rest2 => .ok (.idx8 base index) rest2
    else if b = 0x07#8 then
      (takeSel rest).bind fun base rest1 =>
        (takeExtReg rest1).bind fun index rest2 =>
          if index.fits .word then .ok (.idx16 base index) rest2
          else .reject .unknownRegister rest2
    else
      match selOfCode (selBits b), lo2 b with
      | some sel, 0#2 => .ok (.extInd sel) rest
      | some sel, 1#2 => (take16 rest).bind fun d rest1 => .ok (.extD16 sel d) rest1
      | _, _ => .reject .unknownMode rest

/-- The byte of a pre-decrement or post-increment mode. -/
def takeAuto (mk : R32Sel → AutoStep → Mem) (bs : List Byte) : Parsed Mem :=
  (take8 bs).bind fun b rest =>
    match selOfCode (selBits b), stepOfCode (lo2 b) with
    | some sel, some step => .ok (mk sel step) rest
    | _, _ => .reject .unknownMode rest

/-- The extension bytes of a memory prefix: `top` is its bits 7:6, `b3` its bit 3, `low` its bits
2:0 (R72, R85). -/
def takeMem (top : BitVec 2) (b3 : BitVec 1) (low : BitVec 3) (bs : List Byte) : Parsed Mem :=
  match top, b3, low with
  | 2#2, 0#1, r => .ok (.ind r) bs
  | 2#2, _, r => (take8 bs).bind fun d rest => .ok (.indD8 r d) rest
  | 3#2, 0#1, 0#3 => (take8 bs).bind fun a rest => .ok (.abs8 a) rest
  | 3#2, 0#1, 1#3 => (take16 bs).bind fun a rest => .ok (.abs16 a) rest
  | 3#2, 0#1, 2#3 => (take24 bs).bind fun a rest => .ok (.abs24 a) rest
  | 3#2, 0#1, 3#3 => takeMode3 bs
  | 3#2, 0#1, 4#3 => takeAuto .preDec bs
  | 3#2, 0#1, 5#3 => takeAuto .postInc bs
  | _, _, _ => .reject .unknownMode bs

def memFirst (ss : BitVec 2) : Mem → Byte
  | .ind r => firstByte 2#2 ss 0#1 r
  | .indD8 r _ => firstByte 2#2 ss 1#1 r
  | .abs8 _ => firstByte 3#2 ss 0#1 0#3
  | .abs16 _ => firstByte 3#2 ss 0#1 1#3
  | .abs24 _ => firstByte 3#2 ss 0#1 2#3
  | .extInd _ => firstByte 3#2 ss 0#1 3#3
  | .extD16 _ _ => firstByte 3#2 ss 0#1 3#3
  | .idx8 _ _ => firstByte 3#2 ss 0#1 3#3
  | .idx16 _ _ => firstByte 3#2 ss 0#1 3#3
  | .preDec _ _ => firstByte 3#2 ss 0#1 4#3
  | .postInc _ _ => firstByte 3#2 ss 0#1 5#3

def memExt : Mem → List Byte
  | .ind _ => []
  | .indD8 _ d => [d]
  | .abs8 a => [a]
  | .abs16 a => le16 a
  | .abs24 a => le24 a
  | .extInd r => [code8 r 0#2]
  | .extD16 r d => code8 r 1#2 :: le16 d
  | .idx8 base index => [0x03#8, code8 base 0#2, code8 index.sel index.part]
  | .idx16 base index => [0x07#8, code8 base 0#2, code8 index.sel index.part]
  | .preDec r step => [code8 r step.code]
  | .postInc r step => [code8 r step.code]

/-- `extlen(mem)` (R85). -/
def Mem.extLen : Mem → Nat
  | .ind _ => 0
  | .indD8 _ _ => 1
  | .abs8 _ => 1
  | .abs16 _ => 2
  | .abs24 _ => 3
  | .extInd _ => 1
  | .extD16 _ _ => 3
  | .idx8 _ _ => 3
  | .idx16 _ _ => 3
  | .preDec _ _ => 1
  | .postInc _ _ => 1

/-! ### Second opcode bytes (R91, R92, R93) and first bytes below 80H (R90) -/

/-- A form with Byte and Word only (R74). -/
def needBW (sz : Size) (rest : List Byte) (k : BW → Parsed Instr) : Parsed Instr :=
  match sz with
  | .byte => k .byte
  | .word => k .word
  | .long => .reject .sizeNotAllowed rest

/-- A form with one size only. -/
def needSize (want sz : Size) (rest : List Byte) (p : Parsed Instr) : Parsed Instr :=
  if sz = want then p else .reject .sizeNotAllowed rest

/-- A register operand that R79 assigns at this size. -/
def needReg (sz : Size) (r : RegOp) (rest : List Byte) (p : Parsed Instr) : Parsed Instr :=
  if r.ok sz then p else .reject .unknownRegister rest

/-- A condition that a multiply destination meets (R202, U6, U7). -/
def needMul (fine : Bool) (rest : List Byte) (p : Parsed Instr) : Parsed Instr :=
  if fine then p else .reject .multiplyRegister rest

/-- A modulo instruction: Word register, field of two bytes (R192). -/
def takeModulo (mk : BitVec 16 → RegOp → Instr) (sz : Size) (r : RegOp) (rest : List Byte) :
    Parsed Instr :=
  needSize .word sz rest (needReg .word r rest
    ((take16 rest).bind fun field rest1 => .ok (mk field r) rest1))

/-- After a register prefix (R91). -/
def decodeFr (sz : Size) (r : RegOp) (bs : List Byte) : Parsed Instr :=
  (take8 bs).bind fun b rest =>
    match hi5 b, lo3 b with
    | 0b00000#5, 3#3 =>
      needReg sz r rest ((takeImm sz rest).bind fun v rest1 => .ok (.ldRegImm sz r v) rest1)
    | 0b00000#5, 7#3 => needBW sz rest fun z => needReg z.size r rest (.ok (.neg z r) rest)
    | 0b00001#5, 0#3 =>
      needBW sz rest fun z => needMul (r.mulOk z) rest
        ((takeImm z.size rest).bind fun v rest1 => .ok (.mulImm z r v) rest1)
    | 0b00001#5, 1#3 =>
      needBW sz rest fun z => needMul (r.mulOk z) rest
        ((takeImm z.size rest).bind fun v rest1 => .ok (.mulsImm z r v) rest1)
    | 0b00001#5, 4#3 =>
      needSize .long sz rest (needReg .long r rest
        ((take16 rest).bind fun d rest1 => .ok (.link r d) rest1))
    | 0b00010#5, 6#3 => needSize .word sz rest (needReg .word r rest (.ok (.mirr r) rest))
    | 0b00011#5, 1#3 => needSize .word sz rest (needMul (r.mulOk .word) rest (.ok (.mula r) rest))
    | 0b00100#5, 3#3 =>
      needBW sz rest fun z => needReg z.size r rest
        ((take8 rest).bind fun n rest1 => .ok (.ldcfImmReg z n r) rest1)
    | 0b00101#5, 3#3 => needBW sz rest fun z => needReg z.size r rest (.ok (.ldcfAReg z r) rest)
    | 0b00101#5, 6#3 =>
      needReg sz r rest ((take8 rest).bind fun cr rest1 => .ok (.ldcToCr sz cr r) rest1)
    | 0b00101#5, 7#3 =>
      needReg sz r rest ((take8 rest).bind fun cr rest1 => .ok (.ldcFromCr sz r cr) rest1)
    | 0b00111#5, 0#3 => takeModulo .minc1 sz r rest
    | 0b00111#5, 1#3 => takeModulo .minc2 sz r rest
    | 0b00111#5, 2#3 => takeModulo .minc4 sz r rest
    | 0b00111#5, 4#3 => takeModulo .mdec1 sz r rest
    | 0b00111#5, 5#3 => takeModulo .mdec2 sz r rest
    | 0b00111#5, 6#3 => takeModulo .mdec4 sz r rest
    | 0b01000#5, c =>
      needBW sz rest fun z => needMul (mulCodeOk z c) rest
        (needReg z.size r rest (.ok (.mulReg z c r) rest))
    | 0b01001#5, c =>
      needBW sz rest fun z => needMul (mulCodeOk z c) rest
        (needReg z.size r rest (.ok (.mulsReg z c r) rest))
    | 0b01100#5, n => needReg sz r rest (.ok (.incReg sz n r) rest)
    | 0b10001#5, c => needReg sz r rest (.ok (.ldCodeFromReg sz c r) rest)
    | 0b10011#5, c => needReg sz r rest (.ok (.ldRegFromCode sz r c) rest)
    | 0b10101#5, v => needReg sz r rest (.ok (.ldRegImm3 sz r v) rest)
    | _, _ => .reject .unknownOpcode rest

/-- A block load: its prefix is the plain `(R)` prefix of the source pointer, XHL or XIY (R87). -/
def takeBlock (deHl ixIy : BW → Instr) (sz : Size) (m : Mem) (rest : List Byte) : Parsed Instr :=
  match m with
  | .ind 3#3 => needBW sz rest fun z => .ok (deHl z) rest
  | .ind 5#3 => needBW sz rest fun z => .ok (ixIy z) rest
  | _ => .reject .unknownOpcode rest

/-- After a source-memory prefix (R92). -/
def decodeFs (sz : Size) (m : Mem) (bs : List Byte) : Parsed Instr :=
  (take8 bs).bind fun b rest =>
    match hi5 b, lo3 b with
    | 0b00010#5, 0#3 => takeBlock .ldiDeHl .ldiIxIy sz m rest
    | 0b00010#5, 1#3 => takeBlock .ldirDeHl .ldirIxIy sz m rest
    | 0b00010#5, 2#3 => takeBlock .lddDeHl .lddIxIy sz m rest
    | 0b00010#5, 3#3 => takeBlock .lddrDeHl .lddrIxIy sz m rest
    | 0b00011#5, 1#3 =>
      needBW sz rest fun z => (take16 rest).bind fun a rest1 => .ok (.ldAbs16Mem z a m) rest1
    | 0b00100#5, c => .ok (.ldCodeMem sz c m) rest
    | 0b01000#5, c =>
      needBW sz rest fun z => needMul (mulCodeOk z c) rest (.ok (.mulMem z c m) rest)
    | 0b01001#5, c =>
      needBW sz rest fun z => needMul (mulCodeOk z c) rest (.ok (.mulsMem z c m) rest)
    | 0b01100#5, n => needBW sz rest fun z => .ok (.incMem z n m) rest
    | _, _ => .reject .unknownOpcode rest

/-- After a destination-memory prefix (R93). -/
def decodeFd (m : Mem) (bs : List Byte) : Parsed Instr :=
  (take8 bs).bind fun b rest =>
    match hi5 b, lo3 b with
    | 0b00000#5, 0#3 => (take8 rest).bind fun v rest1 => .ok (.ldMemImm .byte m v) rest1
    | 0b00000#5, 2#3 => (take16 rest).bind fun v rest1 => .ok (.ldMemImm .word m v) rest1
    | 0b00010#5, 4#3 => (take16 rest).bind fun a rest1 => .ok (.ldMemAbs16 .byte m a) rest1
    | 0b00010#5, 6#3 => (take16 rest).bind fun a rest1 => .ok (.ldMemAbs16 .word m a) rest1
    | 0b00100#5, c => .ok (.lda .word c m) rest
    | 0b00101#5, 3#3 => .ok (.ldcfAMem m) rest
    | 0b00110#5, c => .ok (.lda .long c m) rest
    | 0b01000#5, c => .ok (.ldMemCode .byte m c) rest
    | 0b01010#5, c => .ok (.ldMemCode .word m c) rest
    | 0b01100#5, c => .ok (.ldMemCode .long m c) rest
    | 0b10011#5, n => .ok (.ldcfImmMem n m) rest
    | 0b11010#5, l => .ok (.jpMem (condOfCode (0#1 ++ l)) m) rest
    | 0b11011#5, l => .ok (.jpMem (condOfCode (1#1 ++ l)) m) rest
    | _, _ => .reject .unknownOpcode rest

/-- First bytes below 80H (R90). -/
def decodeF0 (b : Byte) (rest : List Byte) : Parsed Instr :=
  match hi5 b, lo3 b with
  | 0b00000#5, 0#3 => .ok .nop rest
  | 0b00000#5, 5#3 => .ok .halt rest
  | 0b00001#5, 0#3 =>
    (take8 rest).bind fun a rest1 => (take8 rest1).bind fun v rest2 => .ok (.ldAbs8Imm .byte a v) rest2
  | 0b00001#5, 2#3 =>
    (take8 rest).bind fun a rest1 => (take16 rest1).bind fun v rest2 => .ok (.ldAbs8Imm .word a v) rest2
  | 0b00001#5, 4#3 => .ok .incf rest
  | 0b00010#5, 7#3 =>
    (take8 rest).bind fun n rest1 =>
      if hi5 n = 0#5 then .ok (.ldf (lo3 n)) rest1 else .reject .unknownOpcode rest1
  | 0b00011#5, 2#3 => (take16 rest).bind fun a rest1 => .ok (.jpAbs16 a) rest1
  | 0b00011#5, 3#3 => (take24 rest).bind fun a rest1 => .ok (.jpAbs24 a) rest1
  | 0b00100#5, c => (take8 rest).bind fun v rest1 => .ok (.ldCodeImm .byte c v) rest1
  | 0b00110#5, c => (take16 rest).bind fun v rest1 => .ok (.ldCodeImm .word c v) rest1
  | 0b01000#5, c => (take32 rest).bind fun v rest1 => .ok (.ldCodeImm .long c v) rest1
  | 0b01100#5, l => (take8 rest).bind fun d rest1 => .ok (.jr (condOfCode (0#1 ++ l)) d) rest1
  | 0b01101#5, l => (take8 rest).bind fun d rest1 => .ok (.jr (condOfCode (1#1 ++ l)) d) rest1
  | 0b01110#5, l => (take16 rest).bind fun d rest1 => .ok (.jrl (condOfCode (0#1 ++ l)) d) rest1
  | 0b01111#5, l => (take16 rest).bind fun d rest1 => .ok (.jrl (condOfCode (1#1 ++ l)) d) rest1
  | _, _ => .reject .unknownOpcode rest

/-- LDX after its first byte: five bytes, of which the first, third and fifth are ignored (R95,
R157). -/
def decodeLdx : List Byte → Parsed Instr
  | _ :: a :: _ :: v :: _ :: rest => .ok (.ldx a v) rest
  | _ => .short

/-- LDAR after F3H 13H (R84, R161). -/
def decodeLdar (bs : List Byte) : Parsed Instr :=
  (take16 bs).bind fun d rest =>
    (take8 rest).bind fun b rest1 =>
      match hi5 b with
      | 0b00100#5 => .ok (.ldar .word (lo3 b) d) rest1
      | 0b00110#5 => .ok (.ldar .long (lo3 b) d) rest1
      | _ => .reject .unknownOpcode rest1

/-- The opcode after a memory operand; size bits `11` mark a destination prefix (R71). -/
def decodeMemOp (ss : BitVec 2) (m : Mem) (rest : List Byte) : Parsed Instr :=
  match sizeOfCode ss with
  | some sz => decodeFs sz m rest
  | none => decodeFd m rest

/-- The decoder of R94, before the grades of R70 are looked at. -/
def decodeRaw : List Byte → Parsed Instr
  | [] => .short
  | b :: rest =>
    if b = 0xF7#8 then decodeLdx rest
    else if b = 0xF3#8 ∧ rest.head? = some 0x13#8 then decodeLdar rest.tail
    else
      match topBits b, bit3 b, lo3 b with
      | 0#2, _, _ => decodeF0 b rest
      | 1#2, _, _ => decodeF0 b rest
      | 3#2, 1#1, c =>
        match sizeOfCode (sizeBits b) with
        | some sz => decodeFr sz (.short c) rest
        | none => .reject .unknownOpcode rest
      | 3#2, 0#1, 7#3 =>
        match sizeOfCode (sizeBits b) with
        | some sz => (takeExtReg rest).bind fun e rest1 => decodeFr sz (.ext e) rest1
        | none => .reject .unknownOpcode rest
      | top, b3, low => (takeMem top b3 low rest).bind fun m rest1 => decodeMemOp (sizeBits b) m rest1

/-! ### Grades (R70) -/

inductive Grade where
  | clean
  | recovered
  | damaged
  | lost
  | suspect
  deriving DecidableEq, Repr

/-- The grade of an instruction's row (R104, last column). -/
def Instr.grade : Instr → Grade
  | .halt => .clean
  | .incReg _ _ _ => .recovered
  | .incMem _ _ _ => .clean
  | .incf => .damaged
  | .jpAbs16 _ => .recovered
  | .jpAbs24 _ => .recovered
  | .jpMem _ _ => .lost
  | .jr _ _ => .clean
  | .jrl _ _ => .clean
  | .ldCodeFromReg _ _ _ => .lost
  | .ldRegFromCode _ _ _ => .lost
  | .ldRegImm3 _ _ _ => .lost
  | .ldCodeImm _ _ _ => .recovered
  | .ldRegImm _ _ _ => .lost
  | .ldCodeMem _ _ _ => .lost
  | .ldMemCode _ _ _ => .lost
  | .ldAbs8Imm _ _ _ => .clean
  | .ldMemImm _ _ _ => .recovered
  | .ldAbs16Mem _ _ _ => .suspect
  | .ldMemAbs16 _ _ _ => .lost
  | .lda _ _ _ => .recovered
  | .ldar _ _ _ => .clean
  | .ldcToCr _ _ _ => .lost
  | .ldcFromCr _ _ _ => .lost
  | .ldcfImmReg _ _ _ => .lost
  | .ldcfAReg _ _ => .lost
  | .ldcfImmMem _ _ => .lost
  | .ldcfAMem _ => .lost
  | .lddDeHl _ => .recovered
  | .lddIxIy _ => .clean
  | .lddrDeHl _ => .lost
  | .lddrIxIy _ => .lost
  | .ldiDeHl _ => .lost
  | .ldiIxIy _ => .lost
  | .ldirDeHl _ => .damaged
  | .ldirIxIy _ => .damaged
  | .ldf _ => .lost
  | .ldx _ _ => .clean
  | .link _ _ => .clean
  | .mdec1 _ _ => .lost
  | .mdec2 _ _ => .clean
  | .mdec4 _ _ => .clean
  | .minc1 _ _ => .lost
  | .minc2 _ _ => .clean
  | .minc4 _ _ => .clean
  | .mirr _ => .lost
  | .mulReg _ _ _ => .clean
  | .mulImm _ _ _ => .recovered
  | .mulMem _ _ _ => .clean
  | .mula _ => .damaged
  | .mulsReg _ _ _ => .lost
  | .mulsImm _ _ _ => .lost
  | .mulsMem _ _ _ => .clean
  | .neg _ _ => .damaged
  | .nop => .recovered

/-- R70, D19: which grades decode.  The suspect row decodes only once a listing has settled it
(90_conflicts.md C3; log 2). -/
def Launch.admits (l : Launch) : Grade → Bool
  | .clean => true
  | .recovered => true
  | .damaged => l.gkEncodings
  | .lost => l.gkEncodings
  | .suspect => l.suspectEncodings

/-- The decoder: R94, then the grades of R70. -/
def decode (l : Launch) (bs : List Byte) : Parsed Instr :=
  (decodeRaw bs).bind fun i rest =>
    if l.admits i.grade then .ok i rest else .reject .gradeRefused rest

/-- The longest instruction, in bytes (R71). -/
def maxLength : Nat := 7

/-! ### Length (R73) -/

/-- The bytes of a register prefix (R78, R79). -/
def RegOp.prefixLen : RegOp → Nat
  | .short _ => 1
  | .ext _ => 2

/-- `len`, the length in bytes (R73 and the column `len` of R104). -/
def Instr.len : Instr → Nat
  | .halt => 1
  | .incReg _ _ r => r.prefixLen + 1
  | .incMem _ _ m => 2 + m.extLen
  | .incf => 1
  | .jpAbs16 _ => 3
  | .jpAbs24 _ => 4
  | .jpMem _ m => 2 + m.extLen
  | .jr _ _ => 2
  | .jrl _ _ => 3
  | .ldCodeFromReg _ _ r => r.prefixLen + 1
  | .ldRegFromCode _ r _ => r.prefixLen + 1
  | .ldRegImm3 _ r _ => r.prefixLen + 1
  | .ldCodeImm sz _ _ => 1 + sz.bytes
  | .ldRegImm sz r _ => r.prefixLen + 1 + sz.bytes
  | .ldCodeMem _ _ m => 2 + m.extLen
  | .ldMemCode _ m _ => 2 + m.extLen
  | .ldAbs8Imm z _ _ => 2 + z.size.bytes
  | .ldMemImm z m _ => 2 + m.extLen + z.size.bytes
  | .ldAbs16Mem _ _ m => 4 + m.extLen
  | .ldMemAbs16 _ m _ => 4 + m.extLen
  | .lda _ _ m => 2 + m.extLen
  | .ldar _ _ _ => 5
  | .ldcToCr _ _ r => r.prefixLen + 2
  | .ldcFromCr _ r _ => r.prefixLen + 2
  | .ldcfImmReg _ _ r => r.prefixLen + 2
  | .ldcfAReg _ r => r.prefixLen + 1
  | .ldcfImmMem _ m => 2 + m.extLen
  | .ldcfAMem m => 2 + m.extLen
  | .lddDeHl _ => 2
  | .lddIxIy _ => 2
  | .lddrDeHl _ => 2
  | .lddrIxIy _ => 2
  | .ldiDeHl _ => 2
  | .ldiIxIy _ => 2
  | .ldirDeHl _ => 2
  | .ldirIxIy _ => 2
  | .ldf _ => 2
  | .ldx _ _ => 6
  | .link r _ => r.prefixLen + 3
  | .mdec1 _ r => r.prefixLen + 3
  | .mdec2 _ r => r.prefixLen + 3
  | .mdec4 _ r => r.prefixLen + 3
  | .minc1 _ r => r.prefixLen + 3
  | .minc2 _ r => r.prefixLen + 3
  | .minc4 _ r => r.prefixLen + 3
  | .mirr r => r.prefixLen + 1
  | .mulReg _ _ r => r.prefixLen + 1
  | .mulImm z r _ => r.prefixLen + 1 + z.size.bytes
  | .mulMem _ _ m => 2 + m.extLen
  | .mula r => r.prefixLen + 1
  | .mulsReg _ _ r => r.prefixLen + 1
  | .mulsImm z r _ => r.prefixLen + 1 + z.size.bytes
  | .mulsMem _ _ m => 2 + m.extLen
  | .neg _ r => r.prefixLen + 1
  | .nop => 1

/-! ### The encoder (R104) -/

/-- The bytes of a register prefix (R78, R79). -/
def regPrefix (sz : Size) : RegOp → List Byte
  | .short c => [firstByte 3#2 sz.code 1#1 c]
  | .ext e => [firstByte 3#2 sz.code 0#1 7#3, code8 e.sel e.part]

/-- A memory prefix with its extension bytes (R84, R85). -/
def memPrefix (ss : BitVec 2) (m : Mem) : List Byte := memFirst ss m :: memExt m

/-- The bytes of a well-formed instruction, in address order (R104, column `bytes`). -/
def encode : Instr → List Byte
  | .halt => [opByte 0b00000#5 5#3]
  | .incReg sz n r => regPrefix sz r ++ [opByte 0b01100#5 n]
  | .incMem z n m => memPrefix z.size.code m ++ [opByte 0b01100#5 n]
  | .incf => [opByte 0b00001#5 4#3]
  | .jpAbs16 a => opByte 0b00011#5 2#3 :: le16 a
  | .jpAbs24 a => opByte 0b00011#5 3#3 :: le24 a
  | .jpMem cc m => memPrefix 3#2 m ++ [0xD#4 ++ cc.code]
  | .jr cc d => [0x6#4 ++ cc.code, d]
  | .jrl cc d => (0x7#4 ++ cc.code) :: le16 d
  | .ldCodeFromReg sz c r => regPrefix sz r ++ [opByte 0b10001#5 c]
  | .ldRegFromCode sz r c => regPrefix sz r ++ [opByte 0b10011#5 c]
  | .ldRegImm3 sz r v => regPrefix sz r ++ [opByte 0b10101#5 v]
  | .ldCodeImm sz c v => (0#1 ++ (sz.code.setWidth 3 + 2#3) ++ 0#1 ++ c) :: encodeImm sz v
  | .ldRegImm sz r v => regPrefix sz r ++ opByte 0b00000#5 3#3 :: encodeImm sz v
  | .ldCodeMem sz c m => memPrefix sz.code m ++ [opByte 0b00100#5 c]
  | .ldMemCode sz m c => memPrefix 3#2 m ++ [0b01#2 ++ sz.code ++ 0#1 ++ c]
  | .ldAbs8Imm z a v => (0b000010#6 ++ z.code ++ 0#1) :: a :: encodeImm z.size v
  | .ldMemImm z m v =>
    memPrefix 3#2 m ++ (0b000000#6 ++ z.code ++ 0#1) :: encodeImm z.size v
  | .ldAbs16Mem z a m => memPrefix z.size.code m ++ opByte 0b00011#5 1#3 :: le16 a
  | .ldMemAbs16 z m a => memPrefix 3#2 m ++ (0b000101#6 ++ z.code ++ 0#1) :: le16 a
  | .lda w c m => memPrefix 3#2 m ++ [0b001#3 ++ w.code ++ 0#1 ++ c]
  | .ldar w c d => 0xF3#8 :: 0x13#8 :: le16 d ++ [0b001#3 ++ w.code ++ 0#1 ++ c]
  | .ldcToCr sz cr r => regPrefix sz r ++ [opByte 0b00101#5 6#3, cr]
  | .ldcFromCr sz r cr => regPrefix sz r ++ [opByte 0b00101#5 7#3, cr]
  | .ldcfImmReg z b r => regPrefix z.size r ++ [opByte 0b00100#5 3#3, b]
  | .ldcfAReg z r => regPrefix z.size r ++ [opByte 0b00101#5 3#3]
  | .ldcfImmMem n m => memPrefix 3#2 m ++ [opByte 0b10011#5 n]
  | .ldcfAMem m => memPrefix 3#2 m ++ [opByte 0b00101#5 3#3]
  | .lddDeHl z => [memFirst z.size.code (.ind 3#3), opByte 0b00010#5 2#3]
  | .lddIxIy z => [memFirst z.size.code (.ind 5#3), opByte 0b00010#5 2#3]
  | .lddrDeHl z => [memFirst z.size.code (.ind 3#3), opByte 0b00010#5 3#3]
  | .lddrIxIy z => [memFirst z.size.code (.ind 5#3), opByte 0b00010#5 3#3]
  | .ldiDeHl z => [memFirst z.size.code (.ind 3#3), opByte 0b00010#5 0#3]
  | .ldiIxIy z => [memFirst z.size.code (.ind 5#3), opByte 0b00010#5 0#3]
  | .ldirDeHl z => [memFirst z.size.code (.ind 3#3), opByte 0b00010#5 1#3]
  | .ldirIxIy z => [memFirst z.size.code (.ind 5#3), opByte 0b00010#5 1#3]
  | .ldf n => [opByte 0b00010#5 7#3, opByte 0b00000#5 n]
  | .ldx a v => [0xF7#8, 0#8, a, 0#8, v, 0#8]
  | .link r d => regPrefix .long r ++ opByte 0b00001#5 4#3 :: le16 d
  | .mdec1 f r => regPrefix .word r ++ opByte 0b00111#5 4#3 :: le16 f
  | .mdec2 f r => regPrefix .word r ++ opByte 0b00111#5 5#3 :: le16 f
  | .mdec4 f r => regPrefix .word r ++ opByte 0b00111#5 6#3 :: le16 f
  | .minc1 f r => regPrefix .word r ++ opByte 0b00111#5 0#3 :: le16 f
  | .minc2 f r => regPrefix .word r ++ opByte 0b00111#5 1#3 :: le16 f
  | .minc4 f r => regPrefix .word r ++ opByte 0b00111#5 2#3 :: le16 f
  | .mirr r => regPrefix .word r ++ [opByte 0b00010#5 6#3]
  | .mulReg z c r => regPrefix z.size r ++ [opByte 0b01000#5 c]
  | .mulImm z r v => regPrefix z.size r ++ opByte 0b00001#5 0#3 :: encodeImm z.size v
  | .mulMem z c m => memPrefix z.size.code m ++ [opByte 0b01000#5 c]
  | .mula r => regPrefix .word r ++ [opByte 0b00011#5 1#3]
  | .mulsReg z c r => regPrefix z.size r ++ [opByte 0b01001#5 c]
  | .mulsImm z r v => regPrefix z.size r ++ opByte 0b00001#5 1#3 :: encodeImm z.size v
  | .mulsMem z c m => memPrefix z.size.code m ++ [opByte 0b01001#5 c]
  | .neg z r => regPrefix z.size r ++ [opByte 0b00000#5 7#3]
  | .nop => [opByte 0b00000#5 0#3]

/-! ### Byte order of a number, and the host's table words -/

/-- The `k` bytes of a number, least significant first (R53, R83). -/
def leBytes : Nat → Nat → List Byte
  | 0, _ => []
  | k + 1, v => BitVec.ofNat 8 v :: leBytes k (v / 256)

/-- The number whose bytes, least significant first, are given (R53). -/
def leNat : List Byte → Nat
  | [] => 0
  | b :: bs => b.toNat + 256 * leNat bs

/-- The control registers that 10_state.md R32 gives: codes, names and widths (GK10). -/
def familyCrMap : List CrEntry :=
  [⟨0x00#8, .dmas 0, .long⟩, ⟨0x04#8, .dmas 1, .long⟩, ⟨0x08#8, .dmas 2, .long⟩, ⟨0x0C#8, .dmas 3, .long⟩,
   ⟨0x10#8, .dmad 0, .long⟩, ⟨0x14#8, .dmad 1, .long⟩, ⟨0x18#8, .dmad 2, .long⟩, ⟨0x1C#8, .dmad 3, .long⟩,
   ⟨0x20#8, .dmac 0, .word⟩, ⟨0x24#8, .dmac 1, .word⟩, ⟨0x28#8, .dmac 2, .word⟩, ⟨0x2C#8, .dmac 3, .word⟩,
   ⟨0x22#8, .dmam 0, .byte⟩, ⟨0x26#8, .dmam 1, .byte⟩, ⟨0x2A#8, .dmam 2, .byte⟩, ⟨0x2E#8, .dmam 3, .byte⟩]

/-- The launch arguments at the defaults of the spec (R6, D17, D18, D19): no device address, no
control register, general-knowledge encodings refused.  The whole address space is admitted
(DESIGN CHOICE, unsafe, log 4). -/
def defaultLaunch : Launch where
  regions := [⟨0, Config.addressSpace⟩]

/-- DESIGN CHOICE, unsafe (log 1, 3): the launch arguments that `State.reset` is given: the
defaults, but for the control register map of R32 and the general-knowledge encodings admitted. -/
def resetLaunch : Launch := { defaultLaunch with crMap := familyCrMap, gkEncodings := true }

/-- The bytes of an instruction given as a number whose bits 7:0 are the first byte: `nbits` bits
of `w`, zeros above, up to the longest instruction. -/
def tableBytes (nbits w : Nat) : List Byte := leBytes maxLength (w % 2 ^ nbits)

/-- The instruction the decoder reads from a table word. -/
def decodeTableWord (nbits w : Nat) : Option Instr :=
  match decode resetLaunch (tableBytes nbits w) with
  | .ok i _ => some i
  | _ => none

end Sys2Proof
end

