-- ==== Sys2Proof/Machine/Memory.lean ====
section
/-! DEFINITION. Memory as a list of (address, byte) pairs in one canonical form, and the set of addresses the program has
written (20_memory.md R50, R60, R62). -/

namespace Sys2Proof.Machine

/-- The bytes of memory that differ from `Memory.unlisted`, addresses strictly rising (R50). -/
abbrev Memory := List Host.Cell

/-- DESIGN CHOICE, unsafe (log 5): what a byte that nothing has stored or loaded reads as. -/
def Memory.unlisted : Byte := 0#8

/-- One byte of memory. -/
def Memory.read : Memory → Nat → Byte
  | [], _ => Memory.unlisted
  | (k, b) :: rest, a => if k = a then b else Memory.read rest a

/-- Drop every entry for an address. -/
def Memory.erase : Memory → Nat → Memory
  | [], _ => []
  | (k, b) :: rest, a => if k = a then Memory.erase rest a else (k, b) :: Memory.erase rest a

/-- Put an entry at its place in the rising order. -/
def Memory.insert : Memory → Nat → Byte → Memory
  | [], a, v => [(a, v)]
  | (k, b) :: rest, a, v =>
    if a < k then (a, v) :: (k, b) :: rest
    else if k = a then (a, v) :: rest
    else (k, b) :: Memory.insert rest a v

/-- Store one byte, keeping the canonical form. -/
def Memory.write (m : Memory) (a : Nat) (v : Byte) : Memory :=
  if v = Memory.unlisted then m.erase a else m.insert a v

/-- Every address of the list is above `lo`, rising, inside the address space, and no entry equals
what an unlisted address reads as. -/
def Memory.wfFrom : Nat → Memory → Bool
  | _, [] => true
  | lo, (k, b) :: rest =>
    decide (lo ≤ k) && decide (k < Config.addressSpace) && decide (b ≠ Memory.unlisted)
      && Memory.wfFrom (k + 1) rest

/-- The canonical form. -/
def Memory.wf (m : Memory) : Bool := Memory.wfFrom 0 m

/-- Addresses the program has written, strictly rising (R62). -/
abbrev Written := List Nat

def Written.mark : Written → Nat → Written
  | [], a => [a]
  | k :: rest, a =>
    if a < k then a :: k :: rest else if k = a then k :: rest else k :: Written.mark rest a

/-- Strictly rising from `lo` on, inside the address space. -/
def Written.wfFrom : Nat → Written → Bool
  | _, [] => true
  | lo, k :: rest => decide (lo ≤ k) && decide (k < Config.addressSpace) && Written.wfFrom (k + 1) rest

def Written.wf (w : Written) : Bool := Written.wfFrom 0 w

/-- Whether any of the `n` addresses from `a` on has been written. -/
def Written.hits (w : Written) (a n : Nat) : Bool := w.any fun k => decide (a ≤ k ∧ k < a + n)

/-- Whether an address lies in a set of regions (R212, R57). -/
def inRegions (rs : List Region) (a : Nat) : Bool :=
  rs.any fun r => decide (r.base ≤ a ∧ a < r.base + r.size)

/-- The `n` bytes of memory from `a` on. -/
def Memory.window (m : Memory) : Nat → Nat → List Byte
  | _, 0 => []
  | a, n + 1 => m.read a :: Memory.window m (a + 1) n

end Sys2Proof.Machine
end

