-- ==== Sys2Proof/Machine/State.lean ====
section
/-! DEFINITION. The state of the machine (10_state.md), the ways a step can stop (60_exceptions.md R211), and the state after
reset (R35, R36, R230). -/

namespace Sys2Proof.Machine

/-- The six flags (R30). -/
structure Flags where
  s : Bool
  z : Bool
  h : Bool
  v : Bool
  n : Bool
  c : Bool
  deriving DecidableEq, Repr

/-- One register bank (R24). -/
structure Bank where
  xwa : Long
  xbc : Long
  xde : Long
  xhl : Long
  deriving DecidableEq, Repr

/-- The control registers (R32, D18): those that do not hold 0, by name, in the order of
`crNumber`, each value zero-extended.  Which registers there are, and how wide, the launch's
`CR_MAP` says. -/
abbrev ControlRegs := List (CrName × Long)

/-- Everything the spec gives the machine (INVENTORY.md, State). -/
structure State where
  /-- XWA, XBC, XDE, XHL of banks 0 to 3 (R20, R24) -/
  banks : Vector Bank 4
  /-- XIX, XIY, XIZ, XSP, the same in every bank (R20, R24, R26) -/
  xix : Long
  xiy : Long
  xiz : Long
  xsp : Long
  /-- program counter (R28, D4) -/
  pc : Addr
  /-- SR.RFP<2:0>, the register file pointer; bit 2 fixed to 0 (R29) -/
  rfp : BitVec 3
  /-- SR.IFF<2:0>, the interrupt mask level (R29, R36); no instruction in scope writes it -/
  iff : BitVec 3
  /-- S Z H V N C (R30) -/
  flags : Flags
  /-- control registers (R32) -/
  cr : ControlRegs
  /-- set by HALT (R33) -/
  halted : Bool
  /-- the bytes of memory that differ from `Memory.unlisted` (R50) -/
  mem : Memory
  /-- the addresses the program has written since launch (R62) -/
  written : Written
  /-- the model's own: how many free values have been drawn (R57, R168; log 12) -/
  freeIndex : Nat
  /-- the launch arguments of R237 -/
  launch : Launch
  deriving DecidableEq, Repr

/-- The model faults of R211 that are no `require`.  Both end the run without a change of state
(safe: the chip does something there that the spec does not give). -/
inductive Fault where
  /-- `UndefinedInstruction`: raised by fetch when the bytes at `pc` are no admitted instruction;
  `bytes` are the bytes examined.  Safe. -/
  | undefinedInstruction (pc : Addr) (why : DecodeError) (bytes : List Byte)
  /-- `Stuck`: raised by fetch and by every data access that touches `address` outside the admitted
  regions (R212).  Safe. -/
  | stuck (pc : Addr) (address : Nat)
  deriving DecidableEq, Repr

/-- `Refused` of R211, one constructor for each `require`, with the pc.  All are safe: they end the
run where the spec gives no meaning. -/
inductive Refusal where
  /-- raised by `exec` for an instruction that has no meaning yet; safe -/
  | notModelled (mnemonic : String)
  /-- `next` lies outside 000000H..FFFFFFH (R28, D4); raised by any instruction, a taken jump too -/
  | nextOutside (pc : Addr)
  /-- a jump target lies outside 000000H..FFFFFFH (R137, R138, R139, D4) -/
  | targetOutside (pc : Addr)
  /-- LDAR's address lies outside 000000H..FFFFFFH (R161, D4) -/
  | addressOutside (pc : Addr)
  /-- JP or LDA through a pre-decrement or post-increment mode (R86, U9) -/
  | autoUpdateAddress (pc : Addr)
  /-- the pointer a mode updates is also the data register (R150, R151, R226, U13) -/
  | autoUpdateData (pc : Addr)
  /-- LDF with 4 to 7 (R131, U4) -/
  | ldfNumber (pc : Addr)
  /-- MDEC or MINC with a modulus that is no allowed power of two (R192, U2) -/
  | moduloNumber (pc : Addr)
  /-- LDC with a code outside `CR_MAP` (R162, R163, U11) -/
  | crCode (pc : Addr)
  /-- LDC with a size that is not the control register's width (R162, R163, U11) -/
  | crWidth (pc : Addr)
  /-- LDCF #4,r whose third byte has a bit of 7:4 set (R164, U19) -/
  | ldcfHighBits (pc : Addr)
  /-- LINK with XSP (R180, U15) -/
  | linkXsp (pc : Addr)
  /-- MULA with XHL (R201, U14) -/
  | mulaXhl (pc : Addr)
  /-- a fetch of a byte the program wrote (R62, D13) -/
  | fetchWritten (pc : Addr)
  deriving DecidableEq, Repr

/-- The outcome of an instruction, or of a part of one that yields a value. -/
abbrev Result (α : Type) := Host.Outcome α Fault Refusal

/-- DESIGN CHOICE, unsafe (log 7): a bank after reset. -/
def Bank.zero : Bank := ⟨0, 0, 0, 0⟩

/-- DESIGN CHOICE, unsafe (log 7): the flags after reset. -/
def Flags.zero : Flags := ⟨false, false, false, false, false, false⟩

/-- DESIGN CHOICE, unsafe (log 7): the control registers after reset, all 0. -/
def ControlRegs.zero : ControlRegs := []

/-- Reset start (R35, R230, R232 a): the pc from the four bytes at FFFF00H, `halted` 0.  The values
of the other registers are the model's (log 6, log 7).  DESIGN CHOICE, unsafe (log 31): where
`IO_REGION` holds an address of FFFF00H to FFFF03H, the spec leaves open whether the vector is a draw
(R35 reads it by MemRead, R57) or the supplied bytes (R232 a); the model takes the supplied bytes. -/
def State.resetFrom (l : Launch) (m : Memory) : State where
  banks := Vector.replicate 4 Bank.zero
  xix := 0
  xiy := 0
  xiz := 0
  xsp := 0x00000100#32
  pc := BitVec.ofNat 24 (leNat (m.window Config.resetVector 4))
  rfp := 0
  iff := 7
  flags := Flags.zero
  cr := ControlRegs.zero
  halted := false
  mem := m
  written := []
  freeIndex := 0
  launch := l

/-- The machine right after reset: memory with nothing listed. -/
def State.reset : State := State.resetFrom resetLaunch []

end Sys2Proof.Machine
end

