-- ==== Sys2Proof/Machine/Flags.lean ====
section
/-! DEFINITION. Every flag computation of the spec (R30, R31, R127, R128, R170, R171, R201) and the conditions (R89, R140). -/

namespace Sys2Proof.Machine

/-- `set_inc_flags(a, num, res, n)` (R127). -/
def incFlags {n : Nat} (a : BitVec n) (num : Nat) (res : BitVec n) (f : Flags) : Flags :=
  { f with
    s := res.msb
    z := res == 0
    h := decide (15 < a.toNat % 16 + num)
    v := !a.msb && res.msb
    n := false }

/-- The flags of NEG, from the operand and the result (R128). -/
def negFlags {n : Nat} (a res : BitVec n) : Flags where
  s := res.msb
  z := res == 0
  h := decide (a.toNat % 16 ≠ 0)
  v := decide (a.toNat = 2 ^ (n - 1))
  n := true
  c := decide (a.toNat ≠ 0)

/-- The carry flag from a bit, the others kept (R164). -/
def carryFlag (b : Bool) (f : Flags) : Flags := { f with c := b }

/-- H and N cleared, V given (R170 to R173). -/
def blockFlags (v : Bool) (f : Flags) : Flags := { f with h := false, v := v, n := false }

/-- The flags of MULA from the addend, the product and the sum (R201). -/
def mulaFlags (d p res : BitVec 32) (f : Flags) : Flags :=
  { f with
    s := res.msb
    z := res == 0
    v := d.msb == p.msb && res.msb != d.msb }

/-- `cond(cc)` (R89, R140). -/
def condHolds (cc : Cond) (f : Flags) : Bool :=
  match cc with
  | .f => false
  | .lt => f.s != f.v
  | .le => (f.s != f.v) || f.z
  | .ule => f.c || f.z
  | .ov => f.v
  | .mi => f.s
  | .z => f.z
  | .c => f.c
  | .t => true
  | .ge => f.s == f.v
  | .gt => !((f.s != f.v) || f.z)
  | .ugt => !(f.c || f.z)
  | .nov => !f.v
  | .pl => !f.s
  | .nz => !f.z
  | .nc => !f.c

end Sys2Proof.Machine
end

