-- ==== Sys2Proof/Machine/Ops.lean ====
section
/-! DEFINITION. The named operations over registers and memory: sequencing, one update per kind of state, the program
counter (R28), register banks (R24), byte and multi-byte memory access (R51 to R57, R212), free values (R168), control
registers (R32).  The spec describes no exception entry or return (R210, R216, R217), so there is none here. -/

namespace Sys2Proof.Machine

/-- Go on with a value; a fault or refusal ends the instruction (R211). -/
def andThen {α β : Type} (r : Result α) (f : α → Result β) : Result β :=
  match r with
  | .next a => f a
  | .fault e => .fault e
  | .refused e => .refused e

/-! ### Updates -/

def State.setPc (s : State) (a : Addr) : State := { s with pc := a }
def State.setFlags (s : State) (f : Flags) : State := { s with flags := f }
def State.setRfp (s : State) (v : BitVec 3) : State := { s with rfp := v }
def State.setHalted (s : State) : State := { s with halted := true }
def State.setCr (s : State) (c : ControlRegs) : State := { s with cr := c }
def State.setFreeIndex (s : State) (n : Nat) : State := { s with freeIndex := n }

/-- Note that the program wrote a byte (R62); memory stays as it is. -/
def State.markWritten (s : State) (a : Addr) : State := { s with written := s.written.mark a.toNat }

/-- Store one byte of admitted memory and note that the program wrote it (R62). -/
def State.storeByte (s : State) (a : Addr) (b : Byte) : State :=
  { s with mem := s.mem.write a.toNat b, written := s.written.mark a.toNat }

/-- One byte of memory, as the CPU's own stores left it (R60). -/
def State.byteAt (s : State) (a : Nat) : Byte := s.mem.read a

/-! ### Registers (R20, R24) -/

/-- A 32-bit register of the machine. -/
inductive PReg where
  | bank (b : Fin 4) (r : BankReg)
  | xix
  | xiy
  | xiz
  | xsp
  deriving DecidableEq, Repr

def Bank.get (b : Bank) : BankReg → Long
  | .xwa => b.xwa
  | .xbc => b.xbc
  | .xde => b.xde
  | .xhl => b.xhl

def Bank.put (b : Bank) (r : BankReg) (v : Long) : Bank :=
  match r with
  | .xwa => { b with xwa := v }
  | .xbc => { b with xbc := v }
  | .xde => { b with xde := v }
  | .xhl => { b with xhl := v }

def State.get32 (s : State) : PReg → Long
  | .bank b r => (s.banks[b.val]).get r
  | .xix => s.xix
  | .xiy => s.xiy
  | .xiz => s.xiz
  | .xsp => s.xsp

def State.set32 (s : State) (p : PReg) (v : Long) : State :=
  match p with
  | .bank b r => { s with banks := s.banks.set b.val ((s.banks[b.val]).put r v) b.isLt }
  | .xix => { s with xix := v }
  | .xiy => { s with xiy := v }
  | .xiz => { s with xiz := v }
  | .xsp => { s with xsp := v }

/-- The current bank: RFP<1:0> (R24, R29). -/
def State.curBank (s : State) : Fin 4 := (s.rfp.extractLsb' 0 2).toFin

/-! ### Status register (R29, GK5; log 20) -/

def bit (b : Bool) : BitVec 1 := BitVec.ofBool b

/-- SR as a 16-bit word: SYSM, IFF2:0, MAX, RFP2:0, S, Z, 0, H, 0, V, N, C.  SYSM and MAX read 1
(maximum mode only, D5). -/
def State.srWord (s : State) : BitVec 16 :=
  1#1 ++ s.iff ++ 1#1 ++ s.rfp ++ bit s.flags.s ++ bit s.flags.z ++ 0#1 ++ bit s.flags.h ++ 0#1
    ++ bit s.flags.v ++ bit s.flags.n ++ bit s.flags.c

/-! ### The program counter (R11, R28, D4) -/

/-- D4: the instruction goes on when its `next` fits in 24 bits, a jump that is taken too (R28,
R226). -/
def requireNext (len : Nat) (s : State) (k : Result State) : Result State :=
  if s.pc.toNat + len < Config.addressSpace then k else .refused (.nextOutside s.pc)

/-- `pc <- next` for an instruction of `len` bytes; refused when `next` needs more than 24 bits
(D4).  DESIGN CHOICE (log 30): no `require` line of a rule holds this refusal, so where it stands
against the other refusals and a Stuck data access of the same instruction is open; the model makes
it the last of all, where the rule's line `pc <- next` stands. -/
def finish (len : Nat) (s : State) : Result State :=
  if s.pc.toNat + len < Config.addressSpace then .next (s.setPc (BitVec.ofNat 24 (s.pc.toNat + len)))
  else .refused (.nextOutside s.pc)

/-- `pc <- target`; refused when the target is outside 000000H..FFFFFFH. -/
def jumpTo (target : Int) (s : State) : Result State :=
  if 0 ≤ target ∧ target < Config.addressSpace then .next (s.setPc (BitVec.ofInt 24 target))
  else .refused (.targetOutside s.pc)

/-! ### Memory (R51, R53, R55, R57, R212) -/

/-- A device address (R57). -/
def State.isDevice (s : State) (a : Nat) : Bool := inRegions s.launch.io a

/-- An address a data access or fetch may touch (R212). -/
def State.isAdmitted (s : State) (a : Nat) : Bool := inRegions s.launch.regions a

/-- Read one byte.  A device byte is a free value (R57, D17). -/
def readByte (a : Addr) (s : State) : Result (Byte × State) :=
  if s.isDevice a.toNat then .next (Config.freeByte s.freeIndex, s.setFreeIndex (s.freeIndex + 1))
  else if s.isAdmitted a.toNat then .next (s.byteAt a.toNat, s)
  else .fault (.stuck s.pc a.toNat)

/-- Write one byte.  A device takes it without an effect the spec describes (R57, D17); it is a
store all the same (R237), so a later fetch of that byte is refused (R62, D13). -/
def writeByte (a : Addr) (b : Byte) (s : State) : Result State :=
  if s.isDevice a.toNat then .next (s.markWritten a)
  else if s.isAdmitted a.toNat then .next (s.storeByte a b)
  else .fault (.stuck s.pc a.toNat)

/-- The bytes at `a`, `a + 1`, ..., addresses modulo 2^24 (R55), lowest first. -/
def readBytes : Nat → Addr → State → Result (List Byte × State)
  | 0, _, s => .next ([], s)
  | n + 1, a, s =>
    andThen (readByte a s) fun p =>
      andThen (readBytes n (a + 1#24) p.2) fun q => .next (p.1 :: q.1, q.2)

def writeBytes : List Byte → Addr → State → Result State
  | [], _, s => .next s
  | b :: bs, a, s => andThen (writeByte a b s) fun s1 => writeBytes bs (a + 1#24) s1

/-- `MemRead(a, bytes(sz))` (R11, R53). -/
def readMem (sz : Size) (a : Addr) (s : State) : Result (BitVec sz.bits × State) :=
  andThen (readBytes sz.bytes a s) fun p => .next (BitVec.ofNat sz.bits (leNat p.1), p.2)

/-- `MemWrite(a, bytes(sz), v)` (R11, R53). -/
def writeMem (sz : Size) (a : Addr) (v : BitVec sz.bits) (s : State) : Result State :=
  writeBytes (leBytes sz.bytes v.toNat) a s

/-- The low 24 bits of a 32-bit value (R51, D3). -/
def dataAddr (v : Long) : Addr := v.setWidth 24

/-! ### Free values (R168) -/

/-- `bit_or_undefined(v, num, n)`: bit `num` of `v`, a free value when there is none. -/
def bitOrFree {n : Nat} (v : BitVec n) (num : Nat) (s : State) : Bool × State :=
  if num < n then (v.getLsbD num, s)
  else (Config.freeBit s.freeIndex, s.setFreeIndex (s.freeIndex + 1))

/-! ### Control registers (R32, R162, R163) -/

/-- The place of a register in the canonical order. -/
def crNumber : CrName → Nat
  | .dmas n => n.val
  | .dmad n => 4 + n.val
  | .dmac n => 8 + n.val
  | .dmam n => 12 + n.val
  | .other k => 16 + k

/-- The value of a control register, zero-extended. -/
def ControlRegs.get : ControlRegs → CrName → Long
  | [], _ => 0
  | (k, v) :: rest, name => if k = name then v else ControlRegs.get rest name

/-- Drop every entry for a register. -/
def ControlRegs.erase : ControlRegs → CrName → ControlRegs
  | [], _ => []
  | (k, v) :: rest, name =>
    if k = name then ControlRegs.erase rest name else (k, v) :: ControlRegs.erase rest name

/-- Put an entry at its place in the order. -/
def ControlRegs.insert : ControlRegs → CrName → Long → ControlRegs
  | [], name, v => [(name, v)]
  | (k, w) :: rest, name, v =>
    if crNumber name < crNumber k then (name, v) :: (k, w) :: rest
    else if k = name then (name, v) :: rest
    else (k, w) :: ControlRegs.insert rest name v

/-- Write a control register, keeping the canonical form. -/
def ControlRegs.put (c : ControlRegs) (name : CrName) (v : Long) : ControlRegs :=
  if v = 0 then c.erase name else c.insert name v

/-- Numbers rising from `lo` on, and no entry that is 0. -/
def ControlRegs.wfFrom : Nat → ControlRegs → Bool
  | _, [] => true
  | lo, (k, v) :: rest =>
    decide (lo ≤ crNumber k) && decide (v ≠ 0) && ControlRegs.wfFrom (crNumber k + 1) rest

/-- The canonical form. -/
def ControlRegs.wf (c : ControlRegs) : Bool := ControlRegs.wfFrom 0 c

/-- The register and width that a code has in `CR_MAP` (D18). -/
def State.crEntry (s : State) (code : Byte) : Option CrEntry :=
  s.launch.crMap.find? fun e => e.code == code

/-- `require cr in CR_MAP and width(cr) = bits(zz)` (R162, R163). -/
def requireCr (sz : Size) (code : Byte) (s : State) : Result CrName :=
  match s.crEntry code with
  | none => .refused (.crCode s.pc)
  | some e => if e.width = sz then .next e.name else .refused (.crWidth s.pc)

end Sys2Proof.Machine
end

