-- ==== Sys2Proof/Machine/Operands.lean ====
section
/-! DEFINITION. Operands: register operands as slots of 32-bit registers (10_state.md R20 to R25, R38; 30_encoding.md R77, R79),
effective addresses (R85, R86), and the auto-update conditions U9 and U13. -/

namespace Sys2Proof.Machine

/-- Where a register lies: a 32-bit register and the number of its lowest bit (R21, R22, R37). -/
structure Slot where
  reg : PReg
  off : Nat
  deriving DecidableEq, Repr

/-- The 32-bit register with 3-bit code `c` (R20, R24). -/
def reg32 (c : BitVec 3) (s : State) : PReg :=
  match c with
  | 0#3 => .bank s.curBank .xwa
  | 1#3 => .bank s.curBank .xbc
  | 2#3 => .bank s.curBank .xde
  | 3#3 => .bank s.curBank .xhl
  | 4#3 => .xix
  | 5#3 => .xiy
  | 6#3 => .xiz
  | _ => .xsp

/-- `reg(sz, c)` (R38): long and word registers lie at the bottom of their 32-bit register; the
byte codes are W A B C D E H L, the odd ones low bytes (R22). -/
def codeSlot (sz : Size) (c : BitVec 3) (s : State) : Slot :=
  match sz with
  | .byte => ⟨reg32 (0#1 ++ c.extractLsb' 1 2) s, if c.getLsbD 0 then 0 else 8⟩
  | .word => ⟨reg32 c s, 0⟩
  | .long => ⟨reg32 c s, 0⟩

/-- The 32-bit register that an extension code selects (R79). -/
def selReg (sel : R32Sel) (s : State) : PReg :=
  match sel with
  | .bank b r => .bank b r
  | .previous r => .bank (s.curBank - 1) r
  | .current r => .bank s.curBank r
  | .xix => .xix
  | .xiy => .xiy
  | .xiz => .xiz
  | .xsp => .xsp

/-- `regx(sz, code8)` (R79): `part` counts bytes. -/
def extSlot (e : ExtReg) (s : State) : Slot := ⟨selReg e.sel s, 8 * e.part.toNat⟩

/-- The register operand `r` of size `sz` (R78, R79). -/
def slotOf (sz : Size) (r : RegOp) (s : State) : Slot :=
  match r with
  | .short c => codeSlot sz c s
  | .ext e => extSlot e s

/-- `x[n]` (R11). -/
def readSlot (sz : Size) (t : Slot) (s : State) : BitVec sz.bits :=
  (s.get32 t.reg).extractLsb' t.off sz.bits

/-- Replace `n` bits of a long word from bit `off` on, the others kept (R23). -/
def insertBits {n : Nat} (old : Long) (off : Nat) (v : BitVec n) : Long :=
  (old &&& ~~~((BitVec.allOnes n).setWidth 32 <<< off)) ||| (v.setWidth 32 <<< off)

/-- `x[n] <- v` (R11, R23). -/
def writeSlot (sz : Size) (t : Slot) (v : BitVec sz.bits) (s : State) : State :=
  s.set32 t.reg (insertBits (s.get32 t.reg) t.off v)

/-- A, W and BC of the current bank (R22, R27). -/
def slotA (s : State) : Slot := ⟨.bank s.curBank .xwa, 0⟩
def slotBC (s : State) : Slot := ⟨.bank s.curBank .xbc, 0⟩

/-! ### Effective addresses (R85, R86) -/

/-- The step of an auto-update mode (R85). -/
def autoAmount : AutoStep → BitVec 32
  | .one => 1
  | .two => 2
  | .four => 4

/-- The register a mode updates, if it updates one. -/
def autoReg (m : Mem) (s : State) : Option PReg :=
  match m with
  | .preDec r _ => some (selReg r s)
  | .postInc r _ => some (selReg r s)
  | _ => none

/-- The 32-bit effective address (R85, last column), sums modulo 2^32. -/
def eaAddr (m : Mem) (s : State) : Long :=
  match m with
  | .ind r => s.get32 (reg32 r s)
  | .indD8 r d => s.get32 (reg32 r s) + d.signExtend 32
  | .abs8 a => a.setWidth 32
  | .abs16 a => a.setWidth 32
  | .abs24 a => a.setWidth 32
  | .extInd r => s.get32 (selReg r s)
  | .extD16 r d => s.get32 (selReg r s) + d.signExtend 32
  | .idx8 base index => s.get32 (selReg base s) + (readSlot .byte (extSlot index s) s).signExtend 32
  | .idx16 base index => s.get32 (selReg base s) + (readSlot .word (extSlot index s) s).signExtend 32
  | .preDec r step => s.get32 (selReg r s) - autoAmount step
  | .postInc r _ => s.get32 (selReg r s)

/-- The pointer update of a pre-decrement or post-increment mode (R85, R86; log 17). -/
def eaUpdate (m : Mem) (s : State) : State :=
  match m with
  | .preDec r step => s.set32 (selReg r s) (s.get32 (selReg r s) - autoAmount step)
  | .postInc r step => s.set32 (selReg r s) (s.get32 (selReg r s) + autoAmount step)
  | _ => s

/-- The address a data access through `m` uses: the low 24 bits of the effective address (R51). -/
def memAddr (m : Mem) (s : State) : Addr := dataAddr (eaAddr m s)

/-- `MemRead(EA(mem), bytes(sz))`. -/
def readEa (sz : Size) (m : Mem) (s : State) : Result (BitVec sz.bits × State) :=
  readMem sz (memAddr m s) (eaUpdate m s)

/-- `MemWrite(EA(mem), bytes(sz), v)`. -/
def writeEa (sz : Size) (m : Mem) (v : BitVec sz.bits) (s : State) : Result State :=
  writeMem sz (memAddr m s) v (eaUpdate m s)

/-- U9: no meaning for an address operand through an auto-update mode (R86). -/
def requireNoAuto (m : Mem) (s : State) (k : Result State) : Result State :=
  match autoReg m s with
  | none => k
  | some _ => .refused (.autoUpdateAddress s.pc)

/-- U13: no meaning when the register the mode updates holds the data register (R150, R151, R226;
log 16). -/
def requireNotAuto (m : Mem) (t : Slot) (s : State) (k : Result State) : Result State :=
  if autoReg m s = some t.reg then .refused (.autoUpdateData s.pc) else k

/-- `#3` of INC: 1 to 7 as itself, 0 for 8 (R81). -/
def incAmount (num : BitVec 3) : Nat := if num = 0#3 then 8 else num.toNat

end Sys2Proof.Machine
end

