-- ==== Sys2Proof/Machine/Block.lean ====
section
/-! DEFINITION. Block loads: LDI, LDIR, LDD, LDDR (46_block_load.md). -/

namespace Sys2Proof.Machine

/-- The two operand pairs: (XDE),(XHL) and (XIX),(XIY), destination first. -/
inductive BlockPair where
  | deHl
  | ixIy
  deriving DecidableEq, Repr

def BlockPair.dst (p : BlockPair) (s : State) : PReg :=
  match p with
  | .deHl => .bank s.curBank .xde
  | .ixIy => .xix

def BlockPair.src (p : BlockPair) (s : State) : PReg :=
  match p with
  | .deHl => .bank s.curBank .xhl
  | .ixIy => .xiy

/-- Post-increment or post-decrement. -/
inductive Dir where
  | up
  | down
  deriving DecidableEq, Repr

/-- `dir*k` modulo 2^32 (R174, D21). -/
def blockStep (dir : Dir) (z : BW) : Long :=
  match dir with
  | .up => BitVec.ofNat 32 z.size.bytes
  | .down => 0 - BitVec.ofNat 32 z.size.bytes

/-- BC of the current bank (R27). -/
def counter (s : State) : BitVec 16 := readSlot .word (slotBC s) s

/-- The register part of `item(dir)` (R174): both pointers move, BC goes down by 1. -/
def itemRegs (dir : Dir) (z : BW) (p : BlockPair) (s : State) : State :=
  let s1 := s.set32 (p.dst s) (s.get32 (p.dst s) + blockStep dir z)
  let s2 := s1.set32 (p.src s) (s.get32 (p.src s) + blockStep dir z)
  writeSlot .word (slotBC s) (counter s - 1) s2

/-- `item(dir)` (R174): read, write, pointers, counter. -/
def item (dir : Dir) (z : BW) (p : BlockPair) (s : State) : Result State :=
  andThen (readMem z.size (dataAddr (s.get32 (p.src s))) s) fun q =>
    andThen (writeMem z.size (dataAddr (s.get32 (p.dst s))) q.1 q.2) fun s1 =>
      .next (itemRegs dir z p s1)

/-- `repeat item until BC = 0` (R171, R173), with a bound on the number of items that a loop never
reaches: the counter has 65536 values. -/
def repeatItems (dir : Dir) (z : BW) (p : BlockPair) : Nat → State → Result State
  | 0, s => .next s
  | fuel + 1, s =>
    andThen (item dir z p s) fun s1 =>
      if counter s1 = 0 then .next s1 else repeatItems dir z p fuel s1

/-- One item, then the flags of R170 and R172. -/
def blockOnce (dir : Dir) (z : BW) (p : BlockPair) (len : Nat) (s : State) : Result State :=
  andThen (item dir z p s) fun s1 =>
    finish len (s1.setFlags (blockFlags (counter s1 != 0) s1.flags))

/-- All items, then the flags of R171 and R173. -/
def blockRepeat (dir : Dir) (z : BW) (p : BlockPair) (len : Nat) (s : State) : Result State :=
  andThen (repeatItems dir z p 0x10000 s) fun s1 =>
    finish len (s1.setFlags (blockFlags false s1.flags))

/-- LDD<W> [(XDE-),(XHL-)] (R172). -/
def execLddDeHl (z : BW) (s : State) : Result State :=
  blockOnce .down z .deHl (Instr.len (.lddDeHl z)) s

/-- LDD<W> (XIX-),(XIY-) (R172). -/
def execLddIxIy (z : BW) (s : State) : Result State :=
  blockOnce .down z .ixIy (Instr.len (.lddIxIy z)) s

/-- LDDR<W> [(XDE-),(XHL-)] (R173). -/
def execLddrDeHl (z : BW) (s : State) : Result State :=
  blockRepeat .down z .deHl (Instr.len (.lddrDeHl z)) s

/-- LDDR<W> (XIX-),(XIY-) (R173). -/
def execLddrIxIy (z : BW) (s : State) : Result State :=
  blockRepeat .down z .ixIy (Instr.len (.lddrIxIy z)) s

/-- LDI<W> [(XDE+),(XHL+)] (R170). -/
def execLdiDeHl (z : BW) (s : State) : Result State :=
  blockOnce .up z .deHl (Instr.len (.ldiDeHl z)) s

/-- LDI<W> (XIX+),(XIY+) (R170). -/
def execLdiIxIy (z : BW) (s : State) : Result State :=
  blockOnce .up z .ixIy (Instr.len (.ldiIxIy z)) s

/-- LDIR<W> [(XDE+),(XHL+)] (R171). -/
def execLdirDeHl (z : BW) (s : State) : Result State :=
  blockRepeat .up z .deHl (Instr.len (.ldirDeHl z)) s

/-- LDIR<W> (XIX+),(XIY+) (R171). -/
def execLdirIxIy (z : BW) (s : State) : Result State :=
  blockRepeat .up z .ixIy (Instr.len (.ldirIxIy z)) s

end Sys2Proof.Machine
end

