-- ==== Sys2Proof/Machine/Control.lean ====
section
/-! DEFINITION. CPU control and the register file pointer: HALT, NOP (40_halt_nop.md), INCF, LDF (42_register_file_pointer.md). -/

namespace Sys2Proof.Machine

/-- HALT (R120). -/
def execHalt (s : State) : Result State :=
  andThen (finish (Instr.len .halt) s) fun s1 => .next s1.setHalted

/-- NOP (R121). -/
def execNop (s : State) : Result State := finish (Instr.len .nop) s

/-- RFP<1:0> takes a value and RFP<2> stays 0 (R29, R130, R131). -/
def setRfpLow (v : BitVec 2) (s : State) : State := s.setRfp (0#1 ++ v)

/-- INCF (R130). -/
def execIncf (s : State) : Result State :=
  finish (Instr.len .incf) (setRfpLow (s.rfp.extractLsb' 0 2 + 1) s)

/-- LDF #3 (R131). -/
def execLdf (num : BitVec 3) (s : State) : Result State :=
  if num.toNat ≤ 3 then finish (Instr.len (.ldf num)) (setRfpLow (num.extractLsb' 0 2) s)
  else .refused (.ldfNumber s.pc)

end Sys2Proof.Machine
end

