-- ==== Sys2Proof/Machine/IncNeg.lean ====
section
/-! DEFINITION. Increment and negate: INC, NEG (41_inc_neg.md). -/

namespace Sys2Proof.Machine

/-- INC #3,r (R125): flags for a Byte operand only. -/
def execIncReg (sz : Size) (num : BitVec 3) (r : RegOp) (s : State) : Result State :=
  let t := slotOf sz r s
  let a := readSlot sz t s
  let res := a + BitVec.ofNat sz.bits (incAmount num)
  let s1 := writeSlot sz t res s
  let f := if sz = .byte then incFlags a (incAmount num) res s.flags else s.flags
  finish (Instr.len (.incReg sz num r)) (s1.setFlags f)

/-- INC<W> #3,(mem) (R126): flags for both sizes. -/
def execIncMem (z : BW) (num : BitVec 3) (m : Mem) (s : State) : Result State :=
  andThen (readEa z.size m s) fun p =>
    let res := p.1 + BitVec.ofNat z.size.bits (incAmount num)
    andThen (writeMem z.size (memAddr m s) res p.2) fun s2 =>
      finish (Instr.len (.incMem z num m)) (s2.setFlags (incFlags p.1 (incAmount num) res s2.flags))

/-- NEG r (R128). -/
def execNeg (z : BW) (r : RegOp) (s : State) : Result State :=
  let t := slotOf z.size r s
  let a := readSlot z.size t s
  let res := 0 - a
  finish (Instr.len (.neg z r)) ((writeSlot z.size t res s).setFlags (negFlags a res))

end Sys2Proof.Machine
end

