-- ==== Sys2Proof/Machine/Jump.lean ====
section
/-! DEFINITION. Jumps: JP, JR, JRL (43_jump.md). -/

namespace Sys2Proof.Machine

/-- `if cond(cc) then pc <- target else pc <- next` (R137 to R139).  D4 refuses both an outside
`next`, taken or not, and an outside target.  DESIGN CHOICE (log 30): `next` is looked at first. -/
def jumpIf (cc : Cond) (target : Int) (len : Nat) (s : State) : Result State :=
  if condHolds cc s.flags then requireNext len s (jumpTo target s) else finish len s

/-- JP #16 (R135); R226 refuses it when `next` is beyond FFFFFFH. -/
def execJpAbs16 (a : BitVec 16) (s : State) : Result State :=
  requireNext (Instr.len (.jpAbs16 a)) s (.next (s.setPc (a.setWidth 24)))

/-- JP #24 (R136); R226 refuses it when `next` is beyond FFFFFFH. -/
def execJpAbs24 (a : BitVec 24) (s : State) : Result State :=
  requireNext (Instr.len (.jpAbs24 a)) s (.next (s.setPc a))

/-- JP [cc,] mem (R137): the address itself is the target. -/
def execJpMem (cc : Cond) (m : Mem) (s : State) : Result State :=
  requireNoAuto m s (jumpIf cc (eaAddr m s).toNat (Instr.len (.jpMem cc m)) s)

/-- JR [cc,] $+2+d8 (R138). -/
def execJr (cc : Cond) (d : BitVec 8) (s : State) : Result State :=
  jumpIf cc (s.pc.toNat + 2 + d.toInt) (Instr.len (.jr cc d)) s

/-- JRL [cc,] $+3+d16 (R139). -/
def execJrl (cc : Cond) (d : BitVec 16) (s : State) : Result State :=
  jumpIf cc (s.pc.toNat + 3 + d.toInt) (Instr.len (.jrl cc d)) s

end Sys2Proof.Machine
end

