-- ==== Sys2Proof/Machine/Link.lean ====
section
/-! DEFINITION. Stack frame: LINK (47_link.md). -/

namespace Sys2Proof.Machine

/-- XSP after a push of a long word (R26, R180). -/
def pushedXsp (s : State) : Long := s.xsp - 4

/-- LINK r,d16 (R180). -/
def execLink (r : RegOp) (d : BitVec 16) (s : State) : Result State :=
  let t := slotOf .long r s
  if t.reg = .xsp then .refused (.linkXsp s.pc)
  else
    andThen (writeMem .long (dataAddr (pushedXsp s)) (readSlot .long t s) s) fun s1 =>
      let s2 := writeSlot .long t (pushedXsp s) s1
      finish (Instr.len (.link r d)) (s2.set32 .xsp (pushedXsp s + d.signExtend 32))

end Sys2Proof.Machine
end

