-- ==== Sys2Proof/Machine/Load.lean ====
section
/-! DEFINITION. Loads: the eleven forms of LD, and LDX (44_load.md).  None writes a flag (R156). -/

namespace Sys2Proof.Machine

/-- LD R,r (R145). -/
def execLdCodeFromReg (sz : Size) (c : BitVec 3) (r : RegOp) (s : State) : Result State :=
  finish (Instr.len (.ldCodeFromReg sz c r))
    (writeSlot sz (codeSlot sz c s) (readSlot sz (slotOf sz r s) s) s)

/-- LD r,R (R146). -/
def execLdRegFromCode (sz : Size) (r : RegOp) (c : BitVec 3) (s : State) : Result State :=
  finish (Instr.len (.ldRegFromCode sz r c))
    (writeSlot sz (slotOf sz r s) (readSlot sz (codeSlot sz c s) s) s)

/-- LD r,#3 (R147). -/
def execLdRegImm3 (sz : Size) (r : RegOp) (v : BitVec 3) (s : State) : Result State :=
  finish (Instr.len (.ldRegImm3 sz r v)) (writeSlot sz (slotOf sz r s) (v.setWidth sz.bits) s)

/-- LD R,# (R148). -/
def execLdCodeImm (sz : Size) (c : BitVec 3) (v : BitVec sz.bits) (s : State) : Result State :=
  finish (Instr.len (.ldCodeImm sz c v)) (writeSlot sz (codeSlot sz c s) v s)

/-- LD r,# (R149). -/
def execLdRegImm (sz : Size) (r : RegOp) (v : BitVec sz.bits) (s : State) : Result State :=
  finish (Instr.len (.ldRegImm sz r v)) (writeSlot sz (slotOf sz r s) v s)

/-- LD R,(mem) (R150). -/
def execLdCodeMem (sz : Size) (c : BitVec 3) (m : Mem) (s : State) : Result State :=
  requireNotAuto m (codeSlot sz c s) s
    (andThen (readEa sz m s) fun p =>
      finish (Instr.len (.ldCodeMem sz c m)) (writeSlot sz (codeSlot sz c s) p.1 p.2))

/-- LD (mem),R (R151). -/
def execLdMemCode (sz : Size) (m : Mem) (c : BitVec 3) (s : State) : Result State :=
  requireNotAuto m (codeSlot sz c s) s
    (andThen (writeEa sz m (readSlot sz (codeSlot sz c s) s) s) fun s1 =>
      finish (Instr.len (.ldMemCode sz m c)) s1)

/-- LD<W> (#8),# (R152). -/
def execLdAbs8Imm (z : BW) (a : BitVec 8) (v : BitVec z.size.bits) (s : State) : Result State :=
  andThen (writeMem z.size (a.setWidth 24) v s) fun s1 => finish (Instr.len (.ldAbs8Imm z a v)) s1

/-- LD<W> (mem),# (R153). -/
def execLdMemImm (z : BW) (m : Mem) (v : BitVec z.size.bits) (s : State) : Result State :=
  andThen (writeEa z.size m v s) fun s1 => finish (Instr.len (.ldMemImm z m v)) s1

/-- LD<W> (#16),(mem) (R154): the read before the write (R63). -/
def execLdAbs16Mem (z : BW) (a : BitVec 16) (m : Mem) (s : State) : Result State :=
  andThen (readEa z.size m s) fun p =>
    andThen (writeMem z.size (a.setWidth 24) p.1 p.2) fun s2 =>
      finish (Instr.len (.ldAbs16Mem z a m)) s2

/-- LD<W> (mem),(#16) (R155): the read before the write (R63). -/
def execLdMemAbs16 (z : BW) (m : Mem) (a : BitVec 16) (s : State) : Result State :=
  andThen (readMem z.size (a.setWidth 24) (eaUpdate m s)) fun p =>
    andThen (writeMem z.size (memAddr m s) p.1 p.2) fun s2 =>
      finish (Instr.len (.ldMemAbs16 z m a)) s2

/-- LDX (#8),# (R157): a byte store. -/
def execLdx (a : BitVec 8) (v : BitVec 8) (s : State) : Result State :=
  andThen (writeMem .byte (a.setWidth 24) v s) fun s1 => finish (Instr.len (.ldx a v)) s1

end Sys2Proof.Machine
end

