-- ==== Sys2Proof/Machine/LoadSpecial.lean ====
section
/-! DEFINITION. Load address, control register and carry flag: LDA, LDAR, LDC, LDCF (45_load_address_control_carry.md). -/

namespace Sys2Proof.Machine

/-- LDA R,mem (R160): no memory access, no 24-bit truncation. -/
def execLda (w : WL) (c : BitVec 3) (m : Mem) (s : State) : Result State :=
  requireNoAuto m s
    (finish (Instr.len (.lda w c m))
      (writeSlot w.size (codeSlot w.size c s) ((eaAddr m s).setWidth w.size.bits) s))

/-- LDAR R,$+4+d16 (R161). -/
def execLdar (w : WL) (c : BitVec 3) (d : BitVec 16) (s : State) : Result State :=
  let t : Int := s.pc.toNat + 4 + d.toInt
  if 0 ≤ t ∧ t < Config.addressSpace then
    finish (Instr.len (.ldar w c d))
      (writeSlot w.size (codeSlot w.size c s) (BitVec.ofInt w.size.bits t) s)
  else .refused (.addressOutside s.pc)

/-- LDC cr,r (R162). -/
def execLdcToCr (sz : Size) (cr : BitVec 8) (r : RegOp) (s : State) : Result State :=
  andThen (requireCr sz cr s) fun name =>
    finish (Instr.len (.ldcToCr sz cr r))
      (s.setCr (s.cr.put name ((readSlot sz (slotOf sz r s) s).setWidth 32)))

/-- LDC r,cr (R163). -/
def execLdcFromCr (sz : Size) (r : RegOp) (cr : BitVec 8) (s : State) : Result State :=
  andThen (requireCr sz cr s) fun name =>
    finish (Instr.len (.ldcFromCr sz r cr))
      (writeSlot sz (slotOf sz r s) ((s.cr.get name).setWidth sz.bits) s)

/-- C takes bit `num` of `v` (R164, R168). -/
def loadCarry {n : Nat} (v : BitVec n) (num : Nat) (s : State) : State :=
  let p := bitOrFree v num s
  p.2.setFlags (carryFlag p.1 p.2.flags)

/-- The bit number held in the low four bits of A (R165). -/
def bitNumberA (s : State) : Nat := (readSlot .byte (slotA s) s).toNat % 16

/-- LDCF #4,r (R164); bits 7:4 of the third byte must be 0 (U19). -/
def execLdcfImmReg (z : BW) (b : BitVec 8) (r : RegOp) (s : State) : Result State :=
  if b.toNat < 16 then
    finish (Instr.len (.ldcfImmReg z b r))
      (loadCarry (readSlot z.size (slotOf z.size r s) s) b.toNat s)
  else .refused (.ldcfHighBits s.pc)

/-- LDCF A,r (R165). -/
def execLdcfAReg (z : BW) (r : RegOp) (s : State) : Result State :=
  finish (Instr.len (.ldcfAReg z r))
    (loadCarry (readSlot z.size (slotOf z.size r s) s) (bitNumberA s) s)

/-- LDCF #3,(mem) (R166). -/
def execLdcfImmMem (num : BitVec 3) (m : Mem) (s : State) : Result State :=
  andThen (readEa .byte m s) fun p =>
    finish (Instr.len (.ldcfImmMem num m)) (loadCarry p.1 num.toNat p.2)

/-- LDCF A,(mem) (R167): the bit number is read before the effective address is formed (log 16). -/
def execLdcfAMem (m : Mem) (s : State) : Result State :=
  andThen (readEa .byte m s) fun p =>
    finish (Instr.len (.ldcfAMem m)) (loadCarry p.1 (bitNumberA s) p.2)

end Sys2Proof.Machine
end

