-- ==== Sys2Proof/Machine/Modulo.lean ====
section
/-! DEFINITION. Cyclic pointers and bit mirror: MDEC1/2/4, MINC1/2/4, MIRR (48_modulo_mirror.md). -/

namespace Sys2Proof.Machine

/-- `decode_num(imm16, k, nmin)` (R192): the modulus, if it is 2^n with nmin ≤ n ≤ 15. -/
def moduloNum (field : BitVec 16) (k nmin : Nat) : Option Nat :=
  let num := field.toNat + k
  if (List.range 16).any (fun n => nmin ≤ n && num == 2 ^ n) then some num else none

/-- `if (dst mod num) = 0 then dst + (num - k) else dst - k` (R185 to R187). -/
def cycleDown (num k : Nat) (a : BitVec 16) : BitVec 16 :=
  if a.toNat % num = 0 then a + BitVec.ofNat 16 (num - k) else a - BitVec.ofNat 16 k

/-- `if (dst mod num) = num - k then dst - (num - k) else dst + k` (R188 to R190). -/
def cycleUp (num k : Nat) (a : BitVec 16) : BitVec 16 :=
  if a.toNat % num = num - k then a - BitVec.ofNat 16 (num - k) else a + BitVec.ofNat 16 k

/-- Step a Word register by a cyclic formula; refused for a modulus R192 does not allow (U2). -/
def moduloStep (cycle : Nat → Nat → BitVec 16 → BitVec 16) (k nmin : Nat) (field : BitVec 16)
    (r : RegOp) (len : Nat) (s : State) : Result State :=
  match moduloNum field k nmin with
  | none => .refused (.moduloNumber s.pc)
  | some num =>
    let t := slotOf .word r s
    finish len (writeSlot .word t (cycle num k (readSlot .word t s)) s)

/-- MDEC1 #,r (R185). -/
def execMdec1 (field : BitVec 16) (r : RegOp) (s : State) : Result State :=
  moduloStep cycleDown 1 1 field r (Instr.len (.mdec1 field r)) s

/-- MDEC2 #,r (R186). -/
def execMdec2 (field : BitVec 16) (r : RegOp) (s : State) : Result State :=
  moduloStep cycleDown 2 2 field r (Instr.len (.mdec2 field r)) s

/-- MDEC4 #,r (R187). -/
def execMdec4 (field : BitVec 16) (r : RegOp) (s : State) : Result State :=
  moduloStep cycleDown 4 3 field r (Instr.len (.mdec4 field r)) s

/-- MINC1 #,r (R188). -/
def execMinc1 (field : BitVec 16) (r : RegOp) (s : State) : Result State :=
  moduloStep cycleUp 1 1 field r (Instr.len (.minc1 field r)) s

/-- MINC2 #,r (R189). -/
def execMinc2 (field : BitVec 16) (r : RegOp) (s : State) : Result State :=
  moduloStep cycleUp 2 2 field r (Instr.len (.minc2 field r)) s

/-- MINC4 #,r (R190). -/
def execMinc4 (field : BitVec 16) (r : RegOp) (s : State) : Result State :=
  moduloStep cycleUp 4 3 field r (Instr.len (.minc4 field r)) s

/-- The bits of a word in the opposite order: bit i of the result is bit 15 - i (R191). -/
def mirror (a : BitVec 16) : BitVec 16 := a.reverse

/-- MIRR r (R191). -/
def execMirr (r : RegOp) (s : State) : Result State :=
  let t := slotOf .word r s
  finish (Instr.len (.mirr r)) (writeSlot .word t (mirror (readSlot .word t s)) s)

end Sys2Proof.Machine
end

