-- ==== Sys2Proof/Machine/Multiply.lean ====
section
/-! DEFINITION. Multiply: MUL, MULS, MULA (49_multiply.md).  A multiply destination and its lower half, the multiplicand, start at
the same bit of the same 32-bit register, so one slot names both (R202). -/

namespace Sys2Proof.Machine

/-- The unsigned product at twice the width (R195). -/
def productU (z : BW) (a b : BitVec z.size.bits) : BitVec z.wide.bits :=
  BitVec.ofNat z.wide.bits (a.toNat * b.toNat)

/-- The signed product at twice the width (R198). -/
def productS (z : BW) (a b : BitVec z.size.bits) : BitVec z.wide.bits :=
  BitVec.ofInt z.wide.bits (a.toInt * b.toInt)

/-- `x[dst] <- x[low] * b` for the destination at slot `t` (R195 to R200). -/
def multiplyInto (z : BW) (product : BitVec z.size.bits → BitVec z.size.bits → BitVec z.wide.bits)
    (t : Slot) (b : BitVec z.size.bits) (s : State) : State :=
  writeSlot z.wide t (product (readSlot z.size t s) b) s

/-- MUL RR,r (R195). -/
def execMulReg (z : BW) (c : BitVec 3) (r : RegOp) (s : State) : Result State :=
  finish (Instr.len (.mulReg z c r))
    (multiplyInto z (productU z) (codeSlot z.size c s) (readSlot z.size (slotOf z.size r s) s) s)

/-- MUL rr,# (R196). -/
def execMulImm (z : BW) (r : RegOp) (v : BitVec z.size.bits) (s : State) : Result State :=
  finish (Instr.len (.mulImm z r v)) (multiplyInto z (productU z) (slotOf z.size r s) v s)

/-- MUL RR,(mem) (R197). -/
def execMulMem (z : BW) (c : BitVec 3) (m : Mem) (s : State) : Result State :=
  requireNotAuto m (codeSlot z.size c s) s
    (andThen (readEa z.size m s) fun p =>
      finish (Instr.len (.mulMem z c m))
        (multiplyInto z (productU z) (codeSlot z.size c s) p.1 p.2))

/-- MULS RR,r (R198). -/
def execMulsReg (z : BW) (c : BitVec 3) (r : RegOp) (s : State) : Result State :=
  finish (Instr.len (.mulsReg z c r))
    (multiplyInto z (productS z) (codeSlot z.size c s) (readSlot z.size (slotOf z.size r s) s) s)

/-- MULS rr,# (R199). -/
def execMulsImm (z : BW) (r : RegOp) (v : BitVec z.size.bits) (s : State) : Result State :=
  finish (Instr.len (.mulsImm z r v)) (multiplyInto z (productS z) (slotOf z.size r s) v s)

/-- MULS RR,(mem) (R200). -/
def execMulsMem (z : BW) (c : BitVec 3) (m : Mem) (s : State) : Result State :=
  requireNotAuto m (codeSlot z.size c s) s
    (andThen (readEa z.size m s) fun p =>
      finish (Instr.len (.mulsMem z c m))
        (multiplyInto z (productS z) (codeSlot z.size c s) p.1 p.2))

/-- The signed 32-bit product of two words (R201). -/
def productWord (a b : BitVec 16) : BitVec 32 := productS .word a b

/-- The register part of MULA (R201), `dst` other than XHL: the sum, XHL - 2, then S Z V. -/
def mulaRegs (dst : PReg) (p : BitVec 32) (s : State) : State :=
  let d := s.get32 dst
  let s1 := s.set32 dst (d + p)
  let s2 := s1.set32 (reg32 3#3 s) (s.get32 (reg32 3#3 s) - 2)
  s2.setFlags (mulaFlags d p (d + p) s2.flags)

/-- MULA rr (R201). -/
def execMula (r : RegOp) (s : State) : Result State :=
  let dst := (slotOf .word r s).reg
  if dst = reg32 3#3 s then .refused (.mulaXhl s.pc)
  else
    andThen (readMem .word (dataAddr (s.get32 (reg32 2#3 s))) s) fun p =>
      andThen (readMem .word (dataAddr (s.get32 (reg32 3#3 s))) p.2) fun q =>
        finish (Instr.len (.mula r)) (mulaRegs dst (productWord p.1 q.1) q.2)

end Sys2Proof.Machine
end

