-- ==== Sys2Proof/Machine/Dispatch.lean ====
section
/-! DEFINITION. The meaning of every instruction, one arm per constructor of Instr, in the order of the opcode table. -/

namespace Sys2Proof.Machine

def exec (i : Instr) (s : State) : Host.Outcome State Fault Refusal :=
  match i with
  | .halt => Sys2Proof.Machine.execHalt s
  | .incReg sz num r => Sys2Proof.Machine.execIncReg sz num r s
  | .incMem z num m => Sys2Proof.Machine.execIncMem z num m s
  | .incf => Sys2Proof.Machine.execIncf s
  | .jpAbs16 a => Sys2Proof.Machine.execJpAbs16 a s
  | .jpAbs24 a => Sys2Proof.Machine.execJpAbs24 a s
  | .jpMem cc m => Sys2Proof.Machine.execJpMem cc m s
  | .jr cc d => Sys2Proof.Machine.execJr cc d s
  | .jrl cc d => Sys2Proof.Machine.execJrl cc d s
  | .ldCodeFromReg sz c r => Sys2Proof.Machine.execLdCodeFromReg sz c r s
  | .ldRegFromCode sz r c => Sys2Proof.Machine.execLdRegFromCode sz r c s
  | .ldRegImm3 sz r v => Sys2Proof.Machine.execLdRegImm3 sz r v s
  | .ldCodeImm sz c v => Sys2Proof.Machine.execLdCodeImm sz c v s
  | .ldRegImm sz r v => Sys2Proof.Machine.execLdRegImm sz r v s
  | .ldCodeMem sz c m => Sys2Proof.Machine.execLdCodeMem sz c m s
  | .ldMemCode sz m c => Sys2Proof.Machine.execLdMemCode sz m c s
  | .ldAbs8Imm z a v => Sys2Proof.Machine.execLdAbs8Imm z a v s
  | .ldMemImm z m v => Sys2Proof.Machine.execLdMemImm z m v s
  | .ldAbs16Mem z a m => Sys2Proof.Machine.execLdAbs16Mem z a m s
  | .ldMemAbs16 z m a => Sys2Proof.Machine.execLdMemAbs16 z m a s
  | .lda w c m => Sys2Proof.Machine.execLda w c m s
  | .ldar w c d => Sys2Proof.Machine.execLdar w c d s
  | .ldcToCr sz cr r => Sys2Proof.Machine.execLdcToCr sz cr r s
  | .ldcFromCr sz r cr => Sys2Proof.Machine.execLdcFromCr sz r cr s
  | .ldcfImmReg z b r => Sys2Proof.Machine.execLdcfImmReg z b r s
  | .ldcfAReg z r => Sys2Proof.Machine.execLdcfAReg z r s
  | .ldcfImmMem num m => Sys2Proof.Machine.execLdcfImmMem num m s
  | .ldcfAMem m => Sys2Proof.Machine.execLdcfAMem m s
  | .lddDeHl z => Sys2Proof.Machine.execLddDeHl z s
  | .lddIxIy z => Sys2Proof.Machine.execLddIxIy z s
  | .lddrDeHl z => Sys2Proof.Machine.execLddrDeHl z s
  | .lddrIxIy z => Sys2Proof.Machine.execLddrIxIy z s
  | .ldiDeHl z => Sys2Proof.Machine.execLdiDeHl z s
  | .ldiIxIy z => Sys2Proof.Machine.execLdiIxIy z s
  | .ldirDeHl z => Sys2Proof.Machine.execLdirDeHl z s
  | .ldirIxIy z => Sys2Proof.Machine.execLdirIxIy z s
  | .ldf num => Sys2Proof.Machine.execLdf num s
  | .ldx a v => Sys2Proof.Machine.execLdx a v s
  | .link r d => Sys2Proof.Machine.execLink r d s
  | .mdec1 field r => Sys2Proof.Machine.execMdec1 field r s
  | .mdec2 field r => Sys2Proof.Machine.execMdec2 field r s
  | .mdec4 field r => Sys2Proof.Machine.execMdec4 field r s
  | .minc1 field r => Sys2Proof.Machine.execMinc1 field r s
  | .minc2 field r => Sys2Proof.Machine.execMinc2 field r s
  | .minc4 field r => Sys2Proof.Machine.execMinc4 field r s
  | .mirr r => Sys2Proof.Machine.execMirr r s
  | .mulReg z c r => Sys2Proof.Machine.execMulReg z c r s
  | .mulImm z r v => Sys2Proof.Machine.execMulImm z r v s
  | .mulMem z c m => Sys2Proof.Machine.execMulMem z c m s
  | .mula r => Sys2Proof.Machine.execMula r s
  | .mulsReg z c r => Sys2Proof.Machine.execMulsReg z c r s
  | .mulsImm z r v => Sys2Proof.Machine.execMulsImm z r v s
  | .mulsMem z c m => Sys2Proof.Machine.execMulsMem z c m s
  | .neg z r => Sys2Proof.Machine.execNeg z r s
  | .nop => Sys2Proof.Machine.execNop s

end Sys2Proof.Machine
end

