-- ==== Sys2Proof/Machine/Fetch.lean ====
section
/-! DEFINITION. Fetching an instruction (30_encoding.md R94; 20_memory.md R57, R62; 60_exceptions.md R211, R212, R215). -/

namespace Sys2Proof.Machine

/-- Why a fetch window ends. -/
inductive WindowEnd where
  /-- all bytes asked for are there -/
  | full
  /-- the next address is outside memory and devices, or above FFFFFFH (a fetch does not wrap) -/
  | stuck (address : Nat)
  deriving DecidableEq, Repr

/-- Up to `n` instruction bytes from address `a` on, and why there are not more.  A byte at a device
address is a draw (R57, D17); `d` is the number of the next one. -/
def fetchWindow (s : State) : Nat → Nat → Nat → List Byte × WindowEnd
  | 0, _, _ => ([], .full)
  | n + 1, a, d =>
    if Config.addressSpace ≤ a then ([], .stuck a)
    else if s.isDevice a then
      let p := fetchWindow s n (a + 1) (d + 1)
      (Config.freeByte d :: p.1, p.2)
    else if s.isAdmitted a then
      let p := fetchWindow s n (a + 1) d
      (s.byteAt a :: p.1, p.2)
    else ([], .stuck a)

/-- How many of the `n` addresses from `a` on are device addresses. -/
def fetchDraws (s : State) : Nat → Nat → Nat
  | 0, _ => 0
  | n + 1, a => (if s.isDevice a then 1 else 0) + fetchDraws s n (a + 1)

/-- The instruction at the pc, and the state after the draws of its bytes, in the order of R215: a
byte outside memory, a byte the program wrote, undefined bytes. -/
def fetchInstr (s : State) : Result (Instr × State) :=
  let w := fetchWindow s maxLength s.pc.toNat s.freeIndex
  match decode s.launch w.1 with
  | .ok i rest =>
    let used := w.1.length - rest.length
    if s.written.hits s.pc.toNat used then .refused (.fetchWritten s.pc)
    else .next (i, s.setFreeIndex (s.freeIndex + fetchDraws s used s.pc.toNat))
  | .reject why rest =>
    if s.written.hits s.pc.toNat (w.1.length - rest.length) then .refused (.fetchWritten s.pc)
    else .fault (.undefinedInstruction s.pc why (w.1.take (w.1.length - rest.length)))
  | .short =>
    match w.2 with
    | .stuck a => .fault (.stuck s.pc a)
    | .full => .fault (.undefinedInstruction s.pc .unknownOpcode w.1)

/-- Load bytes into memory from outside the machine: not a store of the program's (R62, R237). -/
def loadBytes : List Byte → Nat → Memory → Memory
  | [], _, m => m
  | b :: bs, a, m =>
    if a < Config.addressSpace then loadBytes bs (a + 1) (m.write a b) else m

/-- `s` with bytes loaded at the pc, running, and those bytes not counted as written. -/
def loadAtPc (bs : List Byte) (s : State) : State :=
  { s with
    mem := loadBytes bs s.pc.toNat s.mem
    written := s.written.filter fun k => decide (k < s.pc.toNat ∨ s.pc.toNat + bs.length ≤ k)
    halted := false }

end Sys2Proof.Machine
end

