-- ==== Sys2Proof/Machine/Step.lean ====
section
/-! DEFINITION. One step of the machine (60_exceptions.md R211, R215; 40_halt_nop.md R120; 70_reset_and_hazards.md R236). -/

namespace Sys2Proof.Machine

/-- One step.  A halted CPU executes nothing and changes nothing (R33, R120); otherwise the
instruction at the pc runs, in the state after the draws of its bytes (R57). -/
def step (s : State) : Host.Outcome State Fault Refusal :=
  if s.halted then .next s else andThen (fetchInstr s) fun p => exec p.1 p.2

/-- `s` with the instruction of a table word loaded at its pc. -/
def State.withFetchWord (s : State) (nbits w : Nat) : State := loadAtPc (tableBytes nbits w) s

end Sys2Proof.Machine
end

