-- ==== Sys2Proof/Safety.lean ====
section
/-! DEFINITION. The terms in which claims are stated: a sound state, the end of a run (70_reset_and_hazards.md R237), which
accesses complete (60_exceptions.md R212), and what an instruction leaves unchanged. -/

namespace Sys2Proof.Machine

/-- What every step keeps: memory, the written set and the control registers in canonical form, and
RFP<2> fixed to 0 (R29, R130, R131). -/
structure Sound (s : State) : Prop where
  mem_wf : s.mem.wf = true
  written_wf : s.written.wf = true
  cr_wf : s.cr.wf = true
  rfp_fixed : s.rfp.getLsbD 2 = false

/-- A state that some number of steps reaches from another. -/
inductive Reaches (s : State) : State → Prop where
  | refl : Reaches s s
  | step {t u : State} : Reaches s t → step t = .next u → Reaches s u

/-- The normal end of a run (R237 a). -/
def Finished (s : State) : Prop := s.halted = true

/-! ### Accesses -/

/-- Byte `i` of an access at `a` lies at `(a + i) mod 2^24` (R55). -/
def byteAddr (a : Addr) (i : Nat) : Nat := (a + BitVec.ofNat 24 i).toNat

/-- Every byte of an access is admitted memory or a device address (R212). -/
def Reachable (a : Addr) (n : Nat) (s : State) : Prop :=
  ∀ i < n, s.isDevice (byteAddr a i) = true ∨ s.isAdmitted (byteAddr a i) = true

/-- Every byte of an access is admitted memory and no device address. -/
def Plain (a : Addr) (n : Nat) (s : State) : Prop :=
  ∀ i < n, s.isDevice (byteAddr a i) = false ∧ s.isAdmitted (byteAddr a i) = true

/-- `v` is what memory holds at `a`, little-endian (R53), in every byte that is no device's. -/
def Holds (sz : Size) (a : Addr) (s : State) (v : BitVec sz.bits) : Prop :=
  ∀ i < sz.bytes, s.isDevice (byteAddr a i) = false → v.extractLsb' (8 * i) 8 = s.byteAt (byteAddr a i)

/-- From `s` to `t` memory changed by a store of `v` at `a` and by nothing else (R53, R55, R57): the
stored bytes that are no device's hold `v`, every other byte is as it was, and all the stored bytes,
a device's too (R237), count as written (R62). -/
structure Stores (sz : Size) (a : Addr) (v : BitVec sz.bits) (s t : State) : Prop where
  stored : ∀ i < sz.bytes, s.isDevice (byteAddr a i) = false →
    t.byteAt (byteAddr a i) = v.extractLsb' (8 * i) 8
  kept : ∀ b, (∀ i < sz.bytes, byteAddr a i = b → s.isDevice b = true) → t.byteAt b = s.byteAt b
  written : ∀ b, b ∈ t.written ↔ b ∈ s.written ∨ ∃ i < sz.bytes, byteAddr a i = b

/-! ### Frames -/

/-- Every byte of memory reads as before, and none counts as newly written. -/
structure SameMem (s t : State) : Prop where
  bytes : ∀ a, t.byteAt a = s.byteAt a
  written : t.written = s.written

/-- No general register changed, in any bank. -/
def SameRegs (s t : State) : Prop := ∀ p, t.get32 p = s.get32 p

/-- The control registers, RFP, the mask, `halted` and the launch arguments are as they were. -/
structure SameSystem (s t : State) : Prop where
  cr : t.cr = s.cr
  rfp : t.rfp = s.rfp
  iff : t.iff = s.iff
  halted : t.halted = s.halted
  launch : t.launch = s.launch

/-- From `s` to `t` the register of size `sz` at slot `x` took the value `v`; every other 32-bit
register, and every other bit of this one, is as it was (R23). -/
structure SetsReg (sz : Size) (x : Slot) (v : BitVec sz.bits) (s t : State) : Prop where
  value : readSlot sz x t = v
  bits : ∀ i < 32, i < x.off ∨ x.off + sz.bits ≤ i →
    (t.get32 x.reg).getLsbD i = (s.get32 x.reg).getLsbD i
  regs : ∀ p, p ≠ x.reg → t.get32 p = s.get32 p

/-- The next instruction is the one after this (R11). -/
def FallsThrough (i : Instr) (s t : State) : Prop := t.pc.toNat = s.pc.toNat + i.len

/-- `next` fits in 24 bits (R28, D4). -/
def NextFits (i : Instr) (s : State) : Prop := s.pc.toNat + i.len < Config.addressSpace

/-- Instruction `i` set the register at slot `x`, no byte of memory and no system register, and the
next instruction is the one after it. -/
structure WritesReg (i : Instr) (sz : Size) (x : Slot) (v : BitVec sz.bits) (s t : State) : Prop where
  reg : SetsReg sz x v s t
  mem : SameMem s t
  system : SameSystem s t
  next : FallsThrough i s t

/-- Instruction `i` stored `v` at `a` and nothing else in memory, no system register changed, and
the next instruction is the one after it. -/
structure WritesMem (i : Instr) (sz : Size) (a : Addr) (v : BitVec sz.bits) (s t : State) : Prop where
  mem : Stores sz a v s t
  system : SameSystem s t
  next : FallsThrough i s t

/-- The registers of `t` are those of `s` after the pointer update of `m`, if `m` has one (R85). -/
def RegsAfterEa (m : Mem) (s t : State) : Prop := SameRegs (eaUpdate m s) t

/-- XBC of the current bank. -/
def countReg (s : State) : PReg := .bank s.curBank .xbc

/-- From `s` to `t` both pointers of a block load moved by `n` steps of `d`, BC went down by `n`,
and no other bit of a register changed (R174). -/
structure PointersMoved (dst src : PReg) (d : Long) (n : Nat) (s t : State) : Prop where
  dst_moved : t.get32 dst = s.get32 dst + d * BitVec.ofNat 32 n
  src_moved : t.get32 src = s.get32 src + d * BitVec.ofNat 32 n
  count : (t.get32 (countReg s)).setWidth 16 = (s.get32 (countReg s)).setWidth 16 - BitVec.ofNat 16 n
  upper : (t.get32 (countReg s)).extractLsb' 16 16 = (s.get32 (countReg s)).extractLsb' 16 16
  regs : ∀ p, p ≠ dst → p ≠ src → p ≠ countReg s → t.get32 p = s.get32 p

/-! ### Fetching -/

/-- The bytes `bs` are what a fetch finds from address `a` on: what memory holds, and at a device
address the next draw (R57, D17). -/
def BytesAt (s : State) (a : Nat) (bs : List Byte) : Prop :=
  ∀ k, (h : k < bs.length) →
    bs[k] = if s.isDevice (a + k) then Config.freeByte (s.freeIndex + fetchDraws s k a)
      else s.byteAt (a + k)

/-- The `n` addresses from `a` on are admitted memory or devices (R212). -/
def Fetchable (s : State) (a n : Nat) : Prop :=
  a + n ≤ Config.addressSpace ∧ ∀ k < n, s.isDevice (a + k) = true ∨ s.isAdmitted (a + k) = true

/-- The program wrote none of the `n` addresses from `a` on (R62). -/
def Unwritten (s : State) (a n : Nat) : Prop := ∀ k < n, a + k ∉ s.written

/-! ### What the instructions may write, by constructor -/

/-- The flags an instruction writes (R31). -/
def flagsWritten : Instr → Flags
  | .incReg sz _ _ => if sz = .byte then ⟨true, true, true, true, true, false⟩ else Flags.zero
  | .incMem _ _ _ => ⟨true, true, true, true, true, false⟩
  | .neg _ _ => ⟨true, true, true, true, true, true⟩
  | .ldcfImmReg _ _ _ => ⟨false, false, false, false, false, true⟩
  | .ldcfAReg _ _ => ⟨false, false, false, false, false, true⟩
  | .ldcfImmMem _ _ => ⟨false, false, false, false, false, true⟩
  | .ldcfAMem _ => ⟨false, false, false, false, false, true⟩
  | .ldiDeHl _ => ⟨false, false, true, true, true, false⟩
  | .ldiIxIy _ => ⟨false, false, true, true, true, false⟩
  | .lddDeHl _ => ⟨false, false, true, true, true, false⟩
  | .lddIxIy _ => ⟨false, false, true, true, true, false⟩
  | .ldirDeHl _ => ⟨false, false, true, true, true, false⟩
  | .ldirIxIy _ => ⟨false, false, true, true, true, false⟩
  | .lddrDeHl _ => ⟨false, false, true, true, true, false⟩
  | .lddrIxIy _ => ⟨false, false, true, true, true, false⟩
  | .mula _ => ⟨true, true, false, true, false, false⟩
  | _ => Flags.zero

/-- The instructions that write memory (R52). -/
def writesMemory : Instr → Bool
  | .incMem _ _ _ => true
  | .ldMemCode _ _ _ => true
  | .ldAbs8Imm _ _ _ => true
  | .ldMemImm _ _ _ => true
  | .ldAbs16Mem _ _ _ => true
  | .ldMemAbs16 _ _ _ => true
  | .ldiDeHl _ => true
  | .ldiIxIy _ => true
  | .ldirDeHl _ => true
  | .ldirIxIy _ => true
  | .lddDeHl _ => true
  | .lddIxIy _ => true
  | .lddrDeHl _ => true
  | .lddrIxIy _ => true
  | .ldx _ _ => true
  | .link _ _ => true
  | _ => false

/-- The jumps (R135 to R139). -/
def isJump : Instr → Bool
  | .jpAbs16 _ => true
  | .jpAbs24 _ => true
  | .jpMem _ _ => true
  | .jr _ _ => true
  | .jrl _ _ => true
  | _ => false

end Sys2Proof.Machine
end

