-- ==== Sys2Proof/Certificates/Slice0/Obligations.lean ====
section
/-! DEFINITION. The statements for the provers. -/

open Sys2Proof Sys2Proof.Machine

/-! ### Encoding -/

/-- R94, R104: the decoder reads back every well-formed instruction that the launch admits. Rests
on GK9 for the rows graded damaged, lost or suspect (log 1, log 2). -/
def Obligations.DecodeEncodeRoundTrip : Prop :=
  ∀ (l : Launch) (i : Instr) (rest : List Byte), i.wf = true → l.admits i.grade = true →
    decode l (encode i ++ rest) = .ok i rest

/-- R94, R95, R104: bytes that decode are the encoding of what they decode to, but for the three
filler bytes of LDX. Rests on log 23. -/
def Obligations.DecodedBytesAreTheEncoding : Prop :=
  ∀ (l : Launch) (bs : List Byte) (i : Instr) (rest : List Byte), decode l bs = .ok i rest →
    bs = encode i ++ rest ∨
      ∃ a v x y z, i = .ldx a v ∧ bs = [0xF7#8, x, a, y, v, z] ++ rest

/-- R70, R79, R85, R96, R202: the decoder makes only well-formed instructions that the launch
admits. Rests on D19, U6, U7 (log 1, log 22). -/
def Obligations.DecodedIsWellFormedAndAdmitted : Prop :=
  ∀ (l : Launch) (bs : List Byte) (i : Instr) (rest : List Byte), decode l bs = .ok i rest →
    i.wf = true ∧ l.admits i.grade = true

/-- R71, R73: an instruction takes `len` bytes, 1 to 7 of them, and seven bytes always decide.
Rests on the longest form of R104. -/
def Obligations.DecodedLength : Prop :=
  (∀ (l : Launch) (bs : List Byte) (i : Instr) (rest : List Byte), decode l bs = .ok i rest →
    bs.length = i.len + rest.length ∧ 1 ≤ i.len ∧ i.len ≤ 7) ∧
  ∀ (l : Launch) (bs : List Byte), 7 ≤ bs.length → decode l bs ≠ .short

/-- Words written out from the spec's own examples and R104. Rests on the derived bytes of
95_test_vectors.md. -/
def Obligations.SpecWordsDecode : Prop :=
  decode defaultLaunch [0x68#8, 0x76#8] = .ok (.jr .t 0x76#8) [] ∧
  decode defaultLaunch [0xF3#8, 0x13#8, 0x41#8, 0x13#8, 0x34#8] = .ok (.ldar .long 4#3 0x1341#16) [] ∧
  decode defaultLaunch [0xD8#8, 0x65#8] = .ok (.incReg .word 5#3 (.short 0#3)) [] ∧
  decode defaultLaunch [0xDD#8, 0x44#8] = .ok (.mulReg .word 4#3 (.short 5#3)) [] ∧
  decode defaultLaunch [0xC7#8, 0xF0#8, 0x08#8, 0x05#8] = .ok (.mulImm .byte (.ext ⟨.xix, 0#2⟩) 5#8) [] ∧
  decode defaultLaunch [0xEE#8, 0x0C#8, 0xC0#8, 0xFF#8] = .ok (.link (.short 6#3) 0xFFC0#16) [] ∧
  decode defaultLaunch [0xDC#8, 0x3D#8, 0x06#8, 0x00#8] = .ok (.mdec2 6#16 (.short 4#3)) [] ∧
  decode defaultLaunch [0x85#8, 0x12#8] = .ok (.lddIxIy .byte) [] ∧
  decode defaultLaunch [0x44#8, 0x56#8, 0x34#8, 0x12#8, 0x00#8] =
    .ok (.ldCodeImm .long 4#3 0x00123456#32) [] ∧
  decode defaultLaunch [0xF7#8, 0xFF#8, 0x6A#8, 0x55#8, 0x17#8, 0xAA#8] = .ok (.ldx 0x6A#8 0x17#8) []

/-- R70: rows graded clean or recovered decode under every launch, damaged and lost ones with
`GK_ENCODINGS` only, the suspect one with an argument of its own whatever `GK_ENCODINGS` is, and
the launch defaults of R6 admit clean and recovered only; the bytes of a row that the launch does
not admit are rejected for that reason. Rests on D19 (log 1, log 2). -/
def Obligations.GradesGateDecoding : Prop :=
  (∀ (l : Launch) (i : Instr) (rest : List Byte), i.wf = true → l.admits i.grade = false →
    decode l (encode i ++ rest) = .reject .gradeRefused rest) ∧
  (∀ l : Launch, l.admits .clean = true ∧ l.admits .recovered = true ∧
    l.admits .damaged = l.gkEncodings ∧ l.admits .lost = l.gkEncodings ∧
    l.admits .suspect = l.suspectEncodings) ∧
  defaultLaunch.gkEncodings = false ∧ defaultLaunch.suspectEncodings = false

/-- R71, R72, R90, R96: a first byte that no row of R104 has is rejected, whatever follows. Rests
on GK7, by which R72 tells x6H and F8H to FFH apart, and R94, which the spec marks as derived (log
26, log 29). -/
def Obligations.UnusedFirstBytesRejected : Prop :=
  ∀ (l : Launch) (b : Byte) (rest : List Byte),
    ¬ (b ∈ [0x00#8, 0x05#8, 0x08#8, 0x0A#8, 0x0C#8, 0x17#8, 0x1A#8, 0x1B#8] ∨
      (0x20#8 ≤ b ∧ b ≤ 0x27#8) ∨ (0x30#8 ≤ b ∧ b ≤ 0x37#8) ∨ (0x40#8 ≤ b ∧ b ≤ 0x47#8) ∨
      (0x60#8 ≤ b ∧ b ≤ 0xBF#8) ∨ (0xC0#8 ≤ b ∧ b ≤ 0xF7#8 ∧ b.toNat % 16 ≠ 6)) →
    ∃ why, decode l (b :: rest) = .reject why rest

/-! ### Steps -/

/-- R57, R94, R211, R215: when the bytes at the pc, a device byte being a draw, are an admitted
instruction that the program did not write, a step is that instruction's meaning in the state
after the draws, and in the state itself when no byte is a device's. Rests on D13, D17, D22 (log
13, log 14, log 21). -/
def Obligations.StepRunsDecodedInstruction : Prop :=
  ∀ (s : State) (i : Instr) (bs : List Byte), s.halted = false → decode s.launch bs = .ok i [] →
    BytesAt s s.pc.toNat bs → Fetchable s s.pc.toNat bs.length → Unwritten s s.pc.toNat bs.length →
    step s = exec i { s with freeIndex := s.freeIndex + fetchDraws s bs.length s.pc.toNat } ∧
    ((∀ k < bs.length, s.isDevice (s.pc.toNat + k) = false) → step s = exec i s)

/-- R62: fetching a byte that the program wrote is refused, for an instruction and for undefined
bytes. Rests on D13 (log 14). -/
def Obligations.FetchOfWrittenByteRefused : Prop :=
  ∀ (s : State) (bs : List Byte) (k : Nat), s.halted = false →
    ((∃ i, decode s.launch bs = .ok i []) ∨ ∃ why, decode s.launch bs = .reject why []) →
    BytesAt s s.pc.toNat bs → Fetchable s s.pc.toNat bs.length →
    k < bs.length → s.pc.toNat + k ∈ s.written →
    step s = .refused (.fetchWritten s.pc)

/-- R212, R215: when the bytes at the pc end before the instruction does, at an address above
FFFFFFH or outside the admitted regions and the devices, the fetch is Stuck there. Rests on D4,
D22 (log 10, log 21). -/
def Obligations.FetchOutsideMemoryStops : Prop :=
  ∀ (s : State) (bs : List Byte), s.halted = false → decode s.launch bs = .short →
    BytesAt s s.pc.toNat bs → Fetchable s s.pc.toNat bs.length →
    (Config.addressSpace ≤ s.pc.toNat + bs.length ∨
      (s.isDevice (s.pc.toNat + bs.length) = false ∧
        s.isAdmitted (s.pc.toNat + bs.length) = false)) →
    step s = .fault (.stuck s.pc (s.pc.toNat + bs.length))

/-- R96, R211: bytes that are no admitted instruction are UndefinedInstruction, with the pc and
the bytes examined. Rests on log 21. -/
def Obligations.UndefinedBytesFault : Prop :=
  ∀ (s : State) (bs : List Byte) (why : DecodeError), s.halted = false →
    decode s.launch bs = .reject why [] → BytesAt s s.pc.toNat bs →
    Fetchable s s.pc.toNat bs.length → Unwritten s s.pc.toNat bs.length →
    step s = .fault (.undefinedInstruction s.pc why bs)

/-! ### Invariants and whole-machine rules -/

/-- Every step keeps memory, the written set and the control registers canonical and RFP<2> fixed
to 0. Rests on the canonical form, which is the model's own (log 5, log 14). -/
def Obligations.StepKeepsSound : Prop :=
  ∀ s t : State, Sound s → step s = .next t → Sound t

/-- The state after reset is sound, for every launch and every canonical memory. Rests on the
model's reset values (log 5, log 6, log 7). -/
def Obligations.ResetIsSound : Prop :=
  Sound State.reset ∧ ∀ (l : Launch) (m : Memory), m.wf = true → Sound (State.resetFrom l m)

/-- R213, R237: no step changes the launch arguments or the interrupt mask. Rests on D15 (log 19). -/
def Obligations.StepKeepsLaunchAndMask : Prop :=
  ∀ s t : State, step s = .next t → t.launch = s.launch ∧ t.iff = s.iff

/-- R29, R32, R33: RFP is moved by INCF and LDF only, a control register is written by LDC cr,r
only, and HALT alone halts. Rests on the operation lines of all pages taken together. -/
def Obligations.SystemStateWriters : Prop :=
  ∀ (i : Instr) (s t : State), exec i s = .next t →
    (t.rfp ≠ s.rfp → i = .incf ∨ ∃ n, i = .ldf n) ∧
    (t.cr ≠ s.cr → ∃ sz cr r, i = .ldcToCr sz cr r) ∧
    (t.halted ≠ s.halted → i = .halt)

/-- R31: an instruction writes no flag but those of its row in the table. Rests on R31, marked
derived, and GK18 (log 24). -/
def Obligations.OnlyTableFlagsChange : Prop :=
  ∀ (i : Instr) (s t : State), exec i s = .next t →
    ((flagsWritten i).s = false → t.flags.s = s.flags.s) ∧
    ((flagsWritten i).z = false → t.flags.z = s.flags.z) ∧
    ((flagsWritten i).h = false → t.flags.h = s.flags.h) ∧
    ((flagsWritten i).v = false → t.flags.v = s.flags.v) ∧
    ((flagsWritten i).n = false → t.flags.n = s.flags.n) ∧
    ((flagsWritten i).c = false → t.flags.c = s.flags.c)

/-- R52: an instruction that is not in the list of memory writers leaves every byte of memory as
it was. Rests on R52, marked derived. -/
def Obligations.OnlyListedInstructionsWriteMemory : Prop :=
  ∀ (i : Instr) (s t : State), writesMemory i = false → exec i s = .next t → SameMem s t

/-- R28: every instruction that completes, a taken jump too, has a `next` that fits in 24 bits;
one that is no jump ends there; NOP at FFFFFFH is refused. Rests on D4 (log 10). -/
def Obligations.NonJumpsFallThrough : Prop :=
  (∀ (i : Instr) (s t : State), exec i s = .next t →
    NextFits i s ∧ (isJump i = false → FallsThrough i s t)) ∧
  ∀ s : State, s.pc = 0xFFFFFF#24 → exec .nop s = .refused (.nextOutside s.pc)

/-- R212: the only fault of an instruction's meaning is Stuck, at an address outside the admitted
regions and the devices, with its own pc. R211 and R226 also give UninitialisedRead to any
instruction; that it never arises is the model's DESIGN CHOICE (log 8), which gives every register
a value. Rests on D22 (log 4) and on the model's choice of log 8. -/
def Obligations.InstructionFaultsAreStuck : Prop :=
  ∀ (i : Instr) (s : State) (e : Fault), exec i s = .fault e →
    ∃ a, e = .stuck s.pc a ∧ s.isDevice a = false ∧ s.isAdmitted a = false

/-! ### Memory accesses -/

/-- R53, R55: a read of what a store put there gives the value back, and each byte read alone is
the byte of the value that little-endian order puts there. Rests on D1, D2, D3 (log 11). -/
def Obligations.ReadAfterWrite : Prop :=
  ∀ (sz : Size) (a : Addr) (v : BitVec sz.bits) (s : State), Plain a sz.bytes s →
    ∃ t, writeMem sz a v s = .next t ∧ readMem sz a t = .next (v, t) ∧
      ∀ i < sz.bytes, readMem .byte (a + BitVec.ofNat 24 i) t = .next (v.extractLsb' (8 * i) 8, t)

/-- R212: a data access is Stuck at its first byte outside the admitted regions and the devices.
Rests on D22 (log 4). -/
def Obligations.UnadmittedAccessIsStuck : Prop :=
  ∀ (sz : Size) (a : Addr) (v : BitVec sz.bits) (s : State) (k : Nat), k < sz.bytes →
    Reachable a k s → s.isDevice (byteAddr a k) = false → s.isAdmitted (byteAddr a k) = false →
    readMem sz a s = .fault (.stuck s.pc (byteAddr a k)) ∧
    writeMem sz a v s = .fault (.stuck s.pc (byteAddr a k))

/-- R57, R62, R237: a read of a device byte completes and changes no state of the spec, and a
write to one changes nothing but the set of written addresses, which gains that byte. Rests on
D13, D17 (log 13, log 14). -/
def Obligations.DeviceAccess : Prop :=
  ∀ (a : Addr) (v : BitVec 8) (s : State), s.isDevice a.toNat = true →
    (∃ b t, readMem .byte a s = .next (b, t) ∧ SameRegs s t ∧ SameMem s t ∧ SameSystem s t ∧
      t.flags = s.flags ∧ t.pc = s.pc) ∧
    writeMem .byte a v s = .next { s with written := s.written.mark a.toNat }

/-! ### Registers and operands -/

/-- R20, R21, R22, R24, R38, R79: which bits of the state each register code names. Rests on GK2,
GK3, GK4 (log 29). -/
def Obligations.RegisterNames : Prop :=
  ∀ s : State,
    (∀ row ∈ [(0#3, (s.banks[s.curBank.val]).xwa), (1#3, (s.banks[s.curBank.val]).xbc),
        (2#3, (s.banks[s.curBank.val]).xde), (3#3, (s.banks[s.curBank.val]).xhl), (4#3, s.xix),
        (5#3, s.xiy), (6#3, s.xiz), (7#3, s.xsp)],
      readSlot .long (slotOf .long (.short row.1) s) s = row.2 ∧
      readSlot .word (slotOf .word (.short row.1) s) s = row.2.extractLsb' 0 16) ∧
    (∀ row ∈ [(0#3, (s.banks[s.curBank.val]).xwa, 8), (1#3, (s.banks[s.curBank.val]).xwa, 0),
        (2#3, (s.banks[s.curBank.val]).xbc, 8), (3#3, (s.banks[s.curBank.val]).xbc, 0),
        (4#3, (s.banks[s.curBank.val]).xde, 8), (5#3, (s.banks[s.curBank.val]).xde, 0),
        (6#3, (s.banks[s.curBank.val]).xhl, 8), (7#3, (s.banks[s.curBank.val]).xhl, 0)],
      readSlot .byte (slotOf .byte (.short row.1) s) s = row.2.1.extractLsb' row.2.2 8) ∧
    s.curBank.val = s.rfp.toNat % 4 ∧
    ∀ r : BankReg,
      ∀ row ∈ [(R32Sel.xix, s.xix), (.xiy, s.xiy), (.xiz, s.xiz), (.xsp, s.xsp),
        (.current r, (s.banks[s.curBank.val]).get r),
        (.previous r, (s.banks[(s.rfp.toNat + 3) % 4]'(Nat.mod_lt _ (by decide))).get r),
        (.bank 0 r, s.banks[0].get r), (.bank 1 r, s.banks[1].get r), (.bank 2 r, s.banks[2].get r),
        (.bank 3 r, s.banks[3].get r)],
      readSlot .long (slotOf .long (.ext ⟨row.1, 0#2⟩) s) s = row.2 ∧
      readSlot .word (slotOf .word (.ext ⟨row.1, 0#2⟩) s) s = row.2.extractLsb' 0 16 ∧
      readSlot .word (slotOf .word (.ext ⟨row.1, 2#2⟩) s) s = row.2.extractLsb' 16 16 ∧
      ∀ part : BitVec 2,
        readSlot .byte (slotOf .byte (.ext ⟨row.1, part⟩) s) s = row.2.extractLsb' (8 * part.toNat) 8

/-- R85, R86: the effective address of every mode, and the pointer that two of them move. Rests on
GK7 and log 17. -/
def Obligations.EffectiveAddresses : Prop :=
  ∀ s : State,
    (∀ r, eaAddr (.ind r) s = readSlot .long (codeSlot .long r s) s) ∧
    (∀ r d, (eaAddr (.indD8 r d) s).toInt =
      ((readSlot .long (codeSlot .long r s) s).toInt + d.toInt).bmod (2 ^ 32)) ∧
    (∀ a, (eaAddr (.abs8 a) s).toNat = a.toNat) ∧
    (∀ a, (eaAddr (.abs16 a) s).toNat = a.toNat) ∧
    (∀ a, (eaAddr (.abs24 a) s).toNat = a.toNat) ∧
    (∀ r, eaAddr (.extInd r) s = s.get32 (selReg r s)) ∧
    (∀ r d, (eaAddr (.extD16 r d) s).toInt =
      ((s.get32 (selReg r s)).toInt + d.toInt).bmod (2 ^ 32)) ∧
    (∀ r x, (eaAddr (.idx8 r x) s).toInt =
      ((s.get32 (selReg r s)).toInt + (readSlot .byte (extSlot x s) s).toInt).bmod (2 ^ 32)) ∧
    (∀ r x, (eaAddr (.idx16 r x) s).toInt =
      ((s.get32 (selReg r s)).toInt + (readSlot .word (extSlot x s) s).toInt).bmod (2 ^ 32)) ∧
    (∀ row ∈ [(AutoStep.one, 1#32), (.two, 2#32), (.four, 4#32)], ∀ r,
      eaAddr (.preDec r row.1) s = s.get32 (selReg r s) - row.2 ∧
      SetsReg .long ⟨selReg r s, 0⟩ (s.get32 (selReg r s) - row.2) s (eaUpdate (.preDec r row.1) s) ∧
      eaAddr (.postInc r row.1) s = s.get32 (selReg r s) ∧
      SetsReg .long ⟨selReg r s, 0⟩ (s.get32 (selReg r s) + row.2) s (eaUpdate (.postInc r row.1) s)) ∧
    ∀ m, autoReg m s = none → eaUpdate m s = s

/-! ### Reset -/

/-- R35, R36: at reset the pc takes the low three bytes stored at the reset vector, and the CPU is
not halted. Rests on D11 (log 9) and, where IO_REGION covers the vector, the model's choice of log
31. -/
def Obligations.ResetStart : Prop :=
  ∀ (l : Launch) (m : Memory),
    (State.resetFrom l m).pc = m.read 0xFFFF02 ++ m.read 0xFFFF01 ++ m.read 0xFFFF00 ∧
    (State.resetFrom l m).halted = false ∧ (State.resetFrom l m).mem = m

/-- The model's choices at reset (log 6, log 7), where R36 gives no value. -/
def Obligations.ResetModelValues : Prop :=
  (∀ p, p ≠ .xsp → State.reset.get32 p = 0) ∧ State.reset.xsp = 0x100#32 ∧ State.reset.rfp = 0#3 ∧
    State.reset.iff = 7#3 ∧ State.reset.flags = ⟨false, false, false, false, false, false⟩ ∧
    (∀ n, State.reset.cr.get n = 0) ∧ State.reset.mem = [] ∧ State.reset.written = []

/-! ### Control -/

/-- R121: the byte 00H is NOP, which moves to the next instruction and changes nothing else. -/
def Obligations.NopResult : Prop :=
  (∀ (l : Launch) (rest : List Byte), decode l (0x00#8 :: rest) = .ok .nop rest) ∧
  ∀ s : State, s.pc.toNat + 1 < 0x1000000 → exec .nop s = .next { s with pc := s.pc + 1#24 }

/-- R33, R120: the byte 05H is HALT, which moves the pc to the next instruction, sets `halted`,
and changes nothing else; a halted CPU executes nothing and changes nothing. Rests on D10 for the
pc, and log 15. -/
def Obligations.HaltResult : Prop :=
  (∀ (l : Launch) (rest : List Byte), decode l (0x05#8 :: rest) = .ok .halt rest) ∧
  ∀ s : State,
    (s.pc.toNat + 1 < 0x1000000 →
      exec .halt s = .next { s with pc := s.pc + 1#24, halted := true }) ∧
    (s.halted = true → step s = .next s)

/-- R29, R130, R131: INCF adds 1 to RFP modulo 4 with bit 2 at 0, LDF loads RFP with 0 to 3, and
neither changes anything else; LDF with 4 to 7 is refused (U4). Rests on the wrap that R130 marks
as derived, U4, and the place of its refusal before D4 (log 30). -/
def Obligations.RegisterFilePointerResult : Prop :=
  (∀ s : State, s.pc.toNat + 1 < 0x1000000 →
    ∃ f : BitVec 3, exec .incf s = .next { s with pc := s.pc + 1#24, rfp := f } ∧
      f.toNat = (s.rfp.toNat + 1) % 4) ∧
  ∀ (num : BitVec 3) (s : State),
    (num.toNat ≤ 3 → s.pc.toNat + 2 < 0x1000000 →
      exec (.ldf num) s = .next { s with pc := s.pc + 2#24, rfp := num }) ∧
    (4 ≤ num.toNat → exec (.ldf num) s = .refused (.ldfNumber s.pc))

/-! ### Increment and negate -/

/-- R81, R125, R127: INC #3,r. Rests on D7 (log 29) for the rest of the register and the reading
of V that R127 marks as derived. -/
def Obligations.IncRegisterResult : Prop :=
  ∀ (sz : Size) (num : BitVec 3) (r : RegOp) (s : State), (Instr.incReg sz num r).wf = true →
    NextFits (.incReg sz num r) s →
    ∀ k : Nat, k = (if num.toNat = 0 then 8 else num.toNat) →
    ∀ a res : BitVec sz.bits, a = readSlot sz (slotOf sz r s) s → res = a + BitVec.ofNat sz.bits k →
    ∃ t, exec (.incReg sz num r) s = .next t ∧
      WritesReg (.incReg sz num r) sz (slotOf sz r s) res s t ∧
      (sz ≠ .byte → t.flags = s.flags) ∧
      (sz = .byte →
        t.flags = { s.flags with s := res.msb, z := decide (res = 0), h := decide (15 < a.toNat % 16 + k),
                                 v := (!a.msb && res.msb), n := false })

/-- R126, R127: INC<W> #3,(mem), flags for both sizes. Rests on the word-size flags that R126 and
the reading of V that R127 mark as derived, and D1, D13, D17 (log 11, log 13, log 14). -/
def Obligations.IncMemoryResult : Prop :=
  ∀ (z : BW) (num : BitVec 3) (m : Mem) (s : State), (Instr.incMem z num m).wf = true →
    NextFits (.incMem z num m) s → Reachable (memAddr m s) z.size.bytes s →
    ∀ k : Nat, k = (if num.toNat = 0 then 8 else num.toNat) →
    ∃ t, ∃ a res : BitVec z.size.bits, exec (.incMem z num m) s = .next t ∧
      Holds z.size (memAddr m s) s a ∧ res = a + BitVec.ofNat z.size.bits k ∧
      WritesMem (.incMem z num m) z.size (memAddr m s) res s t ∧ RegsAfterEa m s t ∧
      t.flags = { s.flags with s := res.msb, z := decide (res = 0), h := decide (15 < a.toNat % 16 + k),
                               v := (!a.msb && res.msb), n := false }

/-- R128: NEG r, all six flags. Rests on the H, V and C formulas that R128 marks as derived. -/
def Obligations.NegResult : Prop :=
  ∀ (z : BW) (r : RegOp) (s : State), (Instr.neg z r).wf = true → NextFits (.neg z r) s →
    ∀ a res : BitVec z.size.bits, a = readSlot z.size (slotOf z.size r s) s → res = -a →
    ∃ t, exec (.neg z r) s = .next t ∧ WritesReg (.neg z r) z.size (slotOf z.size r s) res s t ∧
      t.flags = { s := res.msb, z := decide (res = 0), h := decide (a.toNat % 16 ≠ 0),
                  v := decide (a.toNat = 2 ^ (z.size.bits - 1)), n := true, c := decide (a ≠ 0) }

/-! ### Jumps -/

/-- R28, R135, R136, R226: the bytes of the absolute jumps, which write the pc and nothing else;
they are refused when their own `next` is beyond FFFFFFH. Rests on the recovered bytes of rows 5
and 6, the inferences of R135, and D4 (log 10). -/
def Obligations.JumpAbsoluteResult : Prop :=
  (∀ (l : Launch) (lo hi : Byte) (rest : List Byte),
    decode l (0x1A#8 :: lo :: hi :: rest) = .ok (.jpAbs16 (hi ++ lo)) rest) ∧
  (∀ (l : Launch) (lo mid hi : Byte) (rest : List Byte),
    decode l (0x1B#8 :: lo :: mid :: hi :: rest) = .ok (.jpAbs24 (hi ++ mid ++ lo)) rest) ∧
  ∀ s : State,
    (∀ a : BitVec 16,
      (s.pc.toNat + 3 < 0x1000000 → exec (.jpAbs16 a) s = .next { s with pc := a.setWidth 24 }) ∧
      (0x1000000 ≤ s.pc.toNat + 3 → exec (.jpAbs16 a) s = .refused (.nextOutside s.pc))) ∧
    ∀ a : BitVec 24,
      (s.pc.toNat + 4 < 0x1000000 → exec (.jpAbs24 a) s = .next { s with pc := a }) ∧
      (0x1000000 ≤ s.pc.toNat + 4 → exec (.jpAbs24 a) s = .refused (.nextOutside s.pc))

/-- R86, R137: JP [cc,] mem, in every case. Rests on D4 and U9 (log 10, log 16, log 30). -/
def Obligations.JumpMemoryResult : Prop :=
  ∀ (cc : Cond) (m : Mem) (s : State),
    (autoReg m s ≠ none → exec (.jpMem cc m) s = .refused (.autoUpdateAddress s.pc)) ∧
    (autoReg m s = none → 0x1000000 ≤ s.pc.toNat + (2 + m.extLen) →
      exec (.jpMem cc m) s = .refused (.nextOutside s.pc)) ∧
    (autoReg m s = none → s.pc.toNat + (2 + m.extLen) < 0x1000000 →
      (condHolds cc s.flags = true → (eaAddr m s).toNat < 0x1000000 →
        exec (.jpMem cc m) s = .next { s with pc := (eaAddr m s).setWidth 24 }) ∧
      (condHolds cc s.flags = true → 0x1000000 ≤ (eaAddr m s).toNat →
        exec (.jpMem cc m) s = .refused (.targetOutside s.pc)) ∧
      (condHolds cc s.flags = false →
        exec (.jpMem cc m) s = .next { s with pc := s.pc + BitVec.ofNat 24 (2 + m.extLen) }))

/-- R138, R139: JR [cc,] $+2+d8 and JRL [cc,] $+3+d16, in every case. Rests on GK14, GK18 and D4
(log 10, log 24, log 29, log 30). -/
def Obligations.JumpRelativeResult : Prop :=
  (∀ (cc : Cond) (d : BitVec 8) (s : State) (target : Int), target = s.pc.toNat + 2 + d.toInt →
    (0x1000000 ≤ s.pc.toNat + 2 → exec (.jr cc d) s = .refused (.nextOutside s.pc)) ∧
    (s.pc.toNat + 2 < 0x1000000 →
      (condHolds cc s.flags = true → 0 ≤ target → target < 0x1000000 →
        ∃ a : Addr, exec (.jr cc d) s = .next { s with pc := a } ∧ (a.toNat : Int) = target) ∧
      (condHolds cc s.flags = true → target < 0 ∨ 0x1000000 ≤ target →
        exec (.jr cc d) s = .refused (.targetOutside s.pc)) ∧
      (condHolds cc s.flags = false → exec (.jr cc d) s = .next { s with pc := s.pc + 2#24 }))) ∧
  ∀ (cc : Cond) (d : BitVec 16) (s : State) (target : Int), target = s.pc.toNat + 3 + d.toInt →
    (0x1000000 ≤ s.pc.toNat + 3 → exec (.jrl cc d) s = .refused (.nextOutside s.pc)) ∧
    (s.pc.toNat + 3 < 0x1000000 →
      (condHolds cc s.flags = true → 0 ≤ target → target < 0x1000000 →
        ∃ a : Addr, exec (.jrl cc d) s = .next { s with pc := a } ∧ (a.toNat : Int) = target) ∧
      (condHolds cc s.flags = true → target < 0 ∨ 0x1000000 ≤ target →
        exec (.jrl cc d) s = .refused (.targetOutside s.pc)) ∧
      (condHolds cc s.flags = false → exec (.jrl cc d) s = .next { s with pc := s.pc + 3#24 }))

/-! ### Coded operands -/

/-- R81: the 3-bit field of INC holds the increment, 1 to 7 as itself and 8 as 0.  `incAmount` is
what both forms of INC read the field with. -/
def Obligations.IncrementField : Prop :=
  ∀ row ∈ [(1#3, 1), (2#3, 2), (3#3, 3), (4#3, 4), (5#3, 5), (6#3, 6), (7#3, 7), (0#3, 8)],
    incAmount row.1 = row.2

/-- R89: the sixteen condition codes. Rests on GK8 (log 29). -/
def Obligations.ConditionTable : Prop :=
  ∀ f : Flags,
    ∀ row ∈ [(0#4, false), (1#4, f.s ^^ f.v), (2#4, (f.s ^^ f.v) || f.z), (3#4, f.c || f.z),
        (4#4, f.v), (5#4, f.s), (6#4, f.z), (7#4, f.c), (8#4, true), (9#4, !(f.s ^^ f.v)),
        (10#4, !((f.s ^^ f.v) || f.z)), (11#4, !(f.c || f.z)), (12#4, !f.v), (13#4, !f.s),
        (14#4, !f.z), (15#4, !f.c)],
      condHolds (condOfCode row.1) f = row.2

/-! ### Loads -/

/-- R145, R146, R156: LD R,r and LD r,R. Rests on GK18 for the flag S (log 24) and GK20 for LD R,r
at Long word size (log 29). -/
def Obligations.LoadRegisterResult : Prop :=
  ∀ (sz : Size) (c : BitVec 3) (r : RegOp) (s : State),
    ((Instr.ldCodeFromReg sz c r).wf = true → NextFits (.ldCodeFromReg sz c r) s →
      ∃ t, exec (.ldCodeFromReg sz c r) s = .next t ∧ t.flags = s.flags ∧
        WritesReg (.ldCodeFromReg sz c r) sz (codeSlot sz c s) (readSlot sz (slotOf sz r s) s) s t) ∧
    ((Instr.ldRegFromCode sz r c).wf = true → NextFits (.ldRegFromCode sz r c) s →
      ∃ t, exec (.ldRegFromCode sz r c) s = .next t ∧ t.flags = s.flags ∧
        WritesReg (.ldRegFromCode sz r c) sz (slotOf sz r s) (readSlot sz (codeSlot sz c s) s) s t)

/-- R147, R148, R149, R156: LD r,#3, LD R,# and LD r,#. Rests on GK6, GK18 (log 24, log 29). -/
def Obligations.LoadImmediateResult : Prop :=
  ∀ (sz : Size) (s : State),
    (∀ (r : RegOp) (v : BitVec 3), (Instr.ldRegImm3 sz r v).wf = true →
      NextFits (.ldRegImm3 sz r v) s →
      ∃ t, exec (.ldRegImm3 sz r v) s = .next t ∧ t.flags = s.flags ∧
        WritesReg (.ldRegImm3 sz r v) sz (slotOf sz r s) (BitVec.ofNat sz.bits v.toNat) s t) ∧
    (∀ (c : BitVec 3) (v : BitVec sz.bits), NextFits (.ldCodeImm sz c v) s →
      ∃ t, exec (.ldCodeImm sz c v) s = .next t ∧ t.flags = s.flags ∧
        WritesReg (.ldCodeImm sz c v) sz (codeSlot sz c s) v s t) ∧
    (∀ (r : RegOp) (v : BitVec sz.bits), (Instr.ldRegImm sz r v).wf = true →
      NextFits (.ldRegImm sz r v) s →
      ∃ t, exec (.ldRegImm sz r v) s = .next t ∧ t.flags = s.flags ∧
        WritesReg (.ldRegImm sz r v) sz (slotOf sz r s) v s t)

/-- R150, R156: LD R,(mem) loads what memory holds at the effective address; the pointer of an
auto-update mode moves too. Rests on D1, D17, GK18 (log 11, log 13, log 24). -/
def Obligations.LoadFromMemoryResult : Prop :=
  ∀ (sz : Size) (c : BitVec 3) (m : Mem) (s : State), (Instr.ldCodeMem sz c m).wf = true →
    NextFits (.ldCodeMem sz c m) s → Reachable (memAddr m s) sz.bytes s →
    autoReg m s ≠ some (codeSlot sz c s).reg →
    ∃ t, ∃ v : BitVec sz.bits, exec (.ldCodeMem sz c m) s = .next t ∧ Holds sz (memAddr m s) s v ∧
      SetsReg sz (codeSlot sz c s) v (eaUpdate m s) t ∧ SameMem s t ∧ SameSystem s t ∧
      t.flags = s.flags ∧ FallsThrough (.ldCodeMem sz c m) s t

/-- R151, R156: LD (mem),R. Rests on D1, D13, D17, GK18 (log 11, log 13, log 14, log 24). -/
def Obligations.StoreRegisterResult : Prop :=
  ∀ (sz : Size) (m : Mem) (c : BitVec 3) (s : State), (Instr.ldMemCode sz m c).wf = true →
    NextFits (.ldMemCode sz m c) s → Reachable (memAddr m s) sz.bytes s →
    autoReg m s ≠ some (codeSlot sz c s).reg →
    ∃ t, exec (.ldMemCode sz m c) s = .next t ∧
      WritesMem (.ldMemCode sz m c) sz (memAddr m s) (readSlot sz (codeSlot sz c s) s) s t ∧
      RegsAfterEa m s t ∧ t.flags = s.flags

/-- R152, R153, R156: LD<W> (#8),# and LD<W> (mem),#. Rests on D1, D13, D17, GK18 (log 11, log 13,
log 14, log 24). -/
def Obligations.StoreImmediateResult : Prop :=
  ∀ s : State,
    (∀ (z : BW) (a : BitVec 8) (v : BitVec z.size.bits), NextFits (.ldAbs8Imm z a v) s →
      Reachable (a.setWidth 24) z.size.bytes s →
      ∃ t, exec (.ldAbs8Imm z a v) s = .next t ∧
        WritesMem (.ldAbs8Imm z a v) z.size (a.setWidth 24) v s t ∧ SameRegs s t ∧
        t.flags = s.flags) ∧
    (∀ (z : BW) (m : Mem) (v : BitVec z.size.bits), (Instr.ldMemImm z m v).wf = true →
      NextFits (.ldMemImm z m v) s → Reachable (memAddr m s) z.size.bytes s →
      ∃ t, exec (.ldMemImm z m v) s = .next t ∧
        WritesMem (.ldMemImm z m v) z.size (memAddr m s) v s t ∧ RegsAfterEa m s t ∧
        t.flags = s.flags)

/-- R57, R62, R157: LDX (#8),# ignores its second, fourth and sixth byte, stores its fifth byte at
the address in its third, and is six bytes long. A device byte keeps memory as it was, and the
address stored to counts as written. Rests on D13, D17 for the device byte and the written address
(log 13, log 14). -/
def Obligations.LoadExtractResult : Prop :=
  (∀ (l : Launch) (x a y v z : Byte) (rest : List Byte),
    decode l (0xF7#8 :: x :: a :: y :: v :: z :: rest) = .ok (.ldx a v) rest) ∧
  ∀ (a v : BitVec 8) (s : State), s.pc.toNat + 6 < 0x1000000 → Reachable (a.setWidth 24) 1 s →
    ∃ t, exec (.ldx a v) s = .next t ∧ Stores .byte (a.setWidth 24) v s t ∧ SameRegs s t ∧
      SameSystem s t ∧ t.flags = s.flags ∧ t.pc = s.pc + 6#24

/-- R154, R155, R156: LD<W> (#16),(mem) and LD<W> (mem),(#16) store what memory held at the source
before. Rests on D1, D13, D16, D17, GK18 and, for the Byte form of LD (mem),(#16), the inference
that R155 marks as its own (N20) (log 2, log 11, log 13, log 14, log 24, log 29). -/
def Obligations.MemoryTransferResult : Prop :=
  ∀ (z : BW) (a : BitVec 16) (m : Mem) (s : State), m.ok = true →
    Reachable (a.setWidth 24) z.size.bytes s → Reachable (memAddr m s) z.size.bytes s →
    (NextFits (.ldAbs16Mem z a m) s →
      ∃ t, ∃ v : BitVec z.size.bits, exec (.ldAbs16Mem z a m) s = .next t ∧
        Holds z.size (memAddr m s) s v ∧
        WritesMem (.ldAbs16Mem z a m) z.size (a.setWidth 24) v s t ∧ RegsAfterEa m s t ∧
        t.flags = s.flags) ∧
    (NextFits (.ldMemAbs16 z m a) s →
      ∃ t, ∃ v : BitVec z.size.bits, exec (.ldMemAbs16 z m a) s = .next t ∧
        Holds z.size (a.setWidth 24) s v ∧
        WritesMem (.ldMemAbs16 z m a) z.size (memAddr m s) v s t ∧ RegsAfterEa m s t ∧
        t.flags = s.flags)

/-- R86, R150, R151, R226 (U9, U13; log 16): the auto-update operands that are refused. Rests on
U9 and U13 (log 16) and, where the next address does not fit in 24 bits, the place of the refusals
before D4 (log 30). -/
def Obligations.AutoUpdateRefusals : Prop :=
  ∀ (m : Mem) (c : BitVec 3) (s : State),
    (∀ cc, autoReg m s ≠ none → exec (.jpMem cc m) s = .refused (.autoUpdateAddress s.pc)) ∧
    (∀ w, autoReg m s ≠ none → exec (.lda w c m) s = .refused (.autoUpdateAddress s.pc)) ∧
    (∀ sz, autoReg m s = some (codeSlot sz c s).reg →
      exec (.ldCodeMem sz c m) s = .refused (.autoUpdateData s.pc) ∧
      exec (.ldMemCode sz m c) s = .refused (.autoUpdateData s.pc)) ∧
    (∀ z : BW, autoReg m s = some (codeSlot z.size c s).reg →
      exec (.mulMem z c m) s = .refused (.autoUpdateData s.pc) ∧
      exec (.mulsMem z c m) s = .refused (.autoUpdateData s.pc))

/-! ### Load address, control registers, carry -/

/-- R86, R160: LDA R,mem loads the low bits of the effective address itself. Rests on GK7, GK18
(log 24, log 29). -/
def Obligations.LoadAddressResult : Prop :=
  ∀ (w : WL) (c : BitVec 3) (m : Mem) (s : State), (Instr.lda w c m).wf = true →
    NextFits (.lda w c m) s → autoReg m s = none →
    ∃ t, exec (.lda w c m) s = .next t ∧ t.flags = s.flags ∧
      WritesReg (.lda w c m) w.size (codeSlot w.size c s)
        ((eaAddr m s).extractLsb' 0 w.size.bits) s t

/-- R161: LDAR R,$+4+d16; an address outside 24 bits is refused. Rests on GK14, D4 and the place
of its refusal before that of the next address (log 10, log 29, log 30). -/
def Obligations.LoadRelativeAddressResult : Prop :=
  ∀ (w : WL) (c : BitVec 3) (d : BitVec 16) (s : State) (target : Int),
    target = s.pc.toNat + 4 + d.toInt →
    (0 ≤ target → target < 0x1000000 → NextFits (.ldar w c d) s →
      ∃ t, ∃ v : BitVec w.size.bits, exec (.ldar w c d) s = .next t ∧
        (v.toNat : Int) = target % 2 ^ w.size.bits ∧ t.flags = s.flags ∧
        WritesReg (.ldar w c d) w.size (codeSlot w.size c s) v s t) ∧
    (target < 0 ∨ 0x1000000 ≤ target → exec (.ldar w c d) s = .refused (.addressOutside s.pc))

/-- R32, R162: LDC cr,r writes the control register that the code names, and nothing else. Rests
on D18 (log 3). -/
def Obligations.LdcToControlResult : Prop :=
  ∀ (sz : Size) (cr : BitVec 8) (r : RegOp) (s : State) (e : CrEntry),
    (Instr.ldcToCr sz cr r).wf = true → NextFits (.ldcToCr sz cr r) s →
    s.crEntry cr = some e → e.width = sz →
    ∃ t, exec (.ldcToCr sz cr r) s = .next t ∧
      t.cr.get e.name = BitVec.ofNat 32 (readSlot sz (slotOf sz r s) s).toNat ∧
      (∀ other, other ≠ e.name → t.cr.get other = s.cr.get other) ∧
      SameRegs s t ∧ SameMem s t ∧ t.flags = s.flags ∧ t.rfp = s.rfp ∧ t.iff = s.iff ∧
      t.halted = s.halted ∧ t.launch = s.launch ∧ FallsThrough (.ldcToCr sz cr r) s t

/-- R32, R163: LDC r,cr. Rests on D18 (log 3). -/
def Obligations.LdcFromControlResult : Prop :=
  ∀ (sz : Size) (r : RegOp) (cr : BitVec 8) (s : State) (e : CrEntry),
    (Instr.ldcFromCr sz r cr).wf = true → NextFits (.ldcFromCr sz r cr) s →
    s.crEntry cr = some e → e.width = sz →
    ∃ t, ∃ v : BitVec sz.bits, exec (.ldcFromCr sz r cr) s = .next t ∧
      v = (s.cr.get e.name).extractLsb' 0 sz.bits ∧ t.flags = s.flags ∧
      WritesReg (.ldcFromCr sz r cr) sz (slotOf sz r s) v s t

/-- R162, R163 (U11): LDC with a code outside the map, or with another width, is refused; with the
default map of R6 every LDC is. Rests on D18, U11 and the place of these refusals before D4 (log
3, log 27, log 30). -/
def Obligations.LdcRefusals : Prop :=
  (∀ (sz : Size) (cr : BitVec 8) (r : RegOp) (s : State),
    (s.crEntry cr = none →
      exec (.ldcToCr sz cr r) s = .refused (.crCode s.pc) ∧
      exec (.ldcFromCr sz r cr) s = .refused (.crCode s.pc)) ∧
    ∀ e, s.crEntry cr = some e → e.width ≠ sz →
      exec (.ldcToCr sz cr r) s = .refused (.crWidth s.pc) ∧
      exec (.ldcFromCr sz r cr) s = .refused (.crWidth s.pc)) ∧
  ∀ (cr : BitVec 8) (s : State), s.launch = defaultLaunch → s.crEntry cr = none

/-- R164, R165, R168: LDCF #4,r and LDCF A,r load C from a bit of the register, or with a fresh
free value when the register has no such bit, and change nothing else. Rests on U19 and the place
of its refusal before D4 (log 25, log 30), GK9 and, for the free value and its counter, log 12. -/
def Obligations.LdcfRegisterResult : Prop :=
  ∀ (z : BW) (r : RegOp) (s : State),
    (∀ b : BitVec 8, (Instr.ldcfImmReg z b r).wf = true → NextFits (.ldcfImmReg z b r) s →
      b.toNat < 16 →
      ∃ t c, exec (.ldcfImmReg z b r) s = .next t ∧ t.flags = { s.flags with c := c } ∧
        (b.toNat < z.size.bits → c = (readSlot z.size (slotOf z.size r s) s).getLsbD b.toNat) ∧
        (z.size.bits ≤ b.toNat →
          c = Config.freeBit s.freeIndex ∧ t.freeIndex = s.freeIndex + 1) ∧
        SameRegs s t ∧ SameMem s t ∧ SameSystem s t ∧ FallsThrough (.ldcfImmReg z b r) s t) ∧
    (∀ b : BitVec 8, 16 ≤ b.toNat → exec (.ldcfImmReg z b r) s = .refused (.ldcfHighBits s.pc)) ∧
    ∀ n : Nat, n = ((s.banks[s.curBank.val]).xwa.extractLsb' 0 4).toNat →
      (Instr.ldcfAReg z r).wf = true → NextFits (.ldcfAReg z r) s →
      ∃ t c, exec (.ldcfAReg z r) s = .next t ∧ t.flags = { s.flags with c := c } ∧
        (n < z.size.bits → c = (readSlot z.size (slotOf z.size r s) s).getLsbD n) ∧
        (z.size.bits ≤ n → c = Config.freeBit s.freeIndex ∧ t.freeIndex = s.freeIndex + 1) ∧
        SameRegs s t ∧ SameMem s t ∧ SameSystem s t ∧ FallsThrough (.ldcfAReg z r) s t

/-- R166, R167, R168: LDCF #3,(mem) and LDCF A,(mem). Rests on GK21, D17 and log 12, log 13, log
16, log 29. -/
def Obligations.LdcfMemoryResult : Prop :=
  ∀ (m : Mem) (s : State), m.ok = true → Reachable (memAddr m s) 1 s →
    (∀ num : BitVec 3, NextFits (.ldcfImmMem num m) s →
      ∃ t, ∃ v : BitVec 8, exec (.ldcfImmMem num m) s = .next t ∧ Holds .byte (memAddr m s) s v ∧
        t.flags = { s.flags with c := v.getLsbD num.toNat } ∧ RegsAfterEa m s t ∧ SameMem s t ∧
        SameSystem s t ∧ FallsThrough (.ldcfImmMem num m) s t) ∧
    ∀ n : Nat, n = ((s.banks[s.curBank.val]).xwa.extractLsb' 0 4).toNat →
      NextFits (.ldcfAMem m) s →
      ∃ t, ∃ v : BitVec 8, ∃ c, exec (.ldcfAMem m) s = .next t ∧ Holds .byte (memAddr m s) s v ∧
        t.flags = { s.flags with c := c } ∧ (n < 8 → c = v.getLsbD n) ∧
        (8 ≤ n → ∃ k, s.freeIndex ≤ k ∧ c = Config.freeBit k ∧ t.freeIndex = k + 1) ∧
        RegsAfterEa m s t ∧ SameMem s t ∧ SameSystem s t ∧ FallsThrough (.ldcfAMem m) s t

/-! ### Block loads -/

/-- R170, R172, R174: LDI and LDD of both operand pairs move one item. Rests on D13, D16, D17, D21
(GK16, log 13, log 14, log 29). -/
def Obligations.BlockOnceResult : Prop :=
  ∀ (z : BW) (s : State),
    ∀ row ∈ [(Instr.ldiDeHl z, PReg.bank s.curBank .xde, PReg.bank s.curBank .xhl,
          BitVec.ofNat 32 z.size.bytes),
        (.ldiIxIy z, .xix, .xiy, BitVec.ofNat 32 z.size.bytes),
        (.lddDeHl z, .bank s.curBank .xde, .bank s.curBank .xhl, -BitVec.ofNat 32 z.size.bytes),
        (.lddIxIy z, .xix, .xiy, -BitVec.ofNat 32 z.size.bytes)],
    NextFits row.1 s → Reachable (dataAddr (s.get32 row.2.2.1)) z.size.bytes s →
    Reachable (dataAddr (s.get32 row.2.1)) z.size.bytes s →
    ∃ t, ∃ v : BitVec z.size.bits, exec row.1 s = .next t ∧
      Holds z.size (dataAddr (s.get32 row.2.2.1)) s v ∧
      WritesMem row.1 z.size (dataAddr (s.get32 row.2.1)) v s t ∧
      PointersMoved row.2.1 row.2.2.1 row.2.2.2 1 s t ∧
      t.flags = { s.flags with
        h := false, v := decide ((t.get32 (countReg s)).setWidth 16 ≠ 0#16), n := false }

/-- R171, R173, R174: LDIR and LDDR of both operand pairs move BC items, 65536 when BC is 0, each
read before it is stored; `f k` is the memory after `k` items. Rests on D13, D14, D16, D17, D21
(log 13, log 14, log 18, log 29). -/
def Obligations.BlockRepeatResult : Prop :=
  ∀ (z : BW) (s : State) (n : Nat),
    n = (if (s.get32 (countReg s)).setWidth 16 = 0#16 then 65536
      else ((s.get32 (countReg s)).setWidth 16).toNat) →
    ∀ row ∈ [(Instr.ldirDeHl z, PReg.bank s.curBank .xde, PReg.bank s.curBank .xhl,
          BitVec.ofNat 32 z.size.bytes),
        (.ldirIxIy z, .xix, .xiy, BitVec.ofNat 32 z.size.bytes),
        (.lddrDeHl z, .bank s.curBank .xde, .bank s.curBank .xhl, -BitVec.ofNat 32 z.size.bytes),
        (.lddrIxIy z, .xix, .xiy, -BitVec.ofNat 32 z.size.bytes)],
    NextFits row.1 s →
    (∀ k < n,
      Reachable (dataAddr (s.get32 row.2.2.1 + row.2.2.2 * BitVec.ofNat 32 k)) z.size.bytes s ∧
      Reachable (dataAddr (s.get32 row.2.1 + row.2.2.2 * BitVec.ofNat 32 k)) z.size.bytes s) →
    ∃ t, ∃ f : Nat → State, exec row.1 s = .next t ∧ f 0 = s ∧
      (∀ k < n, ∃ v : BitVec z.size.bits,
        Holds z.size (dataAddr (s.get32 row.2.2.1 + row.2.2.2 * BitVec.ofNat 32 k)) (f k) v ∧
        Stores z.size (dataAddr (s.get32 row.2.1 + row.2.2.2 * BitVec.ofNat 32 k)) v (f k)
          (f (k + 1)) ∧
        (f (k + 1)).launch = s.launch) ∧
      SameMem (f n) t ∧ PointersMoved row.2.1 row.2.2.1 row.2.2.2 n s t ∧ SameSystem s t ∧
      t.flags = { s.flags with h := false, v := false, n := false } ∧ FallsThrough row.1 s t

/-! ### Stack frame -/

/-- R26, R180: LINK r,d16; LINK of XSP is refused (U15). Rests on D1, D13, D17, GK18, U15 and the
place of its refusal before D4 (log 11, log 13, log 14, log 24, log 30). -/
def Obligations.LinkResult : Prop :=
  ∀ (r : RegOp) (d : BitVec 16) (s : State) (p : PReg), p = (slotOf .long r s).reg →
    ((Instr.link r d).wf = true → NextFits (.link r d) s → p ≠ .xsp →
      Reachable (dataAddr (s.xsp - 4#32)) 4 s →
      ∃ t, exec (.link r d) s = .next t ∧
        WritesMem (.link r d) .long (dataAddr (s.xsp - 4#32)) (s.get32 p) s t ∧
        t.get32 p = s.xsp - 4#32 ∧ t.xsp = s.xsp - 4#32 + d.signExtend 32 ∧
        (∀ q, q ≠ p → q ≠ .xsp → t.get32 q = s.get32 q) ∧ t.flags = s.flags) ∧
    (p = .xsp → exec (.link r d) s = .refused (.linkXsp s.pc))

/-! ### Modulo pointers and mirror -/

/-- R185, R186, R187, R188, R189, R190, R192: the six modulo instructions with a modulus 2^n of
their range; any other modulus is refused (U2). Rests on the 16-bit field of R192, marked derived,
GK18, U2 and the place of its refusal before D4 (log 24, log 30). -/
def Obligations.ModuloResult : Prop :=
  ∀ (field : BitVec 16) (r : RegOp) (s : State) (a : BitVec 16),
    a = readSlot .word (slotOf .word r s) s →
    ∀ row ∈ [(Instr.mdec1 field r, 1, 1, true), (.mdec2 field r, 2, 2, true),
        (.mdec4 field r, 4, 3, true), (.minc1 field r, 1, 1, false), (.minc2 field r, 2, 2, false),
        (.minc4 field r, 4, 3, false)],
    (∀ n : Nat, row.2.2.1 ≤ n → n ≤ 15 → field.toNat + row.2.1 = 2 ^ n → row.1.wf = true →
      NextFits row.1 s →
      ∃ t, ∃ v : BitVec 16, exec row.1 s = .next t ∧ t.flags = s.flags ∧
        WritesReg row.1 .word (slotOf .word r s) v s t ∧
        (row.2.2.2 = true →
          v = if a.toNat % 2 ^ n = 0 then a + BitVec.ofNat 16 (2 ^ n - row.2.1)
            else a - BitVec.ofNat 16 row.2.1) ∧
        (row.2.2.2 = false →
          v = if a.toNat % 2 ^ n = 2 ^ n - row.2.1 then a - BitVec.ofNat 16 (2 ^ n - row.2.1)
            else a + BitVec.ofNat 16 row.2.1)) ∧
    ((∀ n : Nat, row.2.2.1 ≤ n → n ≤ 15 → field.toNat + row.2.1 ≠ 2 ^ n) →
      exec row.1 s = .refused (.moduloNumber s.pc))

/-- R191: MIRR puts bit 15 - i where bit i was. Rests on the lost byte of row 46 (GK9). -/
def Obligations.MirrorResult : Prop :=
  ∀ (r : RegOp) (s : State), (Instr.mirr r).wf = true → NextFits (.mirr r) s →
    ∃ t, ∃ v : BitVec 16, exec (.mirr r) s = .next t ∧ t.flags = s.flags ∧
      WritesReg (.mirr r) .word (slotOf .word r s) v s t ∧
      ∀ i < 16, v.getLsbD i = (readSlot .word (slotOf .word r s) s).getLsbD (15 - i)

/-! ### Multiply -/

/-- R195, R196, R198, R199, R202: MUL and MULS with a register and with an immediate: the
double-width product of the destination's lower half, unsigned and signed. Rests on GK4 for the
extension codes (log 29). -/
def Obligations.MultiplyResult : Prop :=
  ∀ (z : BW) (s : State),
    (∀ (c : BitVec 3) (r : RegOp) (a b : BitVec z.size.bits),
      a = readSlot z.size (codeSlot z.size c s) s → b = readSlot z.size (slotOf z.size r s) s →
      ((Instr.mulReg z c r).wf = true → NextFits (.mulReg z c r) s →
        ∃ t, ∃ v : BitVec z.wide.bits, exec (.mulReg z c r) s = .next t ∧ t.flags = s.flags ∧
          WritesReg (.mulReg z c r) z.wide (codeSlot z.size c s) v s t ∧
          v.toNat = a.toNat * b.toNat) ∧
      ((Instr.mulsReg z c r).wf = true → NextFits (.mulsReg z c r) s →
        ∃ t, ∃ v : BitVec z.wide.bits, exec (.mulsReg z c r) s = .next t ∧ t.flags = s.flags ∧
          WritesReg (.mulsReg z c r) z.wide (codeSlot z.size c s) v s t ∧
          v.toInt = a.toInt * b.toInt)) ∧
    ∀ (r : RegOp) (a b : BitVec z.size.bits), a = readSlot z.size (slotOf z.size r s) s →
      ((Instr.mulImm z r b).wf = true → NextFits (.mulImm z r b) s →
        ∃ t, ∃ v : BitVec z.wide.bits, exec (.mulImm z r b) s = .next t ∧ t.flags = s.flags ∧
          WritesReg (.mulImm z r b) z.wide (slotOf z.size r s) v s t ∧
          v.toNat = a.toNat * b.toNat) ∧
      ((Instr.mulsImm z r b).wf = true → NextFits (.mulsImm z r b) s →
        ∃ t, ∃ v : BitVec z.wide.bits, exec (.mulsImm z r b) s = .next t ∧ t.flags = s.flags ∧
          WritesReg (.mulsImm z r b) z.wide (slotOf z.size r s) v s t ∧
          v.toInt = a.toInt * b.toInt)

/-- R197, R200, R202: MUL and MULS with a memory operand. Rests on D1, D17, U13 (log 11, log 13,
log 16). -/
def Obligations.MultiplyMemoryResult : Prop :=
  ∀ (z : BW) (c : BitVec 3) (m : Mem) (s : State) (a : BitVec z.size.bits),
    a = readSlot z.size (codeSlot z.size c s) s → Reachable (memAddr m s) z.size.bytes s →
    autoReg m s ≠ some (codeSlot z.size c s).reg →
    ((Instr.mulMem z c m).wf = true → NextFits (.mulMem z c m) s →
      ∃ t, ∃ b : BitVec z.size.bits, ∃ v : BitVec z.wide.bits, exec (.mulMem z c m) s = .next t ∧
        Holds z.size (memAddr m s) s b ∧ v.toNat = a.toNat * b.toNat ∧
        SetsReg z.wide (codeSlot z.size c s) v (eaUpdate m s) t ∧ SameMem s t ∧ SameSystem s t ∧
        t.flags = s.flags ∧ FallsThrough (.mulMem z c m) s t) ∧
    ((Instr.mulsMem z c m).wf = true → NextFits (.mulsMem z c m) s →
      ∃ t, ∃ b : BitVec z.size.bits, ∃ v : BitVec z.wide.bits, exec (.mulsMem z c m) s = .next t ∧
        Holds z.size (memAddr m s) s b ∧ v.toInt = a.toInt * b.toInt ∧
        SetsReg z.wide (codeSlot z.size c s) v (eaUpdate m s) t ∧ SameMem s t ∧ SameSystem s t ∧
        t.flags = s.flags ∧ FallsThrough (.mulsMem z c m) s t)

/-- R201: MULA rr, its three flags and the step of XHL; MULA XHL is refused (U14). Rests on D1,
D17, U14 and the place of its refusal before D4 (log 11, log 13, log 30), and the V formula that
R201 marks as derived. -/
def Obligations.MulaResult : Prop :=
  ∀ (r : RegOp) (s : State) (dst de hl : PReg), dst = (slotOf .word r s).reg →
    de = .bank s.curBank .xde → hl = .bank s.curBank .xhl →
    ((Instr.mula r).wf = true → NextFits (.mula r) s → dst ≠ hl →
      Reachable (dataAddr (s.get32 de)) 2 s → Reachable (dataAddr (s.get32 hl)) 2 s →
      ∃ t, ∃ a b : BitVec 16, ∃ p res : BitVec 32, exec (.mula r) s = .next t ∧
        Holds .word (dataAddr (s.get32 de)) s a ∧ Holds .word (dataAddr (s.get32 hl)) s b ∧
        p.toInt = a.toInt * b.toInt ∧ res = s.get32 dst + p ∧
        t.get32 dst = res ∧ t.get32 hl = s.get32 hl - 2#32 ∧
        (∀ q, q ≠ dst → q ≠ hl → t.get32 q = s.get32 q) ∧
        t.flags = { s.flags with
          s := res.msb, z := decide (res = 0),
          v := decide ((s.get32 dst).msb = p.msb ∧ res.msb ≠ (s.get32 dst).msb) } ∧
        SameMem s t ∧ SameSystem s t ∧ FallsThrough (.mula r) s t) ∧
    (dst = hl → exec (.mula r) s = .refused (.mulaXhl s.pc))
end

