-- ==== Sys2Proof/Laws/Memory.lean ====
section
/-! SUPPORT. Memory laws: a read after a write, every other address kept, the canonical form kept. -/

namespace Sys2Proof.Machine

theorem Memory.read_insert_self (m : Memory) (a : Nat) (v : Byte) : (m.insert a v).read a = v := by
  induction m with
  | nil => simp [Memory.insert, Memory.read]
  | cons e rest ih =>
    obtain ⟨k, b⟩ := e
    unfold Memory.insert
    split
    · simp [Memory.read]
    · split
      · simp [Memory.read]
      · rename_i h
        simp [Memory.read, h, ih]

theorem Memory.read_insert_ne (m : Memory) {a c : Nat} (v : Byte) (h : c ≠ a) :
    (m.insert a v).read c = m.read c := by
  induction m with
  | nil => simp [Memory.insert, Memory.read, h.symm]
  | cons e rest ih =>
    obtain ⟨k, b⟩ := e
    unfold Memory.insert
    split
    · simp [Memory.read, h.symm]
    · split
      · rename_i hk
        subst hk
        simp [Memory.read, h.symm]
      · simp [Memory.read, ih]

theorem Memory.read_erase_ne (m : Memory) {a c : Nat} (h : c ≠ a) : (m.erase a).read c = m.read c := by
  induction m with
  | nil => rfl
  | cons e rest ih =>
    obtain ⟨k, b⟩ := e
    unfold Memory.erase
    split
    · rename_i hk
      subst hk
      simp [Memory.read, h.symm, ih]
    · simp [Memory.read, ih]

theorem Memory.read_erase_self (m : Memory) (a : Nat) : (m.erase a).read a = Memory.unlisted := by
  induction m with
  | nil => rfl
  | cons e rest ih =>
    obtain ⟨k, b⟩ := e
    unfold Memory.erase
    split
    · exact ih
    · rename_i hk
      simp [Memory.read, hk, ih]

theorem Memory.wfFrom_mono {m : Memory} {p q : Nat} (hpq : p ≤ q) (h : Memory.wfFrom q m = true) :
    Memory.wfFrom p m = true := by
  cases m with
  | nil => rfl
  | cons e rest =>
    obtain ⟨k, b⟩ := e
    simp only [Memory.wfFrom, Bool.and_eq_true, decide_eq_true_eq] at h ⊢
    exact ⟨⟨⟨by omega, h.1.1.2⟩, h.1.2⟩, h.2⟩

theorem Memory.erase_wfFrom {m : Memory} {lo : Nat} (a : Nat) (h : Memory.wfFrom lo m = true) :
    Memory.wfFrom lo (m.erase a) = true := by
  induction m generalizing lo with
  | nil => rfl
  | cons e rest ih =>
    obtain ⟨k, b⟩ := e
    simp only [Memory.wfFrom, Bool.and_eq_true, decide_eq_true_eq] at h
    unfold Memory.erase
    split
    · exact Memory.wfFrom_mono (by omega) (ih h.2)
    · simp only [Memory.wfFrom, Bool.and_eq_true, decide_eq_true_eq]
      exact ⟨h.1, ih h.2⟩

theorem Memory.insert_wfFrom {m : Memory} {lo a : Nat} {v : Byte} (h : Memory.wfFrom lo m = true)
    (hlo : lo ≤ a) (ha : a < Config.addressSpace) (hv : v ≠ Memory.unlisted) :
    Memory.wfFrom lo (m.insert a v) = true := by
  induction m generalizing lo with
  | nil => simp [Memory.insert, Memory.wfFrom, hlo, ha, hv]
  | cons e rest ih =>
    obtain ⟨k, b⟩ := e
    have h0 := h
    simp only [Memory.wfFrom, Bool.and_eq_true, decide_eq_true_eq] at h
    unfold Memory.insert
    split
    · simp only [Memory.wfFrom, Bool.and_eq_true, decide_eq_true_eq]
      exact ⟨⟨⟨hlo, ha⟩, hv⟩, ⟨⟨by omega, h.1.1.2⟩, h.1.2⟩, h.2⟩
    · split
      · rename_i hk
        subst hk
        simp only [Memory.wfFrom, Bool.and_eq_true, decide_eq_true_eq]
        exact ⟨⟨⟨hlo, ha⟩, hv⟩, h.2⟩
      · simp only [Memory.wfFrom, Bool.and_eq_true, decide_eq_true_eq]
        exact ⟨h.1, ih h.2 (by omega)⟩

/-- Every store keeps the canonical form. -/
theorem Memory.write_wf {m : Memory} {a : Nat} (v : Byte) (h : m.wf = true)
    (ha : a < Config.addressSpace) : (m.write a v).wf = true := by
  unfold Memory.write
  split
  · exact Memory.erase_wfFrom a h
  · exact Memory.insert_wfFrom h (Nat.zero_le _) ha ‹_›

/-- A store leaves every other address as it was. -/
theorem Memory.read_write_ne (m : Memory) {a c : Nat} (v : Byte) (h : c ≠ a) :
    (m.write a v).read c = m.read c := by
  unfold Memory.write
  split
  · exact Memory.read_erase_ne m h
  · exact Memory.read_insert_ne m v h

/-- A read after a store gives the byte stored. -/
theorem Memory.read_write_self (m : Memory) (a : Nat) (v : Byte) : (m.write a v).read a = v := by
  unfold Memory.write
  split
  · rename_i hv
    rw [hv]
    exact Memory.read_erase_self m a
  · exact Memory.read_insert_self m a v

/-- What marking an address adds. -/
theorem Written.mem_mark (w : Written) (a k : Nat) : k ∈ w.mark a ↔ k ∈ w ∨ k = a := by
  induction w with
  | nil => simp [Written.mark]
  | cons x rest ih =>
    unfold Written.mark
    split
    · simp [or_comm]
    · split
      · rename_i h
        subst h
        simp only [List.mem_cons]
        tauto
      · simp only [List.mem_cons, ih]
        tauto

theorem Written.mark_wfFrom {w : Written} {lo a : Nat} (h : Written.wfFrom lo w = true) (hlo : lo ≤ a)
    (ha : a < Config.addressSpace) : Written.wfFrom lo (w.mark a) = true := by
  induction w generalizing lo with
  | nil => simp [Written.mark, Written.wfFrom, hlo, ha]
  | cons k rest ih =>
    have h0 := h
    simp only [Written.wfFrom, Bool.and_eq_true, decide_eq_true_eq] at h
    unfold Written.mark
    split
    · simp only [Written.wfFrom, Bool.and_eq_true, decide_eq_true_eq]
      exact ⟨⟨hlo, ha⟩, ⟨by omega, h.1.2⟩, h.2⟩
    · split
      · exact h0
      · simp only [Written.wfFrom, Bool.and_eq_true, decide_eq_true_eq]
        exact ⟨h.1, ih h.2 (by omega)⟩

theorem Written.mark_wf {w : Written} {a : Nat} (h : w.wf = true) (ha : a < Config.addressSpace) :
    (w.mark a).wf = true :=
  Written.mark_wfFrom h (Nat.zero_le _) ha

end Sys2Proof.Machine
end

