-- ==== Sys2Proof/Laws/State.lean ====
section
/-! SUPPORT. One lemma per field per update of State, each true by unfolding once. -/

namespace Sys2Proof.Machine

/-! ### setPc -/

@[simp] theorem State.setPc_banks (s : State) (a : Addr) : (s.setPc a).banks = s.banks := rfl
@[simp] theorem State.setPc_xix (s : State) (a : Addr) : (s.setPc a).xix = s.xix := rfl
@[simp] theorem State.setPc_xiy (s : State) (a : Addr) : (s.setPc a).xiy = s.xiy := rfl
@[simp] theorem State.setPc_xiz (s : State) (a : Addr) : (s.setPc a).xiz = s.xiz := rfl
@[simp] theorem State.setPc_xsp (s : State) (a : Addr) : (s.setPc a).xsp = s.xsp := rfl
@[simp] theorem State.setPc_pc (s : State) (a : Addr) : (s.setPc a).pc = a := rfl
@[simp] theorem State.setPc_rfp (s : State) (a : Addr) : (s.setPc a).rfp = s.rfp := rfl
@[simp] theorem State.setPc_iff (s : State) (a : Addr) : (s.setPc a).iff = s.iff := rfl
@[simp] theorem State.setPc_flags (s : State) (a : Addr) : (s.setPc a).flags = s.flags := rfl
@[simp] theorem State.setPc_cr (s : State) (a : Addr) : (s.setPc a).cr = s.cr := rfl
@[simp] theorem State.setPc_halted (s : State) (a : Addr) : (s.setPc a).halted = s.halted := rfl
@[simp] theorem State.setPc_mem (s : State) (a : Addr) : (s.setPc a).mem = s.mem := rfl
@[simp] theorem State.setPc_written (s : State) (a : Addr) : (s.setPc a).written = s.written := rfl
@[simp] theorem State.setPc_freeIndex (s : State) (a : Addr) : (s.setPc a).freeIndex = s.freeIndex := rfl
@[simp] theorem State.setPc_launch (s : State) (a : Addr) : (s.setPc a).launch = s.launch := rfl
@[simp] theorem State.setPc_get32 (s : State) (a : Addr) (p : PReg) : (s.setPc a).get32 p = s.get32 p := by cases p <;> rfl
@[simp] theorem State.setPc_curBank (s : State) (a : Addr) : (s.setPc a).curBank = s.curBank := rfl
@[simp] theorem State.setPc_byteAt (s : State) (a : Addr) (k : Nat) : (s.setPc a).byteAt k = s.byteAt k := rfl
@[simp] theorem State.setPc_isDevice (s : State) (a : Addr) (k : Nat) : (s.setPc a).isDevice k = s.isDevice k := rfl
@[simp] theorem State.setPc_isAdmitted (s : State) (a : Addr) (k : Nat) : (s.setPc a).isAdmitted k = s.isAdmitted k := rfl

/-! ### setFlags -/

@[simp] theorem State.setFlags_banks (s : State) (f : Flags) : (s.setFlags f).banks = s.banks := rfl
@[simp] theorem State.setFlags_xix (s : State) (f : Flags) : (s.setFlags f).xix = s.xix := rfl
@[simp] theorem State.setFlags_xiy (s : State) (f : Flags) : (s.setFlags f).xiy = s.xiy := rfl
@[simp] theorem State.setFlags_xiz (s : State) (f : Flags) : (s.setFlags f).xiz = s.xiz := rfl
@[simp] theorem State.setFlags_xsp (s : State) (f : Flags) : (s.setFlags f).xsp = s.xsp := rfl
@[simp] theorem State.setFlags_pc (s : State) (f : Flags) : (s.setFlags f).pc = s.pc := rfl
@[simp] theorem State.setFlags_rfp (s : State) (f : Flags) : (s.setFlags f).rfp = s.rfp := rfl
@[simp] theorem State.setFlags_iff (s : State) (f : Flags) : (s.setFlags f).iff = s.iff := rfl
@[simp] theorem State.setFlags_flags (s : State) (f : Flags) : (s.setFlags f).flags = f := rfl
@[simp] theorem State.setFlags_cr (s : State) (f : Flags) : (s.setFlags f).cr = s.cr := rfl
@[simp] theorem State.setFlags_halted (s : State) (f : Flags) : (s.setFlags f).halted = s.halted := rfl
@[simp] theorem State.setFlags_mem (s : State) (f : Flags) : (s.setFlags f).mem = s.mem := rfl
@[simp] theorem State.setFlags_written (s : State) (f : Flags) : (s.setFlags f).written = s.written := rfl
@[simp] theorem State.setFlags_freeIndex (s : State) (f : Flags) : (s.setFlags f).freeIndex = s.freeIndex := rfl
@[simp] theorem State.setFlags_launch (s : State) (f : Flags) : (s.setFlags f).launch = s.launch := rfl
@[simp] theorem State.setFlags_get32 (s : State) (f : Flags) (p : PReg) : (s.setFlags f).get32 p = s.get32 p := by cases p <;> rfl
@[simp] theorem State.setFlags_curBank (s : State) (f : Flags) : (s.setFlags f).curBank = s.curBank := rfl
@[simp] theorem State.setFlags_byteAt (s : State) (f : Flags) (k : Nat) : (s.setFlags f).byteAt k = s.byteAt k := rfl
@[simp] theorem State.setFlags_isDevice (s : State) (f : Flags) (k : Nat) : (s.setFlags f).isDevice k = s.isDevice k := rfl
@[simp] theorem State.setFlags_isAdmitted (s : State) (f : Flags) (k : Nat) : (s.setFlags f).isAdmitted k = s.isAdmitted k := rfl

/-! ### setRfp -/

@[simp] theorem State.setRfp_banks (s : State) (v : BitVec 3) : (s.setRfp v).banks = s.banks := rfl
@[simp] theorem State.setRfp_xix (s : State) (v : BitVec 3) : (s.setRfp v).xix = s.xix := rfl
@[simp] theorem State.setRfp_xiy (s : State) (v : BitVec 3) : (s.setRfp v).xiy = s.xiy := rfl
@[simp] theorem State.setRfp_xiz (s : State) (v : BitVec 3) : (s.setRfp v).xiz = s.xiz := rfl
@[simp] theorem State.setRfp_xsp (s : State) (v : BitVec 3) : (s.setRfp v).xsp = s.xsp := rfl
@[simp] theorem State.setRfp_pc (s : State) (v : BitVec 3) : (s.setRfp v).pc = s.pc := rfl
@[simp] theorem State.setRfp_rfp (s : State) (v : BitVec 3) : (s.setRfp v).rfp = v := rfl
@[simp] theorem State.setRfp_iff (s : State) (v : BitVec 3) : (s.setRfp v).iff = s.iff := rfl
@[simp] theorem State.setRfp_flags (s : State) (v : BitVec 3) : (s.setRfp v).flags = s.flags := rfl
@[simp] theorem State.setRfp_cr (s : State) (v : BitVec 3) : (s.setRfp v).cr = s.cr := rfl
@[simp] theorem State.setRfp_halted (s : State) (v : BitVec 3) : (s.setRfp v).halted = s.halted := rfl
@[simp] theorem State.setRfp_mem (s : State) (v : BitVec 3) : (s.setRfp v).mem = s.mem := rfl
@[simp] theorem State.setRfp_written (s : State) (v : BitVec 3) : (s.setRfp v).written = s.written := rfl
@[simp] theorem State.setRfp_freeIndex (s : State) (v : BitVec 3) : (s.setRfp v).freeIndex = s.freeIndex := rfl
@[simp] theorem State.setRfp_launch (s : State) (v : BitVec 3) : (s.setRfp v).launch = s.launch := rfl
@[simp] theorem State.setRfp_get32 (s : State) (v : BitVec 3) (p : PReg) : (s.setRfp v).get32 p = s.get32 p := by cases p <;> rfl
@[simp] theorem State.setRfp_byteAt (s : State) (v : BitVec 3) (k : Nat) : (s.setRfp v).byteAt k = s.byteAt k := rfl
@[simp] theorem State.setRfp_isDevice (s : State) (v : BitVec 3) (k : Nat) : (s.setRfp v).isDevice k = s.isDevice k := rfl
@[simp] theorem State.setRfp_isAdmitted (s : State) (v : BitVec 3) (k : Nat) : (s.setRfp v).isAdmitted k = s.isAdmitted k := rfl

/-! ### setHalted -/

@[simp] theorem State.setHalted_banks (s : State) : (s.setHalted).banks = s.banks := rfl
@[simp] theorem State.setHalted_xix (s : State) : (s.setHalted).xix = s.xix := rfl
@[simp] theorem State.setHalted_xiy (s : State) : (s.setHalted).xiy = s.xiy := rfl
@[simp] theorem State.setHalted_xiz (s : State) : (s.setHalted).xiz = s.xiz := rfl
@[simp] theorem State.setHalted_xsp (s : State) : (s.setHalted).xsp = s.xsp := rfl
@[simp] theorem State.setHalted_pc (s : State) : (s.setHalted).pc = s.pc := rfl
@[simp] theorem State.setHalted_rfp (s : State) : (s.setHalted).rfp = s.rfp := rfl
@[simp] theorem State.setHalted_iff (s : State) : (s.setHalted).iff = s.iff := rfl
@[simp] theorem State.setHalted_flags (s : State) : (s.setHalted).flags = s.flags := rfl
@[simp] theorem State.setHalted_cr (s : State) : (s.setHalted).cr = s.cr := rfl
@[simp] theorem State.setHalted_halted (s : State) : (s.setHalted).halted = true := rfl
@[simp] theorem State.setHalted_mem (s : State) : (s.setHalted).mem = s.mem := rfl
@[simp] theorem State.setHalted_written (s : State) : (s.setHalted).written = s.written := rfl
@[simp] theorem State.setHalted_freeIndex (s : State) : (s.setHalted).freeIndex = s.freeIndex := rfl
@[simp] theorem State.setHalted_launch (s : State) : (s.setHalted).launch = s.launch := rfl
@[simp] theorem State.setHalted_get32 (s : State) (p : PReg) : (s.setHalted).get32 p = s.get32 p := by cases p <;> rfl
@[simp] theorem State.setHalted_curBank (s : State) : (s.setHalted).curBank = s.curBank := rfl
@[simp] theorem State.setHalted_byteAt (s : State) (k : Nat) : (s.setHalted).byteAt k = s.byteAt k := rfl
@[simp] theorem State.setHalted_isDevice (s : State) (k : Nat) : (s.setHalted).isDevice k = s.isDevice k := rfl
@[simp] theorem State.setHalted_isAdmitted (s : State) (k : Nat) : (s.setHalted).isAdmitted k = s.isAdmitted k := rfl

/-! ### setCr -/

@[simp] theorem State.setCr_banks (s : State) (c : ControlRegs) : (s.setCr c).banks = s.banks := rfl
@[simp] theorem State.setCr_xix (s : State) (c : ControlRegs) : (s.setCr c).xix = s.xix := rfl
@[simp] theorem State.setCr_xiy (s : State) (c : ControlRegs) : (s.setCr c).xiy = s.xiy := rfl
@[simp] theorem State.setCr_xiz (s : State) (c : ControlRegs) : (s.setCr c).xiz = s.xiz := rfl
@[simp] theorem State.setCr_xsp (s : State) (c : ControlRegs) : (s.setCr c).xsp = s.xsp := rfl
@[simp] theorem State.setCr_pc (s : State) (c : ControlRegs) : (s.setCr c).pc = s.pc := rfl
@[simp] theorem State.setCr_rfp (s : State) (c : ControlRegs) : (s.setCr c).rfp = s.rfp := rfl
@[simp] theorem State.setCr_iff (s : State) (c : ControlRegs) : (s.setCr c).iff = s.iff := rfl
@[simp] theorem State.setCr_flags (s : State) (c : ControlRegs) : (s.setCr c).flags = s.flags := rfl
@[simp] theorem State.setCr_cr (s : State) (c : ControlRegs) : (s.setCr c).cr = c := rfl
@[simp] theorem State.setCr_halted (s : State) (c : ControlRegs) : (s.setCr c).halted = s.halted := rfl
@[simp] theorem State.setCr_mem (s : State) (c : ControlRegs) : (s.setCr c).mem = s.mem := rfl
@[simp] theorem State.setCr_written (s : State) (c : ControlRegs) : (s.setCr c).written = s.written := rfl
@[simp] theorem State.setCr_freeIndex (s : State) (c : ControlRegs) : (s.setCr c).freeIndex = s.freeIndex := rfl
@[simp] theorem State.setCr_launch (s : State) (c : ControlRegs) : (s.setCr c).launch = s.launch := rfl
@[simp] theorem State.setCr_get32 (s : State) (c : ControlRegs) (p : PReg) : (s.setCr c).get32 p = s.get32 p := by cases p <;> rfl
@[simp] theorem State.setCr_curBank (s : State) (c : ControlRegs) : (s.setCr c).curBank = s.curBank := rfl
@[simp] theorem State.setCr_byteAt (s : State) (c : ControlRegs) (k : Nat) : (s.setCr c).byteAt k = s.byteAt k := rfl
@[simp] theorem State.setCr_isDevice (s : State) (c : ControlRegs) (k : Nat) : (s.setCr c).isDevice k = s.isDevice k := rfl
@[simp] theorem State.setCr_isAdmitted (s : State) (c : ControlRegs) (k : Nat) : (s.setCr c).isAdmitted k = s.isAdmitted k := rfl

/-! ### setFreeIndex -/

@[simp] theorem State.setFreeIndex_banks (s : State) (n : Nat) : (s.setFreeIndex n).banks = s.banks := rfl
@[simp] theorem State.setFreeIndex_xix (s : State) (n : Nat) : (s.setFreeIndex n).xix = s.xix := rfl
@[simp] theorem State.setFreeIndex_xiy (s : State) (n : Nat) : (s.setFreeIndex n).xiy = s.xiy := rfl
@[simp] theorem State.setFreeIndex_xiz (s : State) (n : Nat) : (s.setFreeIndex n).xiz = s.xiz := rfl
@[simp] theorem State.setFreeIndex_xsp (s : State) (n : Nat) : (s.setFreeIndex n).xsp = s.xsp := rfl
@[simp] theorem State.setFreeIndex_pc (s : State) (n : Nat) : (s.setFreeIndex n).pc = s.pc := rfl
@[simp] theorem State.setFreeIndex_rfp (s : State) (n : Nat) : (s.setFreeIndex n).rfp = s.rfp := rfl
@[simp] theorem State.setFreeIndex_iff (s : State) (n : Nat) : (s.setFreeIndex n).iff = s.iff := rfl
@[simp] theorem State.setFreeIndex_flags (s : State) (n : Nat) : (s.setFreeIndex n).flags = s.flags := rfl
@[simp] theorem State.setFreeIndex_cr (s : State) (n : Nat) : (s.setFreeIndex n).cr = s.cr := rfl
@[simp] theorem State.setFreeIndex_halted (s : State) (n : Nat) : (s.setFreeIndex n).halted = s.halted := rfl
@[simp] theorem State.setFreeIndex_mem (s : State) (n : Nat) : (s.setFreeIndex n).mem = s.mem := rfl
@[simp] theorem State.setFreeIndex_written (s : State) (n : Nat) : (s.setFreeIndex n).written = s.written := rfl
@[simp] theorem State.setFreeIndex_freeIndex (s : State) (n : Nat) : (s.setFreeIndex n).freeIndex = n := rfl
@[simp] theorem State.setFreeIndex_launch (s : State) (n : Nat) : (s.setFreeIndex n).launch = s.launch := rfl
@[simp] theorem State.setFreeIndex_get32 (s : State) (n : Nat) (p : PReg) : (s.setFreeIndex n).get32 p = s.get32 p := by cases p <;> rfl
@[simp] theorem State.setFreeIndex_curBank (s : State) (n : Nat) : (s.setFreeIndex n).curBank = s.curBank := rfl
@[simp] theorem State.setFreeIndex_byteAt (s : State) (n : Nat) (k : Nat) : (s.setFreeIndex n).byteAt k = s.byteAt k := rfl
@[simp] theorem State.setFreeIndex_isDevice (s : State) (n : Nat) (k : Nat) : (s.setFreeIndex n).isDevice k = s.isDevice k := rfl
@[simp] theorem State.setFreeIndex_isAdmitted (s : State) (n : Nat) (k : Nat) : (s.setFreeIndex n).isAdmitted k = s.isAdmitted k := rfl

/-! ### markWritten -/

@[simp] theorem State.markWritten_banks (s : State) (a : Addr) : (s.markWritten a).banks = s.banks := rfl
@[simp] theorem State.markWritten_xix (s : State) (a : Addr) : (s.markWritten a).xix = s.xix := rfl
@[simp] theorem State.markWritten_xiy (s : State) (a : Addr) : (s.markWritten a).xiy = s.xiy := rfl
@[simp] theorem State.markWritten_xiz (s : State) (a : Addr) : (s.markWritten a).xiz = s.xiz := rfl
@[simp] theorem State.markWritten_xsp (s : State) (a : Addr) : (s.markWritten a).xsp = s.xsp := rfl
@[simp] theorem State.markWritten_pc (s : State) (a : Addr) : (s.markWritten a).pc = s.pc := rfl
@[simp] theorem State.markWritten_rfp (s : State) (a : Addr) : (s.markWritten a).rfp = s.rfp := rfl
@[simp] theorem State.markWritten_iff (s : State) (a : Addr) : (s.markWritten a).iff = s.iff := rfl
@[simp] theorem State.markWritten_flags (s : State) (a : Addr) : (s.markWritten a).flags = s.flags := rfl
@[simp] theorem State.markWritten_cr (s : State) (a : Addr) : (s.markWritten a).cr = s.cr := rfl
@[simp] theorem State.markWritten_halted (s : State) (a : Addr) : (s.markWritten a).halted = s.halted := rfl
@[simp] theorem State.markWritten_mem (s : State) (a : Addr) : (s.markWritten a).mem = s.mem := rfl
@[simp] theorem State.markWritten_written (s : State) (a : Addr) : (s.markWritten a).written = s.written.mark a.toNat := rfl
@[simp] theorem State.markWritten_freeIndex (s : State) (a : Addr) : (s.markWritten a).freeIndex = s.freeIndex := rfl
@[simp] theorem State.markWritten_launch (s : State) (a : Addr) : (s.markWritten a).launch = s.launch := rfl
@[simp] theorem State.markWritten_get32 (s : State) (a : Addr) (p : PReg) : (s.markWritten a).get32 p = s.get32 p := by cases p <;> rfl
@[simp] theorem State.markWritten_curBank (s : State) (a : Addr) : (s.markWritten a).curBank = s.curBank := rfl
@[simp] theorem State.markWritten_isDevice (s : State) (a : Addr) (k : Nat) : (s.markWritten a).isDevice k = s.isDevice k := rfl
@[simp] theorem State.markWritten_isAdmitted (s : State) (a : Addr) (k : Nat) : (s.markWritten a).isAdmitted k = s.isAdmitted k := rfl
@[simp] theorem State.markWritten_byteAt (s : State) (a : Addr) (k : Nat) : (s.markWritten a).byteAt k = s.byteAt k := rfl

/-! ### storeByte -/

@[simp] theorem State.storeByte_banks (s : State) (a : Addr) (b : Byte) : (s.storeByte a b).banks = s.banks := rfl
@[simp] theorem State.storeByte_xix (s : State) (a : Addr) (b : Byte) : (s.storeByte a b).xix = s.xix := rfl
@[simp] theorem State.storeByte_xiy (s : State) (a : Addr) (b : Byte) : (s.storeByte a b).xiy = s.xiy := rfl
@[simp] theorem State.storeByte_xiz (s : State) (a : Addr) (b : Byte) : (s.storeByte a b).xiz = s.xiz := rfl
@[simp] theorem State.storeByte_xsp (s : State) (a : Addr) (b : Byte) : (s.storeByte a b).xsp = s.xsp := rfl
@[simp] theorem State.storeByte_pc (s : State) (a : Addr) (b : Byte) : (s.storeByte a b).pc = s.pc := rfl
@[simp] theorem State.storeByte_rfp (s : State) (a : Addr) (b : Byte) : (s.storeByte a b).rfp = s.rfp := rfl
@[simp] theorem State.storeByte_iff (s : State) (a : Addr) (b : Byte) : (s.storeByte a b).iff = s.iff := rfl
@[simp] theorem State.storeByte_flags (s : State) (a : Addr) (b : Byte) : (s.storeByte a b).flags = s.flags := rfl
@[simp] theorem State.storeByte_cr (s : State) (a : Addr) (b : Byte) : (s.storeByte a b).cr = s.cr := rfl
@[simp] theorem State.storeByte_halted (s : State) (a : Addr) (b : Byte) : (s.storeByte a b).halted = s.halted := rfl
@[simp] theorem State.storeByte_mem (s : State) (a : Addr) (b : Byte) : (s.storeByte a b).mem = s.mem.write a.toNat b := rfl
@[simp] theorem State.storeByte_written (s : State) (a : Addr) (b : Byte) : (s.storeByte a b).written = s.written.mark a.toNat := rfl
@[simp] theorem State.storeByte_freeIndex (s : State) (a : Addr) (b : Byte) : (s.storeByte a b).freeIndex = s.freeIndex := rfl
@[simp] theorem State.storeByte_launch (s : State) (a : Addr) (b : Byte) : (s.storeByte a b).launch = s.launch := rfl
@[simp] theorem State.storeByte_get32 (s : State) (a : Addr) (b : Byte) (p : PReg) : (s.storeByte a b).get32 p = s.get32 p := by cases p <;> rfl
@[simp] theorem State.storeByte_curBank (s : State) (a : Addr) (b : Byte) : (s.storeByte a b).curBank = s.curBank := rfl
@[simp] theorem State.storeByte_isDevice (s : State) (a : Addr) (b : Byte) (k : Nat) : (s.storeByte a b).isDevice k = s.isDevice k := rfl
@[simp] theorem State.storeByte_isAdmitted (s : State) (a : Addr) (b : Byte) (k : Nat) : (s.storeByte a b).isAdmitted k = s.isAdmitted k := rfl

/-! ### set32 -/

@[simp] theorem State.set32_pc (s : State) (p : PReg) (v : Long) : (s.set32 p v).pc = s.pc := by cases p <;> rfl
@[simp] theorem State.set32_rfp (s : State) (p : PReg) (v : Long) : (s.set32 p v).rfp = s.rfp := by cases p <;> rfl
@[simp] theorem State.set32_iff (s : State) (p : PReg) (v : Long) : (s.set32 p v).iff = s.iff := by cases p <;> rfl
@[simp] theorem State.set32_flags (s : State) (p : PReg) (v : Long) : (s.set32 p v).flags = s.flags := by cases p <;> rfl
@[simp] theorem State.set32_cr (s : State) (p : PReg) (v : Long) : (s.set32 p v).cr = s.cr := by cases p <;> rfl
@[simp] theorem State.set32_halted (s : State) (p : PReg) (v : Long) : (s.set32 p v).halted = s.halted := by cases p <;> rfl
@[simp] theorem State.set32_mem (s : State) (p : PReg) (v : Long) : (s.set32 p v).mem = s.mem := by cases p <;> rfl
@[simp] theorem State.set32_written (s : State) (p : PReg) (v : Long) : (s.set32 p v).written = s.written := by cases p <;> rfl
@[simp] theorem State.set32_freeIndex (s : State) (p : PReg) (v : Long) : (s.set32 p v).freeIndex = s.freeIndex := by cases p <;> rfl
@[simp] theorem State.set32_launch (s : State) (p : PReg) (v : Long) : (s.set32 p v).launch = s.launch := by cases p <;> rfl
@[simp] theorem State.set32_curBank (s : State) (p : PReg) (v : Long) : (s.set32 p v).curBank = s.curBank := by cases p <;> rfl
@[simp] theorem State.set32_byteAt (s : State) (p : PReg) (v : Long) (k : Nat) : (s.set32 p v).byteAt k = s.byteAt k := by cases p <;> rfl
@[simp] theorem State.set32_isDevice (s : State) (p : PReg) (v : Long) (k : Nat) : (s.set32 p v).isDevice k = s.isDevice k := by cases p <;> rfl
@[simp] theorem State.set32_isAdmitted (s : State) (p : PReg) (v : Long) (k : Nat) : (s.set32 p v).isAdmitted k = s.isAdmitted k := by cases p <;> rfl

end Sys2Proof.Machine
end

