-- ==== Sys2Proof/Laws/Seq.lean ====
section
/-! SUPPORT. What sequencing and the two ends of an instruction can do. -/

namespace Sys2Proof.Machine

variable {α β : Type}

@[simp] theorem andThen_next (a : α) (f : α → Result β) : andThen (.next a) f = f a := rfl
@[simp] theorem andThen_fault (e : Fault) (f : α → Result β) :
    andThen (.fault e) f = .fault e := rfl
@[simp] theorem andThen_refused (e : Refusal) (f : α → Result β) :
    andThen (.refused e) f = .refused e := rfl

/-- A sequence answers a next state exactly when both parts do. -/
theorem andThen_eq_next {r : Result α} {f : α → Result β} {b : β} :
    andThen r f = .next b ↔ ∃ a, r = .next a ∧ f a = .next b := by
  cases r <;> simp [andThen]

/-- `requireNext` goes on when `next` fits, and refuses otherwise. -/
theorem requireNext_eq_next {len : Nat} {s t : State} {k : Result State} :
    requireNext len s k = .next t ↔ s.pc.toNat + len < Config.addressSpace ∧ k = .next t := by
  unfold requireNext
  split <;> simp [*]

theorem requireNext_of_fits {len : Nat} {s : State} {k : Result State}
    (h : s.pc.toNat + len < Config.addressSpace) : requireNext len s k = k := if_pos h

theorem requireNext_of_not_fits {len : Nat} {s : State} {k : Result State}
    (h : Config.addressSpace ≤ s.pc.toNat + len) :
    requireNext len s k = .refused (.nextOutside s.pc) := if_neg (Nat.not_lt.mpr h)

theorem finish_of_not_fits {len : Nat} {s : State} (h : Config.addressSpace ≤ s.pc.toNat + len) :
    finish len s = .refused (.nextOutside s.pc) := if_neg (Nat.not_lt.mpr h)

/-- `finish` moves the pc past the instruction, or refuses. -/
theorem finish_eq_next {len : Nat} {s t : State} :
    finish len s = .next t ↔
      s.pc.toNat + len < Config.addressSpace ∧ t = s.setPc (BitVec.ofNat 24 (s.pc.toNat + len)) := by
  unfold finish
  split <;> simp [*, eq_comm]

theorem finish_of_fits {len : Nat} {s : State} (h : s.pc.toNat + len < Config.addressSpace) :
    finish len s = .next (s.setPc (BitVec.ofNat 24 (s.pc.toNat + len))) := by
  simp [finish, h]

/-- `jumpTo` sets the pc and nothing else, or refuses. -/
theorem jumpTo_eq_next {target : Int} {s t : State} :
    jumpTo target s = .next t ↔
      (0 ≤ target ∧ target < Config.addressSpace) ∧ t = s.setPc (BitVec.ofInt 24 target) := by
  unfold jumpTo
  split <;> simp [*, eq_comm]

end Sys2Proof.Machine
end

