-- ==== Sys2Proof/Laws/Access.lean ====
section
/-! SUPPORT. What a memory access can do: one lemma for each access operation, and when it completes (R51 to R57, R212). -/

namespace Sys2Proof.Machine

theorem byteAddr_zero (a : Addr) : byteAddr a 0 = a.toNat := by simp [byteAddr]

theorem byteAddr_succ (a : Addr) (i : Nat) : byteAddr (a + 1#24) i = byteAddr a (i + 1) := by
  unfold byteAddr
  congr 1
  apply BitVec.eq_of_toNat_eq
  simp [BitVec.toNat_add, BitVec.toNat_ofNat]
  omega

/-- Two bytes of one access of at most four bytes lie at different addresses. -/
theorem byteAddr_inj {a : Addr} {i j : Nat} (hi : i < 4) (hj : j < 4) (h : byteAddr a i = byteAddr a j) :
    i = j := by
  unfold byteAddr at h
  have := a.isLt
  simp only [BitVec.toNat_add, BitVec.toNat_ofNat] at h
  omega

theorem byteAddr_lt (a : Addr) (i : Nat) : byteAddr a i < Config.addressSpace := by
  unfold byteAddr Config.addressSpace
  exact BitVec.isLt _

/-! ### Reading -/

/-- A read of one byte draws a free value, or gives the byte of memory; it changes only the number
of draws. -/
theorem readByte_eq_next {a : Addr} {s : State} {b : Byte} {t : State} (h : readByte a s = .next (b, t)) :
    ∃ k, t = s.setFreeIndex (s.freeIndex + k) ∧
      (s.isDevice a.toNat = false → k = 0 ∧ b = s.byteAt a.toNat ∧ s.isAdmitted a.toNat = true) := by
  unfold readByte at h
  split at h
  · rename_i hd
    obtain ⟨rfl, rfl⟩ : _ ∧ _ := by simpa using h
    exact ⟨1, rfl, by simp [hd]⟩
  · rename_i hd
    split at h
    · rename_i ha
      obtain ⟨rfl, rfl⟩ : _ ∧ _ := by simpa using h
      exact ⟨0, rfl, fun _ => ⟨rfl, rfl, ha⟩⟩
    · cases h

theorem readByte_completes {a : Addr} {s : State}
    (h : s.isDevice a.toNat = true ∨ s.isAdmitted a.toNat = true) : ∃ p, readByte a s = .next p := by
  unfold readByte
  split
  · exact ⟨_, rfl⟩
  · rename_i hd
    simp [h.resolve_left hd]

theorem readBytes_eq_next {n : Nat} {a : Addr} {s : State} {bs : List Byte} {t : State}
    (h : readBytes n a s = .next (bs, t)) :
    ∃ k, t = s.setFreeIndex (s.freeIndex + k) ∧ bs.length = n ∧
      ∀ i (hi : i < bs.length), s.isDevice (byteAddr a i) = false → bs[i] = s.byteAt (byteAddr a i) := by
  induction n generalizing a s bs t with
  | zero =>
    obtain ⟨rfl, rfl⟩ : _ ∧ _ := by simpa [readBytes] using h
    exact ⟨0, rfl, rfl, by simp⟩
  | succ n ih =>
    rw [readBytes, andThen_eq_next] at h
    obtain ⟨⟨b, s1⟩, hb, h⟩ := h
    rw [andThen_eq_next] at h
    obtain ⟨⟨rest, s2⟩, hr, h⟩ := h
    obtain ⟨rfl, rfl⟩ : _ ∧ _ := by simpa using h
    obtain ⟨k1, rfl, hb1⟩ := readByte_eq_next hb
    obtain ⟨k2, rfl, hlen, hr2⟩ := ih hr
    refine ⟨k1 + k2, by simp [State.setFreeIndex, Nat.add_assoc], by simp [hlen], ?_⟩
    intro i hi hd
    cases i with
    | zero => simpa [byteAddr_zero] using (hb1 (by simpa [byteAddr_zero] using hd)).2.1
    | succ i =>
      have := hr2 i (by simpa using hi) (by simpa [byteAddr_succ] using hd)
      simpa [byteAddr_succ] using this

theorem readBytes_completes {n : Nat} {a : Addr} {s : State} (h : Reachable a n s) :
    ∃ p, readBytes n a s = .next p := by
  induction n generalizing a s with
  | zero => exact ⟨_, rfl⟩
  | succ n ih =>
    have h0 := h 0 (by omega)
    rw [byteAddr_zero] at h0
    obtain ⟨⟨b, s1⟩, hb⟩ := readByte_completes h0
    obtain ⟨k, hs1, -⟩ := readByte_eq_next hb
    have hrest : Reachable (a + 1#24) n s1 := by
      intro i hi
      subst hs1
      simpa [byteAddr_succ] using h (i + 1) (by omega)
    obtain ⟨p, hp⟩ := ih hrest
    exact ⟨(b :: p.1, p.2), by simp [readBytes, hb, hp]⟩

/-- Without a device among them, a read gives the bytes of memory and changes nothing. -/
theorem readBytes_plain {n : Nat} {a : Addr} {s : State} (h : Plain a n s) :
    readBytes n a s = .next ((List.range n).map fun i => s.byteAt (byteAddr a i), s) := by
  induction n generalizing a with
  | zero => rfl
  | succ n ih =>
    have h0 := h 0 (by omega)
    rw [byteAddr_zero] at h0
    have hb : readByte a s = .next (s.byteAt a.toNat, s) := by simp [readByte, h0.1, h0.2]
    have hrest : Plain (a + 1#24) n s := fun i hi => by simpa [byteAddr_succ] using h (i + 1) (by omega)
    simp [readBytes, hb, ih hrest, List.range_succ_eq_map, byteAddr_succ, byteAddr_zero]

/-! ### Byte order -/

theorem leNat_lt (bs : List Byte) : leNat bs < 256 ^ bs.length := by
  induction bs with
  | nil => simp [leNat]
  | cons b rest ih =>
    have := b.isLt
    simp only [leNat, List.length_cons, Nat.pow_succ]
    omega

/-- Byte `i` of the number is byte `i` of the list. -/
theorem leNat_byte (bs : List Byte) (i : Nat) (hi : i < bs.length) :
    leNat bs / 256 ^ i % 256 = (bs[i]).toNat := by
  induction bs generalizing i with
  | nil => simp at hi
  | cons b rest ih =>
    have hb := b.isLt
    cases i with
    | zero => simp [leNat]; omega
    | succ i =>
      have := ih i (by simpa using hi)
      simp only [leNat, List.getElem_cons_succ, Nat.pow_succ, Nat.mul_comm (256 ^ i) 256,
        ← Nat.div_div_eq_div_mul]
      rw [show (b.toNat + 256 * leNat rest) / 256 = leNat rest by omega]
      exact this

theorem leBytes_length (k v : Nat) : (leBytes k v).length = k := by
  induction k generalizing v with
  | zero => rfl
  | succ k ih => simp [leBytes, ih]

theorem leBytes_getElem (k v i : Nat) (hi : i < (leBytes k v).length) :
    (leBytes k v)[i] = BitVec.ofNat 8 (v / 256 ^ i) := by
  induction k generalizing v i with
  | zero => simp [leBytes] at hi
  | succ k ih =>
    cases i with
    | zero => simp [leBytes]
    | succ i =>
      simp only [leBytes, List.getElem_cons_succ]
      rw [ih _ _ (by simpa [leBytes] using hi), Nat.div_div_eq_div_mul, Nat.pow_succ, Nat.mul_comm]

theorem leBytes_leNat (bs : List Byte) : leBytes bs.length (leNat bs) = bs := by
  induction bs with
  | nil => rfl
  | cons b rest ih =>
    have hb := b.isLt
    simp only [List.length_cons, leBytes, leNat]
    rw [show (b.toNat + 256 * leNat rest) / 256 = leNat rest by omega, ih]
    congr 1
    apply BitVec.eq_of_toNat_eq
    simp only [BitVec.toNat_ofNat]
    omega

theorem leNat_leBytes {k v : Nat} (h : v < 256 ^ k) : leNat (leBytes k v) = v := by
  induction k generalizing v with
  | zero => simp [leBytes, leNat] at *; omega
  | succ k ih =>
    have : v / 256 < 256 ^ k := by
      rw [Nat.div_lt_iff_lt_mul (by norm_num)]
      simpa [Nat.pow_succ] using h
    simp only [leBytes, leNat, BitVec.toNat_ofNat, ih this]
    omega

theorem size_pow_bits (sz : Size) : 256 ^ sz.bytes = 2 ^ sz.bits := by cases sz <;> rfl

/-- Byte `i` of a value, as a bit slice. -/
theorem extract_byte {n : Nat} (v : BitVec n) (i : Nat) :
    v.extractLsb' (8 * i) 8 = BitVec.ofNat 8 (v.toNat / 256 ^ i) := by
  apply BitVec.eq_of_toNat_eq
  simp only [BitVec.extractLsb'_toNat, BitVec.toNat_ofNat, Nat.shiftRight_eq_div_pow]
  rw [Nat.pow_mul]

/-- What a read of a value can do: it draws free values for device bytes, changes nothing else, and
gives what memory holds. -/
theorem readMem_eq_next {sz : Size} {a : Addr} {s : State} {v : BitVec sz.bits} {t : State}
    (h : readMem sz a s = .next (v, t)) :
    ∃ k, t = s.setFreeIndex (s.freeIndex + k) ∧ Holds sz a s v := by
  rw [readMem, andThen_eq_next] at h
  obtain ⟨⟨bs, s1⟩, hb, h⟩ := h
  obtain ⟨rfl, rfl⟩ : _ ∧ _ := by simpa using h
  obtain ⟨k, rfl, hlen, hby⟩ := readBytes_eq_next hb
  refine ⟨k, rfl, fun i hi hd => ?_⟩
  have hi' : i < bs.length := by omega
  rw [← hby i hi' hd, extract_byte]
  apply BitVec.eq_of_toNat_eq
  have hlt : leNat bs < 2 ^ sz.bits := by
    rw [← size_pow_bits, ← hlen]
    exact leNat_lt bs
  simp only [BitVec.toNat_ofNat, Nat.mod_eq_of_lt hlt]
  exact leNat_byte bs i hi'

theorem readMem_completes {sz : Size} {a : Addr} {s : State} (h : Reachable a sz.bytes s) :
    ∃ v k, readMem sz a s = .next (v, s.setFreeIndex (s.freeIndex + k)) ∧ Holds sz a s v := by
  obtain ⟨⟨bs, t⟩, hp⟩ := readBytes_completes h
  have hm : readMem sz a s = .next (BitVec.ofNat sz.bits (leNat bs), t) := by simp [readMem, hp]
  obtain ⟨k, rfl, hv⟩ := readMem_eq_next hm
  exact ⟨_, k, hm, hv⟩

theorem Plain.reachable {a : Addr} {n : Nat} {s : State} (h : Plain a n s) : Reachable a n s :=
  fun i hi => .inr (h i hi).2

/-- Memory holds one value at an address, when no byte of it is a device's. -/
theorem Holds.unique {sz : Size} {a : Addr} {s : State} {v w : BitVec sz.bits}
    (hp : ∀ i < sz.bytes, s.isDevice (byteAddr a i) = false) (hv : Holds sz a s v) (hw : Holds sz a s w) :
    v = w := by
  apply BitVec.eq_of_getLsbD_eq
  intro i hi
  have hb : i / 8 < sz.bytes := by cases sz <;> simp only [Size.bits, Size.bytes] at * <;> omega
  have h1 := (hv _ hb (hp _ hb)).trans (hw _ hb (hp _ hb)).symm
  have h2 := congrArg (fun x => x.getLsbD (i % 8)) h1
  simpa [Nat.mod_lt, show 8 * (i / 8) + i % 8 = i by omega] using h2

theorem readMem_plain {sz : Size} {a : Addr} {s : State} (h : Plain a sz.bytes s) :
    ∃ v, readMem sz a s = .next (v, s) ∧ Holds sz a s v := by
  have hp := readBytes_plain h
  have hm : readMem sz a s = .next (BitVec.ofNat sz.bits
      (leNat ((List.range sz.bytes).map fun i => s.byteAt (byteAddr a i))), s) := by
    simp [readMem, hp]
  obtain ⟨k, -, hv⟩ := readMem_eq_next hm
  exact ⟨_, hm, hv⟩

/-! ### Writing -/

theorem writeByte_eq_next {a : Addr} {b : Byte} {s t : State} (h : writeByte a b s = .next t) :
    (s.isDevice a.toNat = true ∧ t = s.markWritten a) ∨
      (s.isDevice a.toNat = false ∧ s.isAdmitted a.toNat = true ∧ t = s.storeByte a b) := by
  unfold writeByte at h
  split at h
  · rename_i hd
    exact .inl ⟨hd, by simpa using h.symm⟩
  · rename_i hd
    split at h
    · rename_i ha
      exact .inr ⟨by simpa using hd, ha, by simpa using h.symm⟩
    · cases h

theorem writeByte_completes {a : Addr} (b : Byte) {s : State}
    (h : s.isDevice a.toNat = true ∨ s.isAdmitted a.toNat = true) : ∃ t, writeByte a b s = .next t := by
  unfold writeByte
  split
  · exact ⟨_, rfl⟩
  · rename_i hd
    simp [h.resolve_left hd]

/-- `t` is `s` but for memory and the written set. -/
theorem writeBytes_only {bs : List Byte} {a : Addr} {s t : State} (h : writeBytes bs a s = .next t) :
    t = { s with mem := t.mem, written := t.written } := by
  induction bs generalizing a s with
  | nil =>
    obtain rfl : s = t := by simpa [writeBytes] using h
    rfl
  | cons b rest ih =>
    rw [writeBytes, andThen_eq_next] at h
    obtain ⟨s1, h1, h⟩ := h
    have := ih h
    rcases writeByte_eq_next h1 with ⟨-, rfl⟩ | ⟨-, -, rfl⟩
    · exact this
    · exact this

theorem writeBytes_completes {bs : List Byte} {a : Addr} {s : State} (h : Reachable a bs.length s) :
    ∃ t, writeBytes bs a s = .next t := by
  induction bs generalizing a s with
  | nil => exact ⟨_, rfl⟩
  | cons b rest ih =>
    have h0 := h 0 (by simp)
    rw [byteAddr_zero] at h0
    obtain ⟨s1, h1⟩ := writeByte_completes b h0
    have hrest : Reachable (a + 1#24) rest.length s1 := by
      intro i hi
      rw [byteAddr_succ]
      have := h (i + 1) (by simpa using hi)
      rcases writeByte_eq_next h1 with ⟨-, rfl⟩ | ⟨-, -, rfl⟩ <;> simpa using this
    obtain ⟨t, ht⟩ := ih hrest
    exact ⟨t, by simp [writeBytes, h1, ht]⟩

/-- What a store of at most four bytes does to one byte of memory and to the written set. -/
theorem writeBytes_bytes {bs : List Byte} {a : Addr} {s t : State} (hlen : bs.length ≤ 4)
    (h : writeBytes bs a s = .next t) :
    (∀ i (hi : i < bs.length), s.isDevice (byteAddr a i) = false → t.byteAt (byteAddr a i) = bs[i]) ∧
      (∀ b, (∀ i < bs.length, byteAddr a i = b → s.isDevice b = true) → t.byteAt b = s.byteAt b) ∧
      (∀ b, b ∈ t.written ↔ b ∈ s.written ∨ ∃ i < bs.length, byteAddr a i = b) := by
  induction bs generalizing a s with
  | nil =>
    obtain rfl : s = t := by simpa [writeBytes] using h
    simp
  | cons b rest ih =>
    rw [writeBytes, andThen_eq_next] at h
    obtain ⟨s1, h1, h⟩ := h
    have hlen' : rest.length ≤ 3 := by simp at hlen; omega
    obtain ⟨ih1, ih2, ih3⟩ := ih (by omega) h
    have hdev : ∀ k, s1.isDevice k = s.isDevice k := by
      rcases writeByte_eq_next h1 with ⟨-, rfl⟩ | ⟨-, -, rfl⟩ <;> simp
    refine ⟨?_, ?_, ?_⟩
    · intro i hi hd
      cases i with
      | zero =>
        rw [byteAddr_zero] at hd ⊢
        rcases writeByte_eq_next h1 with ⟨hd', -⟩ | ⟨-, -, rfl⟩
        · simp [hd] at hd'
        · rw [ih2]
          · simp [State.byteAt, Memory.read_write_self]
          · intro i hi' he
            rw [byteAddr_succ, ← byteAddr_zero a] at he
            have := byteAddr_inj (a := a) (by omega) (by omega) he
            omega
      | succ i =>
        have := ih1 i (by simpa using hi) (by rw [hdev, byteAddr_succ]; exact hd)
        simpa [byteAddr_succ] using this
    · intro c hc
      rw [ih2 c]
      · rcases writeByte_eq_next h1 with ⟨-, rfl⟩ | ⟨hd, -, rfl⟩
        · rfl
        · have : c ≠ a.toNat := by
            intro e
            have := hc 0 (by simp) (by rw [byteAddr_zero, e])
            simp [e, hd] at this
          simp [State.byteAt, Memory.read_write_ne _ _ this]
      · intro i hi he
        rw [hdev]
        exact hc (i + 1) (by simpa using hi) (by rw [← byteAddr_succ]; exact he)
    · intro c
      rw [ih3 c]
      have key : c ∈ s1.written ↔ c ∈ s.written ∨ c = a.toNat := by
        rcases writeByte_eq_next h1 with ⟨-, rfl⟩ | ⟨-, -, rfl⟩ <;> simp [Written.mem_mark]
      simp only [key, byteAddr_succ, List.length_cons]
      constructor
      · rintro ((h | h) | ⟨i, hi, h⟩)
        · exact .inl h
        · exact .inr ⟨0, by omega, by rw [byteAddr_zero]; exact h.symm⟩
        · exact .inr ⟨i + 1, by omega, h⟩
      · rintro (h | ⟨i, hi, h⟩)
        · exact .inl (.inl h)
        · cases i with
          | zero => exact .inl (.inr (by rw [← byteAddr_zero]; exact h.symm))
          | succ i => exact .inr ⟨i, by omega, h⟩

theorem size_bytes_le (sz : Size) : sz.bytes ≤ 4 := by cases sz <;> simp [Size.bytes]

/-- What a store of a value can do: it changes memory by exactly that store, and nothing else but
the written set. -/
theorem writeMem_eq_next {sz : Size} {a : Addr} {v : BitVec sz.bits} {s t : State}
    (h : writeMem sz a v s = .next t) :
    Stores sz a v s t ∧ t = { s with mem := t.mem, written := t.written } := by
  have hl : (leBytes sz.bytes v.toNat).length = sz.bytes := leBytes_length _ _
  obtain ⟨h1, h2, h3⟩ := writeBytes_bytes (by rw [hl]; exact size_bytes_le sz) h
  rw [hl] at h2 h3
  refine ⟨⟨fun i hi hd => ?_, h2, h3⟩, writeBytes_only h⟩
  rw [h1 i (by omega) hd, leBytes_getElem, extract_byte]

theorem writeMem_completes {sz : Size} {a : Addr} (v : BitVec sz.bits) {s : State}
    (h : Reachable a sz.bytes s) :
    ∃ t, writeMem sz a v s = .next t ∧ Stores sz a v s t ∧
      t = { s with mem := t.mem, written := t.written } := by
  obtain ⟨t, ht⟩ := writeBytes_completes (bs := leBytes sz.bytes v.toNat) (a := a) (s := s)
    (by rw [leBytes_length]; exact h)
  exact ⟨t, ht, writeMem_eq_next ht⟩

/-- A store keeps the canonical form of memory and of the written set. -/
theorem writeBytes_wf {bs : List Byte} {a : Addr} {s t : State} (h : writeBytes bs a s = .next t)
    (hm : s.mem.wf = true) (hw : s.written.wf = true) : t.mem.wf = true ∧ t.written.wf = true := by
  induction bs generalizing a s with
  | nil =>
    obtain rfl : s = t := by simpa [writeBytes] using h
    exact ⟨hm, hw⟩
  | cons b rest ih =>
    rw [writeBytes, andThen_eq_next] at h
    obtain ⟨s1, h1, h⟩ := h
    rcases writeByte_eq_next h1 with ⟨-, rfl⟩ | ⟨-, -, rfl⟩
    · exact ih h hm (Written.mark_wf hw a.isLt)
    · exact ih h (Memory.write_wf _ hm a.isLt) (Written.mark_wf hw a.isLt)

end Sys2Proof.Machine
end

