-- ==== Sys2Proof/Laws/Regs.lean ====
section
/-! SUPPORT. Register laws: reading a register after a write, in whole and in part (R23, R37). -/

namespace Sys2Proof.Machine

theorem Bank.get_put_same (b : Bank) (r : BankReg) (v : Long) : (b.put r v).get r = v := by
  cases r <;> rfl

theorem Bank.get_put_ne (b : Bank) {r q : BankReg} (v : Long) (h : q ≠ r) :
    (b.put r v).get q = b.get q := by
  cases r <;> cases q <;> first | rfl | exact absurd rfl h

@[simp] theorem State.get32_set32_same (s : State) (p : PReg) (v : Long) :
    (s.set32 p v).get32 p = v := by
  cases p <;> simp [State.get32, State.set32, Bank.get_put_same]

/-- A write of a 32-bit register leaves every other one as it was. -/
theorem State.get32_set32_ne (s : State) {p q : PReg} (v : Long) (h : q ≠ p) :
    (s.set32 p v).get32 q = s.get32 q := by
  cases p with
  | bank b r =>
    cases q with
    | bank c q =>
      by_cases hc : c = b
      · subst hc
        have hq : q ≠ r := fun e => h (by rw [e])
        simp [State.get32, State.set32, Bank.get_put_ne _ _ hq]
      · have : b.val ≠ c.val := fun e => hc (Fin.ext e.symm)
        simp [State.get32, State.set32, this]
    | _ => rfl
  | _ => cases q <;> first | rfl | exact absurd rfl h

theorem insertBits_getLsbD {n : Nat} (old : Long) (off : Nat) (v : BitVec n) {i : Nat} (hi : i < 32) :
    (insertBits old off v).getLsbD i =
      if off ≤ i ∧ i < off + n then v.getLsbD (i - off) else old.getLsbD i := by
  unfold insertBits
  simp only [BitVec.getLsbD_or, BitVec.getLsbD_and, BitVec.getLsbD_not, BitVec.getLsbD_shiftLeft,
    BitVec.getLsbD_setWidth, BitVec.getLsbD_allOnes, hi, decide_true, Bool.true_and]
  by_cases h1 : i < off
  · have : ¬ (off ≤ i ∧ i < off + n) := by omega
    simp [h1, this]
  · have h32 : i - off < 32 := by omega
    by_cases h2 : i < off + n
    · have : off ≤ i ∧ i < off + n := by omega
      have h3 : i - off < n := by omega
      simp [h1, this, h32, h3]
    · have : ¬ (off ≤ i ∧ i < off + n) := by omega
      have h3 : ¬ i - off < n := by omega
      have hv : v.getLsbD (i - off) = false := BitVec.getLsbD_of_ge v _ (by omega)
      simp [h1, this, h3, hv]

/-- A write of a register operand does what R23 says: it sets that register, and every other bit of
every 32-bit register is as it was. -/
theorem writeSlot_setsReg {sz : Size} {x : Slot} (h : x.off + sz.bits ≤ 32) (v : BitVec sz.bits)
    (s : State) : SetsReg sz x v s (writeSlot sz x v s) where
  value := by
    apply BitVec.eq_of_getLsbD_eq
    intro i hi
    have h32 : x.off + i < 32 := by omega
    simp [readSlot, writeSlot, hi, insertBits_getLsbD _ _ _ h32]
  bits := by
    intro i hi hout
    have : ¬ (x.off ≤ i ∧ i < x.off + sz.bits) := by omega
    simp [writeSlot, insertBits_getLsbD _ _ _ hi, this]
  regs := fun p hp => State.get32_set32_ne s _ hp

/-- What a write of a register operand leaves alone beside the registers. -/
@[simp] theorem writeSlot_pc (sz : Size) (x : Slot) (v : BitVec sz.bits) (s : State) :
    (writeSlot sz x v s).pc = s.pc := by simp [writeSlot]
@[simp] theorem writeSlot_rfp (sz : Size) (x : Slot) (v : BitVec sz.bits) (s : State) :
    (writeSlot sz x v s).rfp = s.rfp := by simp [writeSlot]
@[simp] theorem writeSlot_iff (sz : Size) (x : Slot) (v : BitVec sz.bits) (s : State) :
    (writeSlot sz x v s).iff = s.iff := by simp [writeSlot]
@[simp] theorem writeSlot_flags (sz : Size) (x : Slot) (v : BitVec sz.bits) (s : State) :
    (writeSlot sz x v s).flags = s.flags := by simp [writeSlot]
@[simp] theorem writeSlot_cr (sz : Size) (x : Slot) (v : BitVec sz.bits) (s : State) :
    (writeSlot sz x v s).cr = s.cr := by simp [writeSlot]
@[simp] theorem writeSlot_halted (sz : Size) (x : Slot) (v : BitVec sz.bits) (s : State) :
    (writeSlot sz x v s).halted = s.halted := by simp [writeSlot]
@[simp] theorem writeSlot_mem (sz : Size) (x : Slot) (v : BitVec sz.bits) (s : State) :
    (writeSlot sz x v s).mem = s.mem := by simp [writeSlot]
@[simp] theorem writeSlot_written (sz : Size) (x : Slot) (v : BitVec sz.bits) (s : State) :
    (writeSlot sz x v s).written = s.written := by simp [writeSlot]
@[simp] theorem writeSlot_freeIndex (sz : Size) (x : Slot) (v : BitVec sz.bits) (s : State) :
    (writeSlot sz x v s).freeIndex = s.freeIndex := by simp [writeSlot]
@[simp] theorem writeSlot_launch (sz : Size) (x : Slot) (v : BitVec sz.bits) (s : State) :
    (writeSlot sz x v s).launch = s.launch := by simp [writeSlot]
@[simp] theorem writeSlot_curBank (sz : Size) (x : Slot) (v : BitVec sz.bits) (s : State) :
    (writeSlot sz x v s).curBank = s.curBank := by simp [writeSlot]

/-! ### Slots lie inside their 32-bit register -/

theorem codeSlot_fits (sz : Size) (c : BitVec 3) (s : State) : (codeSlot sz c s).off + sz.bits ≤ 32 := by
  cases sz <;> simp only [codeSlot, Size.bits]
  · split <;> omega
  all_goals omega

theorem extSlot_fits {sz : Size} {e : ExtReg} (h : e.fits sz = true) (s : State) :
    (extSlot e s).off + sz.bits ≤ 32 := by
  have := e.part.isLt
  cases sz
  · simp only [extSlot, Size.bits]; omega
  · simp only [ExtReg.fits, Bool.or_eq_true, beq_iff_eq] at h
    rcases h with h | h <;> simp [extSlot, Size.bits, h]
  · simp only [ExtReg.fits, beq_iff_eq] at h
    simp [extSlot, Size.bits, h]

theorem slotOf_fits {sz : Size} {r : RegOp} (h : r.ok sz = true) (s : State) :
    (slotOf sz r s).off + sz.bits ≤ 32 := by
  cases r with
  | short c => exact codeSlot_fits sz c s
  | ext e => exact extSlot_fits h s

/-- A multiply destination by 3-bit code: its double-width register starts at the same bit. -/
theorem mulCode_fits {z : BW} {c : BitVec 3} (h : mulCodeOk z c = true) (s : State) :
    (codeSlot z.size c s).off + z.wide.bits ≤ 32 := by
  cases z
  · simp only [mulCodeOk] at h
    simp [codeSlot, h, Size.bits]
  · simp [codeSlot]

theorem mulSlot_fits {z : BW} {r : RegOp} (h : r.mulOk z = true) (s : State) :
    (slotOf z.size r s).off + z.wide.bits ≤ 32 := by
  cases r with
  | short c => exact mulCode_fits h s
  | ext e => exact extSlot_fits h s

/-! ### Pointer updates of a memory operand -/

theorem eaUpdate_other (m : Mem) (s : State) :
    (eaUpdate m s).pc = s.pc ∧ (eaUpdate m s).rfp = s.rfp ∧ (eaUpdate m s).iff = s.iff ∧
      (eaUpdate m s).flags = s.flags ∧ (eaUpdate m s).cr = s.cr ∧ (eaUpdate m s).halted = s.halted ∧
      (eaUpdate m s).mem = s.mem ∧ (eaUpdate m s).written = s.written ∧
      (eaUpdate m s).freeIndex = s.freeIndex ∧ (eaUpdate m s).launch = s.launch := by
  cases m <;> simp [eaUpdate]

@[simp] theorem eaUpdate_pc (m : Mem) (s : State) : (eaUpdate m s).pc = s.pc := (eaUpdate_other m s).1
@[simp] theorem eaUpdate_rfp (m : Mem) (s : State) : (eaUpdate m s).rfp = s.rfp :=
  (eaUpdate_other m s).2.1
@[simp] theorem eaUpdate_iff (m : Mem) (s : State) : (eaUpdate m s).iff = s.iff :=
  (eaUpdate_other m s).2.2.1
@[simp] theorem eaUpdate_flags (m : Mem) (s : State) : (eaUpdate m s).flags = s.flags :=
  (eaUpdate_other m s).2.2.2.1
@[simp] theorem eaUpdate_cr (m : Mem) (s : State) : (eaUpdate m s).cr = s.cr :=
  (eaUpdate_other m s).2.2.2.2.1
@[simp] theorem eaUpdate_halted (m : Mem) (s : State) : (eaUpdate m s).halted = s.halted :=
  (eaUpdate_other m s).2.2.2.2.2.1
@[simp] theorem eaUpdate_mem (m : Mem) (s : State) : (eaUpdate m s).mem = s.mem :=
  (eaUpdate_other m s).2.2.2.2.2.2.1
@[simp] theorem eaUpdate_written (m : Mem) (s : State) : (eaUpdate m s).written = s.written :=
  (eaUpdate_other m s).2.2.2.2.2.2.2.1
@[simp] theorem eaUpdate_freeIndex (m : Mem) (s : State) : (eaUpdate m s).freeIndex = s.freeIndex :=
  (eaUpdate_other m s).2.2.2.2.2.2.2.2.1
@[simp] theorem eaUpdate_launch (m : Mem) (s : State) : (eaUpdate m s).launch = s.launch :=
  (eaUpdate_other m s).2.2.2.2.2.2.2.2.2

/-- A memory operand updates no register but its auto-update pointer. -/
theorem eaUpdate_get32_ne {m : Mem} {s : State} {p : PReg} (h : autoReg m s ≠ some p) :
    (eaUpdate m s).get32 p = s.get32 p := by
  cases m <;> simp only [eaUpdate]
  · exact State.get32_set32_ne _ _ fun e => h (by rw [e]; rfl)
  · exact State.get32_set32_ne _ _ fun e => h (by rw [e]; rfl)

end Sys2Proof.Machine
end

