-- ==== Sys2Proof/Laws/Exec.lean ====
section
/-! SUPPORT. The ends that the meanings share: a register result, a memory read, a memory store, each followed by the move
of the pc. -/

namespace Sys2Proof.Machine

theorem fallsThrough_setPc {i : Instr} {s : State} (h : NextFits i s) (u : State) :
    FallsThrough i s (u.setPc (BitVec.ofNat 24 (s.pc.toNat + i.len))) := by
  have h' : s.pc.toNat + i.len < 16777216 := h
  simp only [FallsThrough, State.setPc_pc, BitVec.toNat_ofNat]
  omega

/-- `finish` completes for an instruction whose `next` fits, from any state with the same pc. -/
theorem finish_completes {i : Instr} {s u : State} (h : NextFits i s) (hpc : u.pc = s.pc) :
    finish i.len u = .next (u.setPc (BitVec.ofNat 24 (s.pc.toNat + i.len))) := by
  rw [finish_of_fits (by rw [hpc]; exact h), hpc]

theorem SetsReg.trans_right {sz : Size} {x : Slot} {v : BitVec sz.bits} {s t u : State}
    (h : SetsReg sz x v s t) (hu : ∀ p, u.get32 p = t.get32 p) : SetsReg sz x v s u where
  value := by rw [← h.value]; simp [readSlot, hu]
  bits := fun i hi ho => by rw [hu]; exact h.bits i hi ho
  regs := fun p hp => by rw [hu]; exact h.regs p hp

theorem SetsReg.congr_left {sz : Size} {x : Slot} {v : BitVec sz.bits} {s s' t : State}
    (h : SetsReg sz x v s t) (hs : ∀ p, s.get32 p = s'.get32 p) : SetsReg sz x v s' t where
  value := h.value
  bits := fun i hi ho => by rw [← hs]; exact h.bits i hi ho
  regs := fun p hp => by rw [← hs]; exact h.regs p hp

/-- A register result with flags, then the next instruction. -/
theorem finish_writesReg {i : Instr} {sz : Size} {x : Slot} {s : State} (hx : x.off + sz.bits ≤ 32)
    (hn : NextFits i s) (v : BitVec sz.bits) (f : Flags) :
    ∃ t, finish i.len ((writeSlot sz x v s).setFlags f) = .next t ∧ t.flags = f ∧
      WritesReg i sz x v s t := by
  refine ⟨_, finish_completes hn (by simp), by simp, ⟨?_, ⟨?_, ?_⟩, ⟨?_, ?_, ?_, ?_, ?_⟩, ?_⟩⟩
  · exact (writeSlot_setsReg hx v s).trans_right (by simp)
  · intro a; simp [State.byteAt]
  · simp
  · simp
  · simp
  · simp
  · simp
  · simp
  · exact fallsThrough_setPc hn _

theorem setFlags_self (s : State) : s.setFlags s.flags = s := rfl

/-- A register result, then the next instruction. -/
theorem finish_writesReg' {i : Instr} {sz : Size} {x : Slot} {s : State} (hx : x.off + sz.bits ≤ 32)
    (hn : NextFits i s) (v : BitVec sz.bits) :
    ∃ t, finish i.len (writeSlot sz x v s) = .next t ∧ t.flags = s.flags ∧ WritesReg i sz x v s t := by
  have := finish_writesReg hx hn v s.flags
  rwa [show (writeSlot sz x v s).setFlags s.flags = writeSlot sz x v s by
    rw [← writeSlot_flags sz x v s, setFlags_self]] at this

/-- Everything but memory and the written set is as it was. -/
structure OnlyMem (s t : State) : Prop where
  regs : SameRegs s t
  system : SameSystem s t
  flags : t.flags = s.flags
  pc : t.pc = s.pc
  bank : t.curBank = s.curBank

theorem onlyMem_of_eq {s t : State} (h : t = { s with mem := t.mem, written := t.written }) :
    OnlyMem s t := by
  rw [h]
  exact ⟨fun p => by cases p <;> rfl, ⟨rfl, rfl, rfl, rfl, rfl⟩, rfl, rfl, rfl⟩

theorem Stores.congr {sz : Size} {a : Addr} {v : BitVec sz.bits} {s s' t t' : State}
    (h : Stores sz a v s t) (hb : ∀ k, s'.byteAt k = s.byteAt k) (hw : s'.written = s.written)
    (hd : ∀ k, s'.isDevice k = s.isDevice k) (hb' : ∀ k, t'.byteAt k = t.byteAt k)
    (hw' : t'.written = t.written) : Stores sz a v s' t' where
  stored := fun i hi hdev => by rw [hb']; exact h.stored i hi (by rw [← hd]; exact hdev)
  kept := fun b hk => by
    rw [hb', hb]; exact h.kept b fun i hi he => by rw [← hd]; exact hk i hi he
  written := fun b => by rw [hw', hw]; exact h.written b

theorem Reachable.congr {a : Addr} {n : Nat} {s s' : State} (h : Reachable a n s)
    (hl : s'.launch = s.launch) : Reachable a n s' := by
  intro i hi
  have := h i hi
  simpa [State.isDevice, State.isAdmitted, hl] using this

theorem isDevice_of_launch {s s' : State} (hl : s'.launch = s.launch) (a : Nat) :
    s'.isDevice a = s.isDevice a := by simp [State.isDevice, hl]

@[simp] theorem eaUpdate_byteAt (m : Mem) (s : State) (a : Nat) : (eaUpdate m s).byteAt a = s.byteAt a := by
  simp [State.byteAt]

theorem eaUpdate_curBank (m : Mem) (s : State) : (eaUpdate m s).curBank = s.curBank := by
  simp [State.curBank]

/-- A read of a memory operand completes: it gives what memory holds at the effective address, moves
the pointer of the mode and draws free values. -/
theorem readEa_completes {sz : Size} {m : Mem} {s : State} (h : Reachable (memAddr m s) sz.bytes s) :
    ∃ v k, readEa sz m s = .next (v, (eaUpdate m s).setFreeIndex (s.freeIndex + k)) ∧
      Holds sz (memAddr m s) s v := by
  obtain ⟨v, k, h1, h2⟩ := readMem_completes (h.congr (eaUpdate_launch m s))
  refine ⟨v, k, by simpa [readEa] using h1, fun i hi hd => ?_⟩
  rw [h2 i hi (by rw [isDevice_of_launch (eaUpdate_launch m s)]; exact hd)]
  simp

/-- A store followed by the move of the pc. -/
theorem store_finish {i : Instr} {sz : Size} {a : Addr} {s u : State} (v : BitVec sz.bits) (f : Flags)
    (hn : NextFits i s) (hr : Reachable a sz.bytes s) (hpc : u.pc = s.pc) (hsys : SameSystem s u)
    (hb : ∀ k, u.byteAt k = s.byteAt k) (hw : u.written = s.written) :
    ∃ w t, writeMem sz a v u = .next w ∧ w.flags = u.flags ∧ finish i.len (w.setFlags f) = .next t ∧
      WritesMem i sz a v s t ∧ SameRegs u t ∧ t.flags = f := by
  obtain ⟨w, hw1, hst, heq⟩ := writeMem_completes v (hr.congr hsys.launch)
  have ho := onlyMem_of_eq heq
  refine ⟨w, _, hw1, ho.flags, finish_completes hn (by simp [ho.pc, hpc]), ⟨?_, ?_, ?_⟩, ?_, by simp⟩
  · exact hst.congr (fun k => (hb k).symm) hw.symm
      (fun k => (isDevice_of_launch hsys.launch k).symm) (by simp) (by simp)
  · exact ⟨by simp [ho.system.cr, hsys.cr], by simp [ho.system.rfp, hsys.rfp],
      by simp [ho.system.iff, hsys.iff], by simp [ho.system.halted, hsys.halted],
      by simp [ho.system.launch, hsys.launch]⟩
  · exact fallsThrough_setPc hn _
  · intro p; simp [ho.regs p]

/-- A store followed by the move of the pc, the flags as they were. -/
theorem store_finish' {i : Instr} {sz : Size} {a : Addr} {s u : State} (v : BitVec sz.bits)
    (hn : NextFits i s) (hr : Reachable a sz.bytes s) (hpc : u.pc = s.pc) (hsys : SameSystem s u)
    (hb : ∀ k, u.byteAt k = s.byteAt k) (hw : u.written = s.written) :
    ∃ w t, writeMem sz a v u = .next w ∧ finish i.len w = .next t ∧ WritesMem i sz a v s t ∧
      SameRegs u t ∧ t.flags = u.flags := by
  obtain ⟨w, t, e1, e2, e3, e4, e5, e6⟩ := store_finish v u.flags hn hr hpc hsys hb hw
  rw [← e2, setFlags_self] at e3
  exact ⟨w, t, e1, e3, e4, e5, e6⟩

/-- A register result in a state whose registers are those of `u`, which differs from `s` in
registers and free values only. -/
theorem finish_loads {i : Instr} {sz : Size} {x : Slot} {s u w : State} (v : BitVec sz.bits)
    (hx : x.off + sz.bits ≤ 32) (hn : NextFits i s) (hr : ∀ p, u.get32 p = w.get32 p)
    (hpc : u.pc = s.pc) (hsys : SameSystem s u) (hb : ∀ k, u.byteAt k = s.byteAt k)
    (hw : u.written = s.written) (hf : u.flags = s.flags) :
    ∃ t, finish i.len (writeSlot sz x v u) = .next t ∧ SetsReg sz x v w t ∧ SameMem s t ∧
      SameSystem s t ∧ t.flags = s.flags ∧ FallsThrough i s t := by
  refine ⟨_, finish_completes hn (by simp [hpc]), ?_, ⟨?_, by simp [hw]⟩, ?_, by simp [hf],
    fallsThrough_setPc hn _⟩
  · exact ((writeSlot_setsReg hx v u).congr_left hr).trans_right (by simp)
  · intro a; rw [State.setPc_byteAt, ← hb a]; simp [State.byteAt]
  · exact ⟨by simp [hsys.cr], by simp [hsys.rfp], by simp [hsys.iff], by simp [hsys.halted],
      by simp [hsys.launch]⟩

theorem SameSystem.refl (s : State) : SameSystem s s := ⟨rfl, rfl, rfl, rfl, rfl⟩
theorem SameMem.refl (s : State) : SameMem s s := ⟨fun _ => rfl, rfl⟩

theorem eaUpdate_sameSystem (m : Mem) (s : State) : SameSystem s (eaUpdate m s) :=
  ⟨by simp, by simp, by simp, by simp, by simp⟩

theorem eaUpdate_system (m : Mem) (s : State) (n : Nat) :
    SameSystem s ((eaUpdate m s).setFreeIndex n) := ⟨by simp, by simp, by simp, by simp, by simp⟩

end Sys2Proof.Machine
end

