-- ==== Sys2Proof/Laws/Block.lean ====
section
/-! SUPPORT. What one item of a block load does, and what the repeating forms do (R171, R173, R174). -/

namespace Sys2Proof.Machine

/-- Everything of `t` but registers and memory is as in `s`. -/
structure Quiet (s t : State) : Prop where
  system : SameSystem s t
  flags : t.flags = s.flags
  pc : t.pc = s.pc

theorem curBank_of_rfp {s t : State} (h : t.rfp = s.rfp) : t.curBank = s.curBank := by
  simp [State.curBank, h]

theorem pair_distinct (p : BlockPair) (s : State) :
    p.dst s ≠ p.src s ∧ p.dst s ≠ countReg s ∧ p.src s ≠ countReg s := by
  cases p <;> simp [BlockPair.dst, BlockPair.src, countReg]

theorem counter_eq (s : State) : counter s = (s.get32 (countReg s)).setWidth 16 := by
  unfold counter readSlot slotBC countReg
  apply BitVec.eq_of_toNat_eq
  simp [Size.bits]

/-- The register part of an item. -/
theorem itemRegs_moved (dir : Dir) (z : BW) (p : BlockPair) (s : State) :
    PointersMoved (p.dst s) (p.src s) (blockStep dir z) 1 s (itemRegs dir z p s) := by
  obtain ⟨h1, h2, h3⟩ := pair_distinct p s
  have hs := writeSlot_setsReg (sz := .word) (x := slotBC s) (by simp [slotBC, Size.bits]) (counter s - 1)
    ((s.set32 (p.dst s) (s.get32 (p.dst s) + blockStep dir z)).set32 (p.src s)
      (s.get32 (p.src s) + blockStep dir z))
  have hc : (slotBC s).reg = countReg s := rfl
  have ho : (slotBC s).off = 0 := rfl
  have hv := hs.value
  have hmid : ((s.set32 (p.dst s) (s.get32 (p.dst s) + blockStep dir z)).set32 (p.src s)
      (s.get32 (p.src s) + blockStep dir z)).get32 (countReg s) = s.get32 (countReg s) := by
    rw [State.get32_set32_ne _ _ h3.symm, State.get32_set32_ne _ _ h2.symm]
  refine ⟨?_, ?_, ?_, ?_, ?_⟩
  · rw [itemRegs, hs.regs _ (by rw [hc]; exact h2), State.get32_set32_ne _ _ h1, State.get32_set32_same]
    simp
  · rw [itemRegs, hs.regs _ (by rw [hc]; exact h3), State.get32_set32_same]
    simp
  · rw [← counter_eq s]
    apply BitVec.eq_of_toNat_eq
    have := congrArg BitVec.toNat hv
    simp only [readSlot, hc, ho] at this
    simpa [itemRegs, Size.bits] using this
  · apply BitVec.eq_of_getLsbD_eq
    intro i hi
    have hb := hs.bits (16 + i) (by omega) (by simp [ho, Size.bits])
    rw [hc, hmid] at hb
    simp only [BitVec.getLsbD_extractLsb', itemRegs, hi, decide_true, Bool.true_and]
    exact hb
  · intro q hd hsq hcq
    rw [itemRegs, hs.regs q (by rw [hc]; exact hcq), State.get32_set32_ne _ _ hsq,
      State.get32_set32_ne _ _ hd]

theorem itemRegs_quiet (dir : Dir) (z : BW) (p : BlockPair) (s : State) :
    Quiet s (itemRegs dir z p s) ∧ SameMem s (itemRegs dir z p s) := by
  refine ⟨⟨⟨?_, ?_, ?_, ?_, ?_⟩, ?_, ?_⟩, fun a => ?_, ?_⟩ <;> simp [itemRegs, State.byteAt]

theorem PointersMoved.congr {dst src : PReg} {d : Long} {n : Nat} {s s' t : State}
    (h : PointersMoved dst src d n s t) (hr : ∀ p, s.get32 p = s'.get32 p)
    (hb : s.curBank = s'.curBank) : PointersMoved dst src d n s' t := by
  have hc : countReg s' = countReg s := by simp [countReg, hb]
  exact ⟨by rw [← hr]; exact h.dst_moved, by rw [← hr]; exact h.src_moved,
    by rw [← hr, hc]; exact h.count, by rw [← hr, hc]; exact h.upper,
    fun p h1 h2 h3 => by rw [← hr]; exact h.regs p h1 h2 (by rw [← hc]; exact h3)⟩

theorem Holds.congr {sz : Size} {a : Addr} {s s' : State} {v : BitVec sz.bits} (h : Holds sz a s v)
    (hb : ∀ k, s'.byteAt k = s.byteAt k) (hl : s'.launch = s.launch) : Holds sz a s' v :=
  fun i hi hd => by rw [hb]; exact h i hi (by rw [← isDevice_of_launch hl]; exact hd)

/-- One item completes when both its operands are reachable: it stores what memory held at the
source, then moves the pointers and the counter. -/
theorem item_completes {dir : Dir} {z : BW} {p : BlockPair} {s : State}
    (hs : Reachable (dataAddr (s.get32 (p.src s))) z.size.bytes s)
    (hd : Reachable (dataAddr (s.get32 (p.dst s))) z.size.bytes s) :
    ∃ v t, item dir z p s = .next t ∧ Holds z.size (dataAddr (s.get32 (p.src s))) s v ∧
      Stores z.size (dataAddr (s.get32 (p.dst s))) v s t ∧
      PointersMoved (p.dst s) (p.src s) (blockStep dir z) 1 s t ∧ Quiet s t := by
  obtain ⟨v, k, h1, h2⟩ := readMem_completes hs
  obtain ⟨w, hw1, hst, heq⟩ := writeMem_completes v (s := s.setFreeIndex (s.freeIndex + k))
    (hd.congr (s' := s.setFreeIndex (s.freeIndex + k)) rfl)
  have ho := onlyMem_of_eq heq
  have hb : w.curBank = s.curBank := ho.bank
  have hdst : p.dst w = p.dst s := by cases p <;> simp [BlockPair.dst, hb]
  have hsrc : p.src w = p.src s := by cases p <;> simp [BlockPair.src, hb]
  obtain ⟨hq, hm⟩ := itemRegs_quiet dir z p w
  refine ⟨v, itemRegs dir z p w, ?_, h2, ?_, ?_, ?_⟩
  · simp [item, h1, hw1]
  · exact hst.congr (fun k => by simp) (by simp) (fun k => by simp) hm.bytes hm.written
  · have := itemRegs_moved dir z p w
    rw [hdst, hsrc] at this
    exact this.congr (fun q => by rw [ho.regs q]; simp) hb
  · have hs := hq.system
    have ho' := ho.system
    exact ⟨⟨by rw [hs.cr, ho'.cr]; simp, by rw [hs.rfp, ho'.rfp]; simp, by rw [hs.iff, ho'.iff]; simp,
      by rw [hs.halted, ho'.halted]; simp, by rw [hs.launch, ho'.launch]; simp⟩,
      by rw [hq.flags, ho.flags]; simp, by rw [hq.pc, ho.pc]; simp⟩

theorem Quiet.trans {s t u : State} (h : Quiet s t) (k : Quiet t u) : Quiet s u :=
  ⟨⟨k.system.cr.trans h.system.cr, k.system.rfp.trans h.system.rfp, k.system.iff.trans h.system.iff,
    k.system.halted.trans h.system.halted, k.system.launch.trans h.system.launch⟩,
    k.flags.trans h.flags, k.pc.trans h.pc⟩

theorem PointersMoved.trans {dst src : PReg} {d : Long} {m n : Nat} {s t u : State}
    (h : PointersMoved dst src d m s t) (k : PointersMoved dst src d n t u)
    (hb : t.curBank = s.curBank) : PointersMoved dst src d (m + n) s u := by
  have hc : countReg t = countReg s := by simp [countReg, hb]
  have e : ∀ w, BitVec.ofNat w (m + n) = BitVec.ofNat w m + BitVec.ofNat w n := by
    intro w; apply BitVec.eq_of_toNat_eq; simp
  refine ⟨?_, ?_, ?_, ?_, ?_⟩
  · rw [k.dst_moved, h.dst_moved, e, BitVec.mul_add, BitVec.add_assoc]
  · rw [k.src_moved, h.src_moved, e, BitVec.mul_add, BitVec.add_assoc]
  · have := k.count
    rw [hc] at this
    rw [this, h.count, e]
    rw [BitVec.sub_sub]
  · have := k.upper
    rw [hc] at this
    rw [this, h.upper]
  · intro p h1 h2 h3
    rw [k.regs p h1 h2 (by rw [hc]; exact h3), h.regs p h1 h2 h3]

/-- The loop of LDIR and LDDR, from any state whose counter stands at `n` items. -/
theorem repeatItems_completes {dir : Dir} {z : BW} {p : BlockPair} (n : Nat) :
    ∀ (fuel : Nat) (s : State), n < 65536 → n + 1 ≤ fuel →
      counter s = BitVec.ofNat 16 (n + 1) →
      (∀ k < n + 1,
        Reachable (dataAddr (s.get32 (p.src s) + blockStep dir z * BitVec.ofNat 32 k)) z.size.bytes s ∧
        Reachable (dataAddr (s.get32 (p.dst s) + blockStep dir z * BitVec.ofNat 32 k)) z.size.bytes s) →
      ∃ f : Nat → State, repeatItems dir z p fuel s = .next (f (n + 1)) ∧ f 0 = s ∧
        (∀ k < n + 1, ∃ v,
          Holds z.size (dataAddr (s.get32 (p.src s) + blockStep dir z * BitVec.ofNat 32 k)) (f k) v ∧
          Stores z.size (dataAddr (s.get32 (p.dst s) + blockStep dir z * BitVec.ofNat 32 k)) v (f k)
            (f (k + 1)) ∧
          (f (k + 1)).launch = s.launch) ∧
        PointersMoved (p.dst s) (p.src s) (blockStep dir z) (n + 1) s (f (n + 1)) ∧
        Quiet s (f (n + 1)) := by
  induction n with
  | zero =>
    intro fuel s _ hf hc hr
    obtain ⟨fuel, rfl⟩ : ∃ m, fuel = m + 1 := ⟨fuel - 1, by omega⟩
    have h0 := hr 0 (by omega)
    simp only [BitVec.mul_zero, BitVec.add_zero] at h0
    obtain ⟨v, t, h1, h2, h3, h4, h5⟩ := item_completes (dir := dir) h0.1 h0.2
    have hct : counter t = 0#16 := by
      have hb := curBank_of_rfp h5.system.rfp
      rw [counter_eq, show countReg t = countReg s by simp [countReg, hb], h4.count, ← counter_eq, hc]
      decide
    refine ⟨fun k => if k = 0 then s else t, ?_, rfl, ?_, ?_, ?_⟩
    · simp [repeatItems, h1, hct]
    · intro k hk
      obtain rfl : k = 0 := by omega
      exact ⟨v, by simpa using h2, by simpa using h3, by simpa using h5.system.launch⟩
    · simpa using h4
    · simpa using h5
  | succ n ih =>
    intro fuel s hn hf hc hr
    obtain ⟨fuel, rfl⟩ : ∃ m, fuel = m + 1 := ⟨fuel - 1, by omega⟩
    have h0 := hr 0 (by omega)
    simp only [BitVec.mul_zero, BitVec.add_zero] at h0
    obtain ⟨v, t, h1, h2, h3, h4, h5⟩ := item_completes (dir := dir) h0.1 h0.2
    have hb := curBank_of_rfp h5.system.rfp
    have hct : counter t = BitVec.ofNat 16 (n + 1) := by
      rw [counter_eq, show countReg t = countReg s by simp [countReg, hb], h4.count, ← counter_eq, hc]
      apply BitVec.eq_of_toNat_eq
      simp
      omega
    have hne : counter t ≠ 0#16 := by
      rw [hct]
      intro e
      have := congrArg BitVec.toNat e
      simp at this
      omega
    have hdst : p.dst t = p.dst s := by cases p <;> simp [BlockPair.dst, hb]
    have hsrc : p.src t = p.src s := by cases p <;> simp [BlockPair.src, hb]
    have hshift : ∀ (x : Long) (k : Nat), x + blockStep dir z * BitVec.ofNat 32 1 +
        blockStep dir z * BitVec.ofNat 32 k = x + blockStep dir z * BitVec.ofNat 32 (k + 1) := by
      intro x k
      rw [BitVec.add_assoc, ← BitVec.mul_add]
      congr 2
      apply BitVec.eq_of_toNat_eq
      simp
      omega
    obtain ⟨f, g1, g2, g3, g4, g5⟩ := ih fuel t (by omega) (by omega) hct (by
      intro k hk
      have := hr (k + 1) (by omega)
      rw [hdst, hsrc, h4.src_moved, h4.dst_moved, hshift, hshift]
      exact ⟨this.1.congr h5.system.launch, this.2.congr h5.system.launch⟩)
    refine ⟨fun k => if k = 0 then s else f (k - 1), ?_, rfl, ?_, ?_, ?_⟩
    · simp [repeatItems, h1, hne, g1]
    · intro k hk
      cases k with
      | zero =>
        refine ⟨v, by simpa using h2, by simpa [g2] using h3, ?_⟩
        simpa [g2] using h5.system.launch
      | succ k =>
        obtain ⟨w, w1, w2, w3⟩ := g3 k (by omega)
        rw [hdst, h4.dst_moved, hshift] at w2
        rw [hsrc, h4.src_moved, hshift] at w1
        exact ⟨w, by simpa using w1, by simpa using w2, by simpa using w3.trans h5.system.launch⟩
    · rw [hdst, hsrc] at g4
      have := h4.trans g4 hb
      rw [show 1 + (n + 1) = n + 1 + 1 by omega] at this
      simpa using this
    · simpa using h5.trans g5

end Sys2Proof.Machine
end

