-- ==== Sys2Proof/Laws/ControlRegs.lean ====
section
/-! SUPPORT. Control register laws: a read after a write, every other register kept, the canonical form kept. -/

namespace Sys2Proof.Machine

theorem crNumber_injective {a b : CrName} (h : crNumber a = crNumber b) : a = b := by
  cases a <;> cases b <;> simp only [crNumber] at h <;> (congr 1; omega)

theorem ControlRegs.get_insert (c : ControlRegs) (name other : CrName) (v : Long) :
    (c.insert name v).get other = if other = name then v else c.get other := by
  induction c with
  | nil => simp [ControlRegs.insert, ControlRegs.get, eq_comm]
  | cons e rest ih =>
    obtain ⟨k, w⟩ := e
    simp only [ControlRegs.insert]
    split
    · simp [ControlRegs.get, eq_comm]
    · split
      · rename_i hk
        subst hk
        by_cases h : other = k <;> simp [ControlRegs.get, h, eq_comm (a := k)]
      · rename_i hk
        simp only [ControlRegs.get, ih]
        by_cases h : k = other
        · subst h
          simp [hk]
        · simp [h]

theorem ControlRegs.get_erase (c : ControlRegs) (name other : CrName) :
    (c.erase name).get other = if other = name then 0 else c.get other := by
  induction c with
  | nil => simp [ControlRegs.erase, ControlRegs.get]
  | cons e rest ih =>
    obtain ⟨k, w⟩ := e
    simp only [ControlRegs.erase]
    split
    · rename_i hk
      subst hk
      rw [ih]
      by_cases h : other = k <;> simp [ControlRegs.get, h, eq_comm (a := k)]
    · rename_i hk
      simp only [ControlRegs.get, ih]
      by_cases h : k = other
      · subst h
        simp [hk]
      · simp [h]

/-- A write gives its register the value and leaves every other as it was. -/
theorem ControlRegs.get_put (c : ControlRegs) (name other : CrName) (v : Long) :
    (c.put name v).get other = if other = name then v else c.get other := by
  unfold ControlRegs.put
  split
  · rename_i h
    rw [ControlRegs.get_erase, h]
  · exact ControlRegs.get_insert c name other v

theorem ControlRegs.wfFrom_mono {c : ControlRegs} {p q : Nat} (hpq : p ≤ q)
    (h : ControlRegs.wfFrom q c = true) : ControlRegs.wfFrom p c = true := by
  cases c with
  | nil => rfl
  | cons e rest =>
    simp only [ControlRegs.wfFrom, Bool.and_eq_true, decide_eq_true_eq] at h ⊢
    exact ⟨⟨by omega, h.1.2⟩, h.2⟩

theorem ControlRegs.erase_wfFrom {c : ControlRegs} {lo : Nat} (name : CrName)
    (h : ControlRegs.wfFrom lo c = true) : ControlRegs.wfFrom lo (c.erase name) = true := by
  induction c generalizing lo with
  | nil => rfl
  | cons e rest ih =>
    simp only [ControlRegs.wfFrom, Bool.and_eq_true, decide_eq_true_eq] at h
    simp only [ControlRegs.erase]
    split
    · exact ControlRegs.wfFrom_mono (by omega) (ih h.2)
    · simp only [ControlRegs.wfFrom, Bool.and_eq_true, decide_eq_true_eq]
      exact ⟨h.1, ih h.2⟩

theorem ControlRegs.insert_wfFrom {c : ControlRegs} {lo : Nat} {name : CrName} {v : Long}
    (h : ControlRegs.wfFrom lo c = true) (hlo : lo ≤ crNumber name) (hv : v ≠ 0) :
    ControlRegs.wfFrom lo (c.insert name v) = true := by
  induction c generalizing lo with
  | nil => simpa [ControlRegs.insert, ControlRegs.wfFrom, hlo] using hv
  | cons e rest ih =>
    simp only [ControlRegs.wfFrom, Bool.and_eq_true, decide_eq_true_eq] at h
    simp only [ControlRegs.insert]
    split
    · simp only [ControlRegs.wfFrom, Bool.and_eq_true, decide_eq_true_eq]
      exact ⟨⟨hlo, hv⟩, ⟨by omega, h.1.2⟩, h.2⟩
    · split
      · rename_i hk
        subst hk
        simp only [ControlRegs.wfFrom, Bool.and_eq_true, decide_eq_true_eq]
        exact ⟨⟨hlo, hv⟩, h.2⟩
      · rename_i hlt hne
        have : crNumber e.1 ≠ crNumber name := fun heq => hne (crNumber_injective heq)
        simp only [ControlRegs.wfFrom, Bool.and_eq_true, decide_eq_true_eq]
        exact ⟨h.1, ih h.2 (by omega)⟩

/-- Every write keeps the canonical form. -/
theorem ControlRegs.put_wf {c : ControlRegs} (name : CrName) (v : Long) (h : c.wf = true) :
    (c.put name v).wf = true := by
  unfold ControlRegs.put
  split
  · exact ControlRegs.erase_wfFrom name h
  · exact ControlRegs.insert_wfFrom h (Nat.zero_le _) ‹_›

end Sys2Proof.Machine
end

