-- ==== Sys2Proof/Laws/Decode.lean ====
section
/-! SUPPORT. Reading back what the encoder wrote: fields of a byte, immediates, extension codes and mode bytes. -/

namespace Sys2Proof

/-! ### Sequencing -/

@[simp] theorem Parsed.bind_ok {α β : Type} (a : α) (rest : List Byte) (f : α → List Byte → Parsed β) :
    (Parsed.ok a rest).bind f = f a rest := rfl

/-- A sequence of two reads answers a value exactly when both do. -/
theorem Parsed.bind_eq_ok {α β : Type} {p : Parsed α} {f : α → List Byte → Parsed β} {b : β}
    {rest : List Byte} :
    p.bind f = .ok b rest ↔ ∃ a mid, p = .ok a mid ∧ f a mid = .ok b rest := by
  cases p <;> simp [Parsed.bind]

/-! ### Fields of a byte -/

@[simp] theorem hi5_opByte (h : BitVec 5) (l : BitVec 3) : hi5 (opByte h l) = h := by
  revert h l; decide
@[simp] theorem lo3_opByte (h : BitVec 5) (l : BitVec 3) : lo3 (opByte h l) = l := by
  revert h l; decide
theorem opByte_hi5_lo3 (b : Byte) : opByte (hi5 b) (lo3 b) = b := by
  revert b; decide

@[simp] theorem topBits_firstByte (t ss : BitVec 2) (b3 : BitVec 1) (l : BitVec 3) :
    topBits (firstByte t ss b3 l) = t := by
  revert t ss b3 l; decide
@[simp] theorem sizeBits_firstByte (t ss : BitVec 2) (b3 : BitVec 1) (l : BitVec 3) :
    sizeBits (firstByte t ss b3 l) = ss := by
  revert t ss b3 l; decide
@[simp] theorem bit3_firstByte (t ss : BitVec 2) (b3 : BitVec 1) (l : BitVec 3) :
    bit3 (firstByte t ss b3 l) = b3 := by
  revert t ss b3 l; decide
@[simp] theorem lo3_firstByte (t ss : BitVec 2) (b3 : BitVec 1) (l : BitVec 3) :
    lo3 (firstByte t ss b3 l) = l := by
  revert t ss b3 l; decide
theorem firstByte_fields (b : Byte) : firstByte (topBits b) (sizeBits b) (bit3 b) (lo3 b) = b := by
  revert b; decide

@[simp] theorem sizeOfCode_code (sz : Size) : sizeOfCode sz.code = some sz := by cases sz <;> rfl
@[simp] theorem condOfCode_code (cc : Cond) : condOfCode cc.code = cc := by cases cc <;> rfl
theorem code_condOfCode (c : BitVec 4) : (condOfCode c).code = c := by revert c; decide
@[simp] theorem stepOfCode_code (st : AutoStep) : stepOfCode st.code = some st := by cases st <;> rfl

@[simp] theorem selOfCode_code (sel : R32Sel) : selOfCode sel.code = some sel := by
  cases sel with
  | bank b r => revert b; cases r <;> decide
  | previous r => cases r <;> rfl
  | current r => cases r <;> rfl
  | _ => rfl

/-- A code that names a 32-bit register is that register's code. -/
theorem code_of_selOfCode {c : BitVec 6} {sel : R32Sel} (h : selOfCode c = some sel) : sel.code = c := by
  have key : ∀ c : BitVec 6, (selOfCode c).all (fun sel => sel.code == c) = true := by decide
  have := key c
  simpa [h] using this

@[simp] theorem selBits_code8 (sel : R32Sel) (l : BitVec 2) : selBits (code8 sel l) = sel.code := by
  have key : ∀ (c : BitVec 6) (l : BitVec 2), selBits (c ++ l) = c := by decide
  exact key _ _
@[simp] theorem lo2_code8 (sel : R32Sel) (l : BitVec 2) : lo2 (code8 sel l) = l := by
  have key : ∀ (c : BitVec 6) (l : BitVec 2), lo2 (c ++ l) = l := by decide
  exact key _ _
theorem code8_fields {b : Byte} {sel : R32Sel} (h : selOfCode (selBits b) = some sel) :
    code8 sel (lo2 b) = b := by
  have key : ∀ b : Byte, (selBits b ++ lo2 b : Byte) = b := by decide
  simp only [code8, code_of_selOfCode h, key]

/-! ### Immediates -/

@[simp] theorem take8_cons (b : Byte) (rest : List Byte) : take8 (b :: rest) = .ok b rest := rfl

theorem append_halves (v : BitVec 16) : (v.extractLsb' 8 8 ++ v.extractLsb' 0 8 : BitVec 16) = v := by
  apply BitVec.eq_of_getLsbD_eq
  intro i hi
  simp only [BitVec.getLsbD_append, BitVec.getLsbD_extractLsb']
  by_cases h : i < 8
  · simp [h]
  · have h1 : i - 8 < 8 := by omega
    simp [h, h1, show 8 + (i - 8) = i by omega]

@[simp] theorem take16_le16 (v : BitVec 16) (rest : List Byte) : take16 (le16 v ++ rest) = .ok v rest := by
  simp [take16, le16, append_halves]

@[simp] theorem take24_le24 (v : BitVec 24) (rest : List Byte) : take24 (le24 v ++ rest) = .ok v rest := by
  have : (v.extractLsb' 16 8 ++ v.extractLsb' 8 8 ++ v.extractLsb' 0 8 : BitVec 24) = v := by
    apply BitVec.eq_of_getLsbD_eq
    intro i hi
    simp only [BitVec.getLsbD_append, BitVec.getLsbD_extractLsb']
    by_cases h : i < 8
    · simp [h]
    · by_cases h2 : i < 16
      · have h1 : i - 8 < 8 := by omega
        simp [h, h1, show 8 + (i - 8) = i by omega]
      · have h1 : ¬ i - 8 < 8 := by omega
        have h3 : i - 8 - 8 < 8 := by omega
        simp [h, h1, h3, show 16 + (i - 8 - 8) = i by omega]
  simp [take24, le24, this]

@[simp] theorem take32_le32 (v : BitVec 32) (rest : List Byte) : take32 (le32 v ++ rest) = .ok v rest := by
  have : (v.extractLsb' 24 8 ++ v.extractLsb' 16 8 ++ v.extractLsb' 8 8 ++ v.extractLsb' 0 8 :
      BitVec 32) = v := by
    apply BitVec.eq_of_getLsbD_eq
    intro i hi
    simp only [BitVec.getLsbD_append, BitVec.getLsbD_extractLsb']
    by_cases h : i < 8
    · simp [h]
    · by_cases h2 : i < 16
      · have h1 : i - 8 < 8 := by omega
        simp [h, h1, show 8 + (i - 8) = i by omega]
      · by_cases h4 : i < 24
        · have h1 : ¬ i - 8 < 8 := by omega
          have h3 : i - 8 - 8 < 8 := by omega
          simp [h, h1, h3, show 16 + (i - 8 - 8) = i by omega]
        · have h1 : ¬ i - 8 < 8 := by omega
          have h3 : ¬ i - 8 - 8 < 8 := by omega
          have h5 : i - 8 - 8 - 8 < 8 := by omega
          simp [h, h1, h3, h5, show 24 + (i - 8 - 8 - 8) = i by omega]
  simp [take32, le32, this]

@[simp] theorem takeImm_encodeImm (sz : Size) (v : BitVec sz.bits) (rest : List Byte) :
    takeImm sz (encodeImm sz v ++ rest) = .ok v rest := by
  cases sz
  · rfl
  · exact take16_le16 v rest
  · exact take32_le32 v rest

@[simp] theorem le16_length (v : BitVec 16) : (le16 v).length = 2 := rfl
@[simp] theorem le24_length (v : BitVec 24) : (le24 v).length = 3 := rfl
@[simp] theorem encodeImm_length (sz : Size) (v : BitVec sz.bits) : (encodeImm sz v).length = sz.bytes := by
  cases sz <;> rfl

/-! ### Extension codes and modes -/

@[simp] theorem takeExtReg_code8 (e : ExtReg) (rest : List Byte) :
    takeExtReg (code8 e.sel e.part :: rest) = .ok e rest := by
  simp [takeExtReg]

@[simp] theorem takeSel_code8 (sel : R32Sel) (rest : List Byte) :
    takeSel (code8 sel 0#2 :: rest) = .ok sel rest := by
  have := takeExtReg_code8 ⟨sel, 0#2⟩ rest
  simp only at this
  simp [takeSel, this, ExtReg.fits]

theorem code8_ne {sel : R32Sel} {l : BitVec 2} {b : Byte} (h : lo2 b ≠ l) : code8 sel l ≠ b := by
  intro e
  apply h
  rw [← e, lo2_code8]

@[simp] theorem regPrefix_length (sz : Size) (r : RegOp) : (regPrefix sz r).length = r.prefixLen := by
  cases r <;> rfl

@[simp] theorem memPrefix_length (ss : BitVec 2) (m : Mem) : (memPrefix ss m).length = 1 + m.extLen := by
  cases m <;> rfl

/-! ### Prefixes -/

theorem firstByte_ne_F7 {t ss : BitVec 2} {b3 : BitVec 1} {l : BitVec 3}
    (h : ¬ (t = 3#2 ∧ ss = 3#2 ∧ b3 = 0#1 ∧ l = 7#3)) : firstByte t ss b3 l ≠ 0xF7#8 := by
  revert h; revert t ss b3 l; decide

theorem firstByte_ne_F3 {t ss : BitVec 2} {b3 : BitVec 1} {l : BitVec 3}
    (h : ¬ (t = 3#2 ∧ ss = 3#2 ∧ b3 = 0#1 ∧ l = 3#3)) : firstByte t ss b3 l ≠ 0xF3#8 := by
  revert h; revert t ss b3 l; decide

theorem code_ne_3 (sz : Size) : sz.code ≠ 3#2 := by cases sz <;> decide

/-- A register prefix decodes to its operand. -/
theorem decodeRaw_regPrefix (sz : Size) (r : RegOp) (bs : List Byte) :
    decodeRaw (regPrefix sz r ++ bs) = decodeFr sz r bs := by
  cases r with
  | short c =>
    have h7 : firstByte 3#2 sz.code 1#1 c ≠ 0xF7#8 := firstByte_ne_F7 (by simp)
    have h3 : firstByte 3#2 sz.code 1#1 c ≠ 0xF3#8 := firstByte_ne_F3 (by simp)
    simp [regPrefix, decodeRaw, h7, h3]
  | ext e =>
    have h7 : firstByte 3#2 sz.code 0#1 7#3 ≠ 0xF7#8 := firstByte_ne_F7 (by simp [code_ne_3])
    have h3 : firstByte 3#2 sz.code 0#1 7#3 ≠ 0xF3#8 := firstByte_ne_F3 (by simp)
    simp [regPrefix, decodeRaw, h7, h3]

/-- A memory prefix decodes to its operand. -/
theorem decodeRaw_memPrefix (ss : BitVec 2) (m : Mem) (hm : m.ok = true) (bs : List Byte) :
    decodeRaw (memPrefix ss m ++ bs) = decodeMemOp ss m bs := by
  cases m with
  | ind r =>
    have h7 : firstByte 2#2 ss 0#1 r ≠ 0xF7#8 := firstByte_ne_F7 (by simp)
    have h3 : firstByte 2#2 ss 0#1 r ≠ 0xF3#8 := firstByte_ne_F3 (by simp)
    simp [memPrefix, memFirst, memExt, decodeRaw, h7, h3, takeMem]
  | indD8 r d =>
    have h7 : firstByte 2#2 ss 1#1 r ≠ 0xF7#8 := firstByte_ne_F7 (by simp)
    have h3 : firstByte 2#2 ss 1#1 r ≠ 0xF3#8 := firstByte_ne_F3 (by simp)
    simp [memPrefix, memFirst, memExt, decodeRaw, h7, h3, takeMem]
  | abs8 a =>
    have h7 : firstByte 3#2 ss 0#1 0#3 ≠ 0xF7#8 := firstByte_ne_F7 (by simp)
    have h3 : firstByte 3#2 ss 0#1 0#3 ≠ 0xF3#8 := firstByte_ne_F3 (by simp)
    simp [memPrefix, memFirst, memExt, decodeRaw, h7, h3, takeMem]
  | abs16 a =>
    have h7 : firstByte 3#2 ss 0#1 1#3 ≠ 0xF7#8 := firstByte_ne_F7 (by simp)
    have h3 : firstByte 3#2 ss 0#1 1#3 ≠ 0xF3#8 := firstByte_ne_F3 (by simp)
    simp [memPrefix, memFirst, memExt, decodeRaw, h7, h3, takeMem]
  | abs24 a =>
    have h7 : firstByte 3#2 ss 0#1 2#3 ≠ 0xF7#8 := firstByte_ne_F7 (by simp)
    have h3 : firstByte 3#2 ss 0#1 2#3 ≠ 0xF3#8 := firstByte_ne_F3 (by simp)
    simp [memPrefix, memFirst, memExt, decodeRaw, h7, h3, takeMem]
  | preDec sel step =>
    have h7 : firstByte 3#2 ss 0#1 4#3 ≠ 0xF7#8 := firstByte_ne_F7 (by simp)
    have h3 : firstByte 3#2 ss 0#1 4#3 ≠ 0xF3#8 := firstByte_ne_F3 (by simp)
    simp [memPrefix, memFirst, memExt, decodeRaw, h7, h3, takeMem, takeAuto]
  | postInc sel step =>
    have h7 : firstByte 3#2 ss 0#1 5#3 ≠ 0xF7#8 := firstByte_ne_F7 (by simp)
    have h3 : firstByte 3#2 ss 0#1 5#3 ≠ 0xF3#8 := firstByte_ne_F3 (by simp)
    simp [memPrefix, memFirst, memExt, decodeRaw, h7, h3, takeMem, takeAuto]
  | extInd sel =>
    have h7 : firstByte 3#2 ss 0#1 3#3 ≠ 0xF7#8 := firstByte_ne_F7 (by simp)
    have h13 : code8 sel 0#2 ≠ 0x13#8 := code8_ne (by decide)
    have h03 : code8 sel 0#2 ≠ 0x03#8 := code8_ne (by decide)
    have h07 : code8 sel 0#2 ≠ 0x07#8 := code8_ne (by decide)
    simp [memPrefix, memFirst, memExt, decodeRaw, h7, takeMem, takeMode3, h13, h03, h07]
  | extD16 sel d =>
    have h7 : firstByte 3#2 ss 0#1 3#3 ≠ 0xF7#8 := firstByte_ne_F7 (by simp)
    have h13 : code8 sel 1#2 ≠ 0x13#8 := code8_ne (by decide)
    have h03 : code8 sel 1#2 ≠ 0x03#8 := code8_ne (by decide)
    have h07 : code8 sel 1#2 ≠ 0x07#8 := code8_ne (by decide)
    simp [memPrefix, memFirst, memExt, decodeRaw, h7, takeMem, takeMode3, h13, h03, h07]
  | idx8 base index =>
    have h7 : firstByte 3#2 ss 0#1 3#3 ≠ 0xF7#8 := firstByte_ne_F7 (by simp)
    simp [memPrefix, memFirst, memExt, decodeRaw, h7, takeMem, takeMode3]
  | idx16 base index =>
    have h7 : firstByte 3#2 ss 0#1 3#3 ≠ 0xF7#8 := firstByte_ne_F7 (by simp)
    have hok : index.fits .word = true := hm
    simp [memPrefix, memFirst, memExt, decodeRaw, h7, takeMem, takeMode3, hok]

end Sys2Proof
end

