-- ==== Sys2Proof/Laws/Fetch.lean ====
section
/-! SUPPORT. What a fetch and a step can have done, given that they answered. -/

namespace Sys2Proof.Machine

/-- A fetch reads an admitted instruction that the program did not write, and counts the draws of its
bytes. -/
theorem fetchInstr_eq_next {s u : State} {i : Instr} (h : fetchInstr s = .next (i, u)) :
    ∃ rest, decode s.launch (fetchWindow s maxLength s.pc.toNat s.freeIndex).1 = .ok i rest ∧
      s.written.hits s.pc.toNat
        ((fetchWindow s maxLength s.pc.toNat s.freeIndex).1.length - rest.length) = false ∧
      u = s.setFreeIndex (s.freeIndex + fetchDraws s
        ((fetchWindow s maxLength s.pc.toNat s.freeIndex).1.length - rest.length) s.pc.toNat) := by
  simp only [fetchInstr] at h
  split at h
  · rename_i j rest hd
    split at h
    · cases h
    · rename_i hw
      simp only [Host.Outcome.next.injEq, Prod.mk.injEq] at h
      exact ⟨rest, by rw [hd, h.1], by simpa using hw, h.2.symm⟩
  · split at h <;> cases h
  · split at h <;> cases h

/-- No device address among the bytes, no draw. -/
theorem fetchDraws_eq_zero {s : State} {n a : Nat} (h : ∀ k < n, s.isDevice (a + k) = false) :
    fetchDraws s n a = 0 := by
  induction n generalizing a with
  | zero => rfl
  | succ n ih =>
    have h0 : s.isDevice a = false := h 0 (Nat.succ_pos n)
    have h1 : fetchDraws s n (a + 1) = 0 :=
      ih fun k hk => by rw [Nat.add_assoc, Nat.add_comm 1]; exact h (k + 1) (Nat.succ_lt_succ hk)
    simp [fetchDraws, h0, h1]

/-- A step leaves a halted state as it is, or runs the instruction it fetched. -/
theorem step_eq_next {s t : State} :
    step s = .next t ↔ (s.halted = true ∧ s = t) ∨
      (s.halted = false ∧ ∃ i u, fetchInstr s = .next (i, u) ∧ exec i u = .next t) := by
  unfold step
  split
  · rename_i h
    simp [h]
  · rename_i h
    rw [Bool.not_eq_true] at h
    rw [andThen_eq_next]
    constructor
    · rintro ⟨⟨i, u⟩, h1, h2⟩
      exact .inr ⟨h, i, u, h1, h2⟩
    · rintro (⟨h', -⟩ | ⟨-, i, u, h1, h2⟩)
      · rw [h] at h'
        cases h'
      · exact ⟨(i, u), h1, h2⟩

end Sys2Proof.Machine
end

