-- ==== Sys2Proof/Laws/Next.lean ====
section
/-! SUPPORT. What each shared operation can have done, given that it answered: one lemma for each. -/

namespace Sys2Proof.Machine

/-- A memory access or a move of registers, as far as the rest of the state can tell: the system
registers, the flags and the pc are as they were, and memory stays canonical. -/
structure DataStep (s t : State) : Prop where
  quiet : Quiet s t
  wf : s.mem.wf = true → s.written.wf = true → t.mem.wf = true ∧ t.written.wf = true

theorem DataStep.refl (s : State) : DataStep s s :=
  ⟨⟨SameSystem.refl s, rfl, rfl⟩, fun h k => ⟨h, k⟩⟩

theorem DataStep.trans {s t u : State} (h : DataStep s t) (k : DataStep t u) : DataStep s u :=
  ⟨h.quiet.trans k.quiet, fun a b => k.wf (h.wf a b).1 (h.wf a b).2⟩

/-- A data step that stores nothing. -/
structure LoadStep (s t : State) : Prop extends DataStep s t where
  same : SameMem s t

theorem LoadStep.refl (s : State) : LoadStep s s := ⟨DataStep.refl s, SameMem.refl s⟩

theorem SameMem.trans {s t u : State} (h : SameMem s t) (k : SameMem t u) : SameMem s u :=
  ⟨fun a => (k.bytes a).trans (h.bytes a), k.written.trans h.written⟩

theorem LoadStep.trans {s t u : State} (h : LoadStep s t) (k : LoadStep t u) : LoadStep s u :=
  ⟨h.toDataStep.trans k.toDataStep, h.same.trans k.same⟩

theorem loadStep_setFreeIndex (s : State) (n : Nat) : LoadStep s (s.setFreeIndex n) :=
  ⟨⟨⟨⟨rfl, rfl, rfl, rfl, rfl⟩, rfl, rfl⟩, fun h k => ⟨h, k⟩⟩, ⟨fun _ => rfl, rfl⟩⟩

theorem loadStep_set32 (s : State) (p : PReg) (v : Long) : LoadStep s (s.set32 p v) :=
  ⟨⟨⟨⟨by simp, by simp, by simp, by simp, by simp⟩, by simp, by simp⟩, fun h k => by simpa using ⟨h, k⟩⟩,
    ⟨fun _ => by simp, by simp⟩⟩

theorem loadStep_writeSlot (sz : Size) (x : Slot) (v : BitVec sz.bits) (s : State) :
    LoadStep s (writeSlot sz x v s) := loadStep_set32 _ _ _

theorem loadStep_eaUpdate (m : Mem) (s : State) : LoadStep s (eaUpdate m s) := by
  cases m <;> first | exact LoadStep.refl s | exact loadStep_set32 _ _ _

theorem readMem_step {sz : Size} {a : Addr} {s : State} {p : BitVec sz.bits × State}
    (h : readMem sz a s = .next p) : LoadStep s p.2 := by
  obtain ⟨k, hk, -⟩ := readMem_eq_next (v := p.1) (t := p.2) h
  rw [hk]
  exact loadStep_setFreeIndex _ _

theorem readEa_step {sz : Size} {m : Mem} {s : State} {p : BitVec sz.bits × State}
    (h : readEa sz m s = .next p) : LoadStep s p.2 :=
  (loadStep_eaUpdate m s).trans (readMem_step h)

theorem writeMem_step {sz : Size} {a : Addr} {v : BitVec sz.bits} {s t : State}
    (h : writeMem sz a v s = .next t) : DataStep s t := by
  have ho := onlyMem_of_eq (writeMem_eq_next h).2
  exact ⟨⟨ho.system, ho.flags, ho.pc⟩, fun hm hw => writeBytes_wf h hm hw⟩

theorem writeEa_step {sz : Size} {m : Mem} {v : BitVec sz.bits} {s t : State}
    (h : writeEa sz m v s = .next t) : DataStep s t :=
  (loadStep_eaUpdate m s).toDataStep.trans (writeMem_step h)

theorem item_step {dir : Dir} {z : BW} {p : BlockPair} {s t : State} (h : item dir z p s = .next t) :
    DataStep s t := by
  rw [item, andThen_eq_next] at h
  obtain ⟨q, h1, h⟩ := h
  rw [andThen_eq_next] at h
  obtain ⟨s1, h2, h⟩ := h
  obtain rfl : itemRegs dir z p s1 = t := by simpa using h
  refine ((readMem_step h1).toDataStep.trans (writeMem_step h2)).trans ?_
  exact ((loadStep_set32 _ _ _).trans ((loadStep_set32 _ _ _).trans (loadStep_writeSlot _ _ _ _))).toDataStep

theorem repeatItems_step {dir : Dir} {z : BW} {p : BlockPair} {fuel : Nat} {s t : State}
    (h : repeatItems dir z p fuel s = .next t) : DataStep s t := by
  induction fuel generalizing s with
  | zero =>
    obtain rfl : s = t := by simpa [repeatItems] using h
    exact DataStep.refl s
  | succ fuel ih =>
    rw [repeatItems, andThen_eq_next] at h
    obtain ⟨s1, h1, h⟩ := h
    split at h
    · obtain rfl : s1 = t := by simpa using h
      exact item_step h1
    · exact (item_step h1).trans (ih h)

/-- A refusal of auto-update operands lets the rest through or refuses. -/
theorem requireNoAuto_eq_next {m : Mem} {s t : State} {k : Result State} :
    requireNoAuto m s k = .next t ↔ autoReg m s = none ∧ k = .next t := by
  unfold requireNoAuto
  cases autoReg m s <;> simp

theorem requireNotAuto_eq_next {m : Mem} {x : Slot} {s t : State} {k : Result State} :
    requireNotAuto m x s k = .next t ↔ autoReg m s ≠ some x.reg ∧ k = .next t := by
  unfold requireNotAuto
  split <;> simp [*]

/-- The control register a code names, at its own width. -/
theorem requireCr_eq_next {sz : Size} {code : Byte} {s : State} {name : CrName} :
    requireCr sz code s = .next name ↔ ∃ e, s.crEntry code = some e ∧ e.width = sz ∧ e.name = name := by
  unfold requireCr
  cases s.crEntry code with
  | none => simp
  | some e => by_cases h : e.width = sz <;> simp [h]

/-- A jump writes the pc and nothing else. -/
theorem jumpIf_eq_next {cc : Cond} {target : Int} {len : Nat} {s t : State}
    (h : jumpIf cc target len s = .next t) :
    s.pc.toNat + len < Config.addressSpace ∧ ∃ a, t = s.setPc a := by
  unfold jumpIf at h
  split at h
  · obtain ⟨hn, h⟩ := requireNext_eq_next.mp h
    exact ⟨hn, _, (jumpTo_eq_next.mp h).2⟩
  · exact ⟨(finish_eq_next.mp h).1, _, (finish_eq_next.mp h).2⟩

/-- Loading the carry flag writes that flag and draws at most one free value. -/
theorem loadCarry_eq {n : Nat} (v : BitVec n) (num : Nat) (s : State) :
    ∃ k c, loadCarry v num s = (s.setFreeIndex (s.freeIndex + k)).setFlags { s.flags with c := c } ∧
      (num < n → c = v.getLsbD num) ∧
      (n ≤ num → c = Config.freeBit s.freeIndex ∧ k = 1) := by
  unfold loadCarry bitOrFree
  split
  · exact ⟨0, _, rfl, fun _ => rfl, fun h => by omega⟩
  · exact ⟨1, _, rfl, fun h => by omega, fun _ => ⟨rfl, rfl⟩⟩

/-- A modulo instruction with a modulus of its range steps its register; with another it is refused. -/
theorem moduloStep_eq_next {cycle : Nat → Nat → BitVec 16 → BitVec 16} {k nmin : Nat}
    {field : BitVec 16} {r : RegOp} {len : Nat} {s t : State}
    (h : moduloStep cycle k nmin field r len s = .next t) :
    ∃ num, moduloNum field k nmin = some num ∧
      finish len (writeSlot .word (slotOf .word r s)
        (cycle num k (readSlot .word (slotOf .word r s) s)) s) = .next t := by
  unfold moduloStep at h
  split at h
  · cases h
  · exact ⟨_, by assumption, h⟩

/-- The moduli of R192. -/
theorem moduloNum_eq_some {field : BitVec 16} {k nmin num : Nat} :
    moduloNum field k nmin = some num ↔
      num = field.toNat + k ∧ ∃ n, nmin ≤ n ∧ n ≤ 15 ∧ field.toNat + k = 2 ^ n := by
  simp only [moduloNum]
  constructor
  · intro h
    split at h
    · rename_i ha
      simp only [List.any_eq_true, List.mem_range, Bool.and_eq_true, decide_eq_true_eq,
        beq_iff_eq] at ha
      obtain ⟨n, hn, h1, h2⟩ := ha
      exact ⟨by simpa using h.symm, n, h1, by omega, h2⟩
    · cases h
  · rintro ⟨rfl, n, h1, h2, h3⟩
    rw [if_pos]
    simp only [List.any_eq_true, List.mem_range, Bool.and_eq_true, decide_eq_true_eq, beq_iff_eq]
    exact ⟨n, by omega, h1, h3⟩

end Sys2Proof.Machine
end

