-- ==== Sys2Proof/Laws/PerInstr.lean ====
section
/-! SUPPORT. A fact of every instruction's syntax, one lemma per constructor: the encoder writes as many bytes as R73 says. -/

namespace Sys2Proof.Laws.EncodeLength

open Sys2Proof

/-- The encoding of `i` has the length of R73. -/
def Statement (i : Instr) : Prop := (encode i).length = i.len

/-- After a register prefix. -/
theorem of_regPrefix {i : Instr} {sz : Size} {r : RegOp} {bs : List Byte} (h : encode i = regPrefix sz r ++ bs)
    (hlen : i.len = r.prefixLen + bs.length) : Statement i := by
  rw [Statement, h, hlen, List.length_append, regPrefix_length]

/-- After a memory prefix. -/
theorem of_memPrefix {i : Instr} {ss : BitVec 2} {m : Mem} {bs : List Byte} (h : encode i = memPrefix ss m ++ bs)
    (hlen : i.len = 1 + m.extLen + bs.length) : Statement i := by
  rw [Statement, h, hlen, List.length_append, memPrefix_length]

theorem halt : Statement (.halt) := rfl

theorem incReg (sz : Size) (num : BitVec 3) (r : RegOp) : Statement (.incReg sz num r) :=
  of_regPrefix rfl (by simp [Instr.len]; try omega)

theorem incMem (z : BW) (num : BitVec 3) (m : Mem) : Statement (.incMem z num m) :=
  of_memPrefix rfl (by simp [Instr.len]; try omega)

theorem incf : Statement (.incf) := rfl

theorem jpAbs16 (a : BitVec 16) : Statement (.jpAbs16 a) := rfl

theorem jpAbs24 (a : BitVec 24) : Statement (.jpAbs24 a) := rfl

theorem jpMem (cc : Cond) (m : Mem) : Statement (.jpMem cc m) :=
  of_memPrefix rfl (by simp [Instr.len]; try omega)

theorem jr (cc : Cond) (d : BitVec 8) : Statement (.jr cc d) := rfl

theorem jrl (cc : Cond) (d : BitVec 16) : Statement (.jrl cc d) := rfl

theorem ldCodeFromReg (sz : Size) (c : BitVec 3) (r : RegOp) : Statement (.ldCodeFromReg sz c r) :=
  of_regPrefix rfl (by simp [Instr.len]; try omega)

theorem ldRegFromCode (sz : Size) (r : RegOp) (c : BitVec 3) : Statement (.ldRegFromCode sz r c) :=
  of_regPrefix rfl (by simp [Instr.len]; try omega)

theorem ldRegImm3 (sz : Size) (r : RegOp) (v : BitVec 3) : Statement (.ldRegImm3 sz r v) :=
  of_regPrefix rfl (by simp [Instr.len]; try omega)

theorem ldCodeImm (sz : Size) (c : BitVec 3) (v : BitVec sz.bits) : Statement (.ldCodeImm sz c v) := by cases sz <;> rfl

theorem ldRegImm (sz : Size) (r : RegOp) (v : BitVec sz.bits) : Statement (.ldRegImm sz r v) :=
  of_regPrefix rfl (by simp [Instr.len]; try omega)

theorem ldCodeMem (sz : Size) (c : BitVec 3) (m : Mem) : Statement (.ldCodeMem sz c m) :=
  of_memPrefix rfl (by simp [Instr.len]; try omega)

theorem ldMemCode (sz : Size) (m : Mem) (c : BitVec 3) : Statement (.ldMemCode sz m c) :=
  of_memPrefix rfl (by simp [Instr.len]; try omega)

theorem ldAbs8Imm (z : BW) (a : BitVec 8) (v : BitVec z.size.bits) : Statement (.ldAbs8Imm z a v) := by cases z <;> rfl

theorem ldMemImm (z : BW) (m : Mem) (v : BitVec z.size.bits) : Statement (.ldMemImm z m v) :=
  of_memPrefix rfl (by simp [Instr.len]; try omega)

theorem ldAbs16Mem (z : BW) (a : BitVec 16) (m : Mem) : Statement (.ldAbs16Mem z a m) :=
  of_memPrefix rfl (by simp [Instr.len]; try omega)

theorem ldMemAbs16 (z : BW) (m : Mem) (a : BitVec 16) : Statement (.ldMemAbs16 z m a) :=
  of_memPrefix rfl (by simp [Instr.len]; try omega)

theorem lda (w : WL) (c : BitVec 3) (m : Mem) : Statement (.lda w c m) :=
  of_memPrefix rfl (by simp [Instr.len]; try omega)

theorem ldar (w : WL) (c : BitVec 3) (d : BitVec 16) : Statement (.ldar w c d) := rfl

theorem ldcToCr (sz : Size) (cr : BitVec 8) (r : RegOp) : Statement (.ldcToCr sz cr r) :=
  of_regPrefix rfl (by simp [Instr.len]; try omega)

theorem ldcFromCr (sz : Size) (r : RegOp) (cr : BitVec 8) : Statement (.ldcFromCr sz r cr) :=
  of_regPrefix rfl (by simp [Instr.len]; try omega)

theorem ldcfImmReg (z : BW) (b : BitVec 8) (r : RegOp) : Statement (.ldcfImmReg z b r) :=
  of_regPrefix rfl (by simp [Instr.len]; try omega)

theorem ldcfAReg (z : BW) (r : RegOp) : Statement (.ldcfAReg z r) :=
  of_regPrefix rfl (by simp [Instr.len]; try omega)

theorem ldcfImmMem (num : BitVec 3) (m : Mem) : Statement (.ldcfImmMem num m) :=
  of_memPrefix rfl (by simp [Instr.len]; try omega)

theorem ldcfAMem (m : Mem) : Statement (.ldcfAMem m) :=
  of_memPrefix rfl (by simp [Instr.len]; try omega)

theorem lddDeHl (z : BW) : Statement (.lddDeHl z) := rfl

theorem lddIxIy (z : BW) : Statement (.lddIxIy z) := rfl

theorem lddrDeHl (z : BW) : Statement (.lddrDeHl z) := rfl

theorem lddrIxIy (z : BW) : Statement (.lddrIxIy z) := rfl

theorem ldiDeHl (z : BW) : Statement (.ldiDeHl z) := rfl

theorem ldiIxIy (z : BW) : Statement (.ldiIxIy z) := rfl

theorem ldirDeHl (z : BW) : Statement (.ldirDeHl z) := rfl

theorem ldirIxIy (z : BW) : Statement (.ldirIxIy z) := rfl

theorem ldf (num : BitVec 3) : Statement (.ldf num) := rfl

theorem ldx (a : BitVec 8) (v : BitVec 8) : Statement (.ldx a v) := rfl

theorem link (r : RegOp) (d : BitVec 16) : Statement (.link r d) :=
  of_regPrefix rfl (by simp [Instr.len]; try omega)

theorem mdec1 (field : BitVec 16) (r : RegOp) : Statement (.mdec1 field r) :=
  of_regPrefix rfl (by simp [Instr.len]; try omega)

theorem mdec2 (field : BitVec 16) (r : RegOp) : Statement (.mdec2 field r) :=
  of_regPrefix rfl (by simp [Instr.len]; try omega)

theorem mdec4 (field : BitVec 16) (r : RegOp) : Statement (.mdec4 field r) :=
  of_regPrefix rfl (by simp [Instr.len]; try omega)

theorem minc1 (field : BitVec 16) (r : RegOp) : Statement (.minc1 field r) :=
  of_regPrefix rfl (by simp [Instr.len]; try omega)

theorem minc2 (field : BitVec 16) (r : RegOp) : Statement (.minc2 field r) :=
  of_regPrefix rfl (by simp [Instr.len]; try omega)

theorem minc4 (field : BitVec 16) (r : RegOp) : Statement (.minc4 field r) :=
  of_regPrefix rfl (by simp [Instr.len]; try omega)

theorem mirr (r : RegOp) : Statement (.mirr r) :=
  of_regPrefix rfl (by simp [Instr.len]; try omega)

theorem mulReg (z : BW) (c : BitVec 3) (r : RegOp) : Statement (.mulReg z c r) :=
  of_regPrefix rfl (by simp [Instr.len]; try omega)

theorem mulImm (z : BW) (r : RegOp) (v : BitVec z.size.bits) : Statement (.mulImm z r v) :=
  of_regPrefix rfl (by simp [Instr.len]; try omega)

theorem mulMem (z : BW) (c : BitVec 3) (m : Mem) : Statement (.mulMem z c m) :=
  of_memPrefix rfl (by simp [Instr.len]; try omega)

theorem mula (r : RegOp) : Statement (.mula r) :=
  of_regPrefix rfl (by simp [Instr.len]; try omega)

theorem mulsReg (z : BW) (c : BitVec 3) (r : RegOp) : Statement (.mulsReg z c r) :=
  of_regPrefix rfl (by simp [Instr.len]; try omega)

theorem mulsImm (z : BW) (r : RegOp) (v : BitVec z.size.bits) : Statement (.mulsImm z r v) :=
  of_regPrefix rfl (by simp [Instr.len]; try omega)

theorem mulsMem (z : BW) (c : BitVec 3) (m : Mem) : Statement (.mulsMem z c m) :=
  of_memPrefix rfl (by simp [Instr.len]; try omega)

theorem neg (z : BW) (r : RegOp) : Statement (.neg z r) :=
  of_regPrefix rfl (by simp [Instr.len]; try omega)

theorem nop : Statement (.nop) := rfl

end Sys2Proof.Laws.EncodeLength
end

