-- ==== Sys2Proof/Tests/Slice0.lean ====
section
/-! SUPPORT. Tests: ill-formed terms, words of the spec decoded, single steps with the results of 95_test_vectors.md, and for every
statement with hypotheses a state and operands that meet them. -/

namespace Sys2Proof.Tests

open Sys2Proof Sys2Proof.Machine

/-! ### Helpers -/

def bytes (l : List Nat) : List Byte := l.map (BitVec.ofNat 8)

/-- The bytes decode to `i`, all of them, under the launch arguments of reset. -/
def decodesTo (l : List Nat) (i : Instr) : Bool := decide (decode resetLaunch (bytes l) = .ok i [])

/-- Why bytes are rejected. -/
def rejects (l : Launch) (bs : List Nat) : Option DecodeError :=
  match decode l (bytes bs) with
  | .reject why _ => some why
  | _ => none

/-- `s` with code loaded at `pc`. -/
def codeAt (pc : Addr) (code : List Nat) (s : State) : State := loadAtPc (bytes code) { s with pc := pc }

def code (l : List Nat) (s : State) : State := codeAt 0x1000#24 l s

/-- `s` with bytes loaded into memory. -/
def data (a : Nat) (l : List Nat) (s : State) : State := { s with mem := loadBytes (bytes l) a s.mem }

/-- The state after reset with some registers set. -/
def regs (l : List (PReg × Long)) : State := l.foldl (fun s x => s.set32 x.1 x.2) State.reset

def xwa : PReg := .bank 0 .xwa
def xbc : PReg := .bank 0 .xbc
def xde : PReg := .bank 0 .xde
def xhl : PReg := .bank 0 .xhl

/-- What `f` sees after one step that answers a next state. -/
def after {α : Type} (s : State) (f : State → α) : Option α :=
  match step s with
  | .next t => some (f t)
  | _ => none

def refusal (s : State) : Option Refusal :=
  match step s with
  | .refused e => some e
  | _ => none

def fault (s : State) : Option Fault :=
  match step s with
  | .fault e => some e
  | _ => none

/-- Flags written S Z H V N C. -/
def flags (s z h v n c : Nat) : Flags := ⟨s == 1, z == 1, h == 1, v == 1, n == 1, c == 1⟩

def allFlags : Flags := flags 1 1 1 1 1 1

/-! ### Ill-formed terms (R79, R85, R202) -/

theorem test_wf_word_odd_part :
    (Instr.incReg .word 1#3 (.ext ⟨.xix, 1#2⟩)).wf = false := by decide

theorem test_wf_long_part :
    (Instr.link (.ext ⟨.xiy, 2#2⟩) 0#16).wf = false := by decide

theorem test_wf_idx16_odd_part :
    (Instr.ldCodeMem .byte 0#3 (.idx16 .xix ⟨.xiy, 3#2⟩)).wf = false := by decide

theorem test_wf_mul_even_code :
    (Instr.mulReg .byte 2#3 (.short 0#3)).wf = false := by decide

theorem test_wf_mul_imm_even_code :
    (Instr.mulImm .byte (.short 4#3) 0#8).wf = false := by decide

theorem test_wf_mul_imm_odd_part :
    (Instr.mulsImm .byte (.ext ⟨.xix, 1#2⟩) 0#8).wf = false := by decide

theorem test_wf_mula_upper_half :
    (Instr.mula (.ext ⟨.xix, 2#2⟩)).wf = false := by decide

/-! ### Words of 30_encoding.md R104 and 95_test_vectors.md, one for each constructor -/

theorem test_decode_halt :
    decodesTo [0x05] .halt = true := by decide

theorem test_decode_incReg :
    decodesTo [0xD8, 0x65] (.incReg .word 5#3 (.short 0#3)) = true := by decide

theorem test_decode_incMem :
    decodesTo [0x93, 0x60] (.incMem .word 0#3 (.ind 3#3)) = true := by decide

theorem test_decode_incf :
    decodesTo [0x0C] .incf = true := by decide

theorem test_decode_jpAbs16 :
    decodesTo [0x1A, 0x00, 0x20] (.jpAbs16 0x2000#16) = true := by decide

theorem test_decode_jpAbs24 :
    decodesTo [0x1B, 0x58, 0x34, 0x12] (.jpAbs24 0x123458#24) = true := by decide

theorem test_decode_jpMem :
    decodesTo [0xBC, 0x02, 0xD7] (.jpMem .c (.indD8 4#3 2#8)) = true := by decide

theorem test_decode_jr :
    decodesTo [0x68, 0x76] (.jr .t 0x76#8) = true := by decide

theorem test_decode_jrl :
    decodesTo [0x78, 0xFD, 0xFE] (.jrl .t 0xFEFD#16) = true := by decide

theorem test_decode_ldCodeFromReg :
    decodesTo [0xDA, 0x8C] (.ldCodeFromReg .word 4#3 (.short 2#3)) = true := by decide

theorem test_decode_ldRegFromCode :
    decodesTo [0xDC, 0x9A] (.ldRegFromCode .word (.short 4#3) 2#3) = true := by decide

theorem test_decode_ldRegImm3 :
    decodesTo [0xE8, 0xA8] (.ldRegImm3 .long (.short 0#3) 0#3) = true := by decide

theorem test_decode_ldCodeImm :
    decodesTo [0x30, 0x34, 0x12] (.ldCodeImm .word 0#3 0x1234#16) = true := by decide

theorem test_decode_ldRegImm :
    decodesTo [0xDC, 0x03, 0x67, 0x45] (.ldRegImm .word (.short 4#3) 0x4567#16) = true := by decide

theorem test_decode_ldCodeMem :
    decodesTo [0x93, 0x20] (.ldCodeMem .word 0#3 (.ind 3#3)) = true := by decide

theorem test_decode_ldMemCode :
    decodesTo [0xB4, 0x50] (.ldMemCode .word (.ind 4#3) 0#3) = true := by decide

theorem test_decode_ldAbs8Imm :
    decodesTo [0x0A, 0x6A, 0x34, 0x12] (.ldAbs8Imm .word 0x6A#8 0x1234#16) = true := by decide

theorem test_decode_ldMemImm :
    decodesTo [0xB4, 0x02, 0x34, 0x12] (.ldMemImm .word (.ind 4#3) 0x1234#16) = true := by decide

theorem test_decode_ldMemAbs16 :
    decodesTo [0xB4, 0x16, 0x00, 0x10] (.ldMemAbs16 .word (.ind 4#3) 0x1000#16) = true := by decide

theorem test_decode_lda :
    decodesTo [0xBD, 0x33, 0x34] (.lda .long 4#3 (.indD8 5#3 0x33#8)) = true := by decide

theorem test_decode_ldar :
    decodesTo [0xF3, 0x13, 0x41, 0x13, 0x34] (.ldar .long 4#3 0x1341#16) = true := by decide

theorem test_decode_ldcToCr :
    decodesTo [0xD8, 0x2E, 0x20] (.ldcToCr .word 0x20#8 (.short 0#3)) = true := by decide

theorem test_decode_ldcFromCr :
    decodesTo [0xD9, 0x2F, 0x20] (.ldcFromCr .word (.short 1#3) 0x20#8) = true := by decide

theorem test_decode_ldcfImmReg :
    decodesTo [0xD8, 0x23, 0x0F] (.ldcfImmReg .word 0x0F#8 (.short 0#3)) = true := by decide

theorem test_decode_ldcfAReg :
    decodesTo [0xCB, 0x2B] (.ldcfAReg .byte (.short 3#3)) = true := by decide

theorem test_decode_ldcfImmMem :
    decodesTo [0xF1, 0x00, 0x01, 0x9E] (.ldcfImmMem 6#3 (.abs16 0x100#16)) = true := by decide

theorem test_decode_ldcfAMem :
    decodesTo [0xB3, 0x2B] (.ldcfAMem (.ind 3#3)) = true := by decide

theorem test_decode_lddDeHl :
    decodesTo [0x83, 0x12] (.lddDeHl .byte) = true := by decide

theorem test_decode_lddIxIy :
    decodesTo [0x85, 0x12] (.lddIxIy .byte) = true := by decide

theorem test_decode_lddrDeHl :
    decodesTo [0x93, 0x13] (.lddrDeHl .word) = true := by decide

theorem test_decode_lddrIxIy :
    decodesTo [0x95, 0x13] (.lddrIxIy .word) = true := by decide

theorem test_decode_ldiDeHl :
    decodesTo [0x83, 0x10] (.ldiDeHl .byte) = true := by decide

theorem test_decode_ldiIxIy :
    decodesTo [0x95, 0x10] (.ldiIxIy .word) = true := by decide

theorem test_decode_ldirDeHl :
    decodesTo [0x83, 0x11] (.ldirDeHl .byte) = true := by decide

theorem test_decode_ldirIxIy :
    decodesTo [0x85, 0x11] (.ldirIxIy .byte) = true := by decide

theorem test_decode_ldf :
    decodesTo [0x17, 0x01] (.ldf 1#3) = true := by decide

theorem test_decode_ldx :
    decodesTo [0xF7, 0xFF, 0x6A, 0x55, 0x17, 0xAA] (.ldx 0x6A#8 0x17#8) = true := by decide

theorem test_decode_link :
    decodesTo [0xEE, 0x0C, 0xC0, 0xFF] (.link (.short 6#3) 0xFFC0#16) = true := by decide

theorem test_decode_mdec1 :
    decodesTo [0xDC, 0x3C, 0x07, 0x00] (.mdec1 7#16 (.short 4#3)) = true := by decide

theorem test_decode_mdec2 :
    decodesTo [0xDC, 0x3D, 0x06, 0x00] (.mdec2 6#16 (.short 4#3)) = true := by decide

theorem test_decode_mdec4 :
    decodesTo [0xDC, 0x3E, 0x7C, 0x00] (.mdec4 0x7C#16 (.short 4#3)) = true := by decide

theorem test_decode_minc1 :
    decodesTo [0xDC, 0x38, 0x07, 0x00] (.minc1 7#16 (.short 4#3)) = true := by decide

theorem test_decode_minc2 :
    decodesTo [0xDC, 0x39, 0x06, 0x00] (.minc2 6#16 (.short 4#3)) = true := by decide

theorem test_decode_minc4 :
    decodesTo [0xDC, 0x3A, 0x3C, 0x00] (.minc4 0x3C#16 (.short 4#3)) = true := by decide

theorem test_decode_mirr :
    decodesTo [0xDB, 0x16] (.mirr (.short 3#3)) = true := by decide

theorem test_decode_mulReg :
    decodesTo [0xDD, 0x44] (.mulReg .word 4#3 (.short 5#3)) = true := by decide

theorem test_decode_mulImm :
    decodesTo [0xC7, 0xF0, 0x08, 0x05] (.mulImm .byte (.ext ⟨.xix, 0#2⟩) 5#8) = true := by decide

theorem test_decode_mulMem :
    decodesTo [0x93, 0x44] (.mulMem .word 4#3 (.ind 3#3)) = true := by decide

theorem test_decode_mula :
    decodesTo [0xDC, 0x19] (.mula (.short 4#3)) = true := by decide

theorem test_decode_mulsReg :
    decodesTo [0xCB, 0x49] (.mulsReg .byte 1#3 (.short 3#3)) = true := by decide

theorem test_decode_mulsImm :
    decodesTo [0xDC, 0x09, 0x01, 0x00] (.mulsImm .word (.short 4#3) 1#16) = true := by decide

theorem test_decode_mulsMem :
    decodesTo [0x83, 0x49] (.mulsMem .byte 1#3 (.ind 3#3)) = true := by decide

theorem test_decode_neg :
    decodesTo [0xDC, 0x07] (.neg .word (.short 4#3)) = true := by decide

theorem test_decode_nop :
    decodesTo [0x00] .nop = true := by decide

theorem test_decode_long_imm :
    decodesTo [0x44, 0x56, 0x34, 0x12, 0x00] (.ldCodeImm .long 4#3 0x00123456#32) = true := by decide

theorem test_decode_mode_abs8 :
    decodesTo [0xC0, 0x6A, 0x20] (.ldCodeMem .byte 0#3 (.abs8 0x6A#8)) = true := by decide

theorem test_decode_mode_abs24 :
    decodesTo [0xD2, 0x56, 0x34, 0x12, 0x20] (.ldCodeMem .word 0#3 (.abs24 0x123456#24)) = true := by decide

theorem test_decode_mode_extInd :
    decodesTo [0xE3, 0x10, 0x20] (.ldCodeMem .long 0#3 (.extInd (.bank 1 .xwa))) = true := by decide

theorem test_decode_mode_extD16 :
    decodesTo [0xD3, 0xF1, 0xFE, 0xFF, 0x20] (.ldCodeMem .word 0#3 (.extD16 .xix 0xFFFE#16)) = true := by decide

theorem test_decode_mode_idx8 :
    decodesTo [0xC3, 0x03, 0xE8, 0xE1, 0x21] (.ldCodeMem .byte 1#3 (.idx8 (.current .xde) ⟨.current .xwa, 1#2⟩)) = true := by decide

theorem test_decode_mode_idx16 :
    decodesTo [0xC3, 0x07, 0xD4, 0xF6, 0x21] (.ldCodeMem .byte 1#3 (.idx16 (.previous .xbc) ⟨.xiy, 2#2⟩)) = true := by decide

theorem test_decode_mode_preDec :
    decodesTo [0xD4, 0xF6, 0x20] (.ldCodeMem .word 0#3 (.preDec .xiy .four)) = true := by decide

theorem test_decode_mode_postInc :
    decodesTo [0xD5, 0xE1, 0x20] (.ldCodeMem .word 0#3 (.postInc (.current .xwa) .two)) = true := by decide

theorem test_decode_ldAbs16Mem :
    decode { resetLaunch with suspectEncodings := true } (bytes [0x93, 0x19, 0x00, 0x10]) =
      .ok (.ldAbs16Mem .word 0x1000#16 (.ind 3#3)) [] := by decide

/-! ### Rejected bytes (R70, R72, R96, R202; L11, M7, X1 to X3) -/

theorem test_reject_row19 :
    rejects resetLaunch [0x93, 0x19, 0x00, 0x10] = some .gradeRefused := by decide

theorem test_reject_row19_39 :
    rejects resetLaunch [0x93, 0x39, 0x00, 0x10] = some .unknownOpcode := by decide

theorem test_reject_mul_even :
    (rejects resetLaunch [0xCB, 0x40]).isSome = true := by decide

theorem test_reject_first_byte :
    rejects resetLaunch [0x01] = some .unknownOpcode := by decide

theorem test_reject_neg_without_gk :
    rejects { resetLaunch with gkEncodings := false } [0xDC, 0x07] = some .gradeRefused := by decide

theorem test_reject_neg_by_default :
    rejects defaultLaunch [0xDC, 0x07] = some .gradeRefused := by decide

theorem test_reject_inc_long_memory :
    (rejects resetLaunch [0xA3, 0x60]).isSome = true := by decide

theorem test_reject_mode_byte :
    (rejects resetLaunch [0xC3, 0x13, 0x00, 0x00, 0x20]).isSome = true := by decide

theorem test_reject_code8 :
    (rejects resetLaunch [0xC7, 0x40, 0x65]).isSome = true := by decide

/-! ### The host's words -/

theorem test_table_word :
    decodeTableWord 16 0x65D8 = some (.incReg .word 5#3 (.short 0#3)) := by decide

theorem test_table_word_short :
    decodeTableWord 8 0x30 = some (.ldCodeImm .word 0#3 0#16) := by decide

theorem test_withFetchWord :
    after (State.reset.withFetchWord 16 0x7668) State.pc = some 0x000078#24 := by decide

/-! ### Reset (R35; S-LDX) -/

theorem test_reset_vector :
    (State.resetFrom resetLaunch (loadBytes (bytes [0x00, 0x00, 0x01, 0xAB]) 0xFFFF00 [])).pc = 0x010000#24 := by decide

theorem test_reset_runs :
    after State.reset State.pc = some 1#24 := by decide

/-! ### Single steps, with the results of 95_test_vectors.md -/

theorem test_halt :
    after (code [0x05] State.reset) (fun t => (t.pc, t.halted)) =
      some (0x1001#24, true) := by decide

theorem test_nop :
    after (code [0x00] State.reset) (fun t => (t.pc, t.halted)) =
      some (0x1001#24, false) := by decide

theorem test_nop_top :
    refusal (codeAt 0xFFFFFF#24 [0x00] State.reset) = some (.nextOutside 0xFFFFFF#24) := by decide

theorem test_incReg_word :
    after (code [0xD8, 0x65] (regs [(xwa, 0x00001234)])) (fun t => (t.get32 xwa, t.flags)) =
      some (0x1239#32, flags 0 0 0 0 0 0) := by decide

theorem test_incReg_byte :
    after (code [0xC9, 0x60] (regs [(xwa, 0x12345678)])) (fun t => (t.get32 xwa, t.flags)) =
      some (0x12345680#32, flags 1 0 1 1 0 0) := by decide

theorem test_incMem_word :
    after (code [0x93, 0x60] (data 0x200 [0xF8, 0xFF] (regs [(xhl, 0x200)]))) (fun t => (t.byteAt 0x200, t.byteAt 0x201, t.flags)) =
      some (0#8, 0#8, flags 0 1 1 0 0 0) := by decide

theorem test_incMem_byte :
    after (code [0x83, 0x61] (data 0x200 [0x7F] (regs [(xhl, 0x200)]))) (fun t => (t.byteAt 0x200, t.flags)) =
      some (0x80#8, flags 1 0 1 1 0 0) := by decide

theorem test_neg_byte :
    after (code [0xC9, 0x07] (regs [(xwa, 0x11223380)])) (fun t => (t.get32 xwa, t.flags)) =
      some (0x11223380#32, flags 1 0 0 1 1 1) := by decide

theorem test_neg_word :
    after (code [0xDC, 0x07] (regs [(.xix, 0x00010100)])) (fun t => (t.xix, t.flags)) =
      some (0x0001FF00#32, flags 1 0 0 0 1 1) := by decide

theorem test_incf :
    after (code [0x0C] { regs [(xwa, 0x11111111), (.bank 1 .xwa, 0x22222222)] with rfp := 0 }) (fun t => (t.rfp, t.get32 (reg32 0#3 t))) =
      some (1#3, 0x22222222#32) := by decide

theorem test_incf_wrap :
    after (code [0x0C] { State.reset with rfp := 3 }) State.rfp =
      some 0#3 := by decide

theorem test_ldf :
    after (code [0x17, 0x03] State.reset) State.rfp =
      some 3#3 := by decide

theorem test_ldf_4 :
    refusal (code [0x17, 0x04] State.reset) = some (.ldfNumber 0x1000#24) := by decide

theorem test_jp16 :
    after (code [0x1A, 0x00, 0x20] State.reset) State.pc =
      some 0x2000#24 := by decide

theorem test_jp24 :
    after (code [0x1B, 0x58, 0x34, 0x12] State.reset) State.pc =
      some 0x123458#24 := by decide

theorem test_jpMem :
    after (code [0xBC, 0x02, 0xD7] { regs [(.xix, 0x00123456)] with flags := allFlags }) State.pc =
      some 0x123458#24 := by decide

theorem test_jpMem_high :
    refusal (code [0xB4, 0xD8] (regs [(.xix, 0x01004000)])) = some (.targetOutside 0x1000#24) := by decide

theorem test_jr_back :
    after (codeAt 0x2000#24 [0x68, 0x80] State.reset) State.pc =
      some 0x1F82#24 := by decide

theorem test_jr_not_taken :
    after (codeAt 0x2000#24 [0x6F, 0x10] { State.reset with flags := allFlags }) State.pc =
      some 0x2002#24 := by decide

theorem test_jrl_back :
    after (codeAt 0x3000#24 [0x78, 0xFD, 0xFE] State.reset) State.pc =
      some 0x2F00#24 := by decide

theorem test_jp24_top :
    refusal (codeAt 0xFFFFFC#24 [0x1B, 0x58, 0x34, 0x12] State.reset) = some (.nextOutside 0xFFFFFC#24) := by decide

theorem test_jr_top :
    refusal (codeAt 0xFFFFFE#24 [0x68, 0x00] State.reset) = some (.nextOutside 0xFFFFFE#24) := by decide

theorem test_jr_low :
    refusal (codeAt 0#24 [0x68, 0x80] State.reset) = some (.targetOutside 0#24) := by decide

theorem test_ldCodeFromReg :
    after (code [0xDA, 0x8C] (regs [(xde, 0x4567), (.xix, 0xAAAA0000)])) State.xix =
      some 0xAAAA4567#32 := by decide

theorem test_ldRegFromCode :
    after (code [0xDC, 0x9A] (regs [(xde, 0x4567), (.xix, 0xAAAA0000)])) State.xix =
      some 0xAAAA4567#32 := by decide

theorem test_ldRegImm3 :
    after (code [0xE8, 0xA8] (regs [(xwa, 0xAAAAAAAA)])) (fun t => t.get32 xwa) =
      some 0#32 := by decide

theorem test_ldCodeImm :
    after (code [0x21, 0x7F] (regs [(xwa, 0x11223344)])) (fun t => t.get32 xwa) =
      some 0x1122337F#32 := by decide

theorem test_ldRegImm :
    after (code [0xDC, 0x03, 0x67, 0x45] State.reset) State.xix =
      some 0x4567#32 := by decide

theorem test_ldCodeMem :
    after (code [0x93, 0x20] (data 0x200 [0x34, 0x12] (regs [(xhl, 0x200)]))) (fun t => (t.get32 xwa, t.pc)) =
      some (0x1234#32, 0x1002#24) := by decide

theorem test_ldCodeMem_auto :
    refusal (code [0xD5, 0xE1, 0x20] State.reset) = some (.autoUpdateData 0x1000#24) := by decide

theorem test_ldMemCode :
    after (code [0xB4, 0x50] (regs [(.xix, 0x300), (xwa, 0x1234BEEF)])) (fun t => (t.byteAt 0x300, t.byteAt 0x301, t.byteAt 0x302, t.written)) =
      some (0xEF#8, 0xBE#8, 0#8, [0x300, 0x301]) := by decide

theorem test_ldAbs8Imm :
    after (code [0x0A, 0x6A, 0x34, 0x12] State.reset) (fun t => (t.byteAt 0x6A, t.byteAt 0x6B)) =
      some (0x34#8, 0x12#8) := by decide

theorem test_ldMemImm :
    after (code [0xB4, 0x02, 0x34, 0x12] (regs [(.xix, 0x300)])) (fun t => (t.byteAt 0x300, t.byteAt 0x301)) =
      some (0x34#8, 0x12#8) := by decide

theorem test_ldAbs16Mem :
    (match exec (.ldAbs16Mem .word 0x1000#16 (.ind 3#3)) (data 0x200 [0xCD, 0xAB] (regs [(xhl, 0x200)])) with
      | .next t => some (t.byteAt 0x1000, t.byteAt 0x1001, t.pc)
      | _ => none) = some (0xCD#8, 0xAB#8, 0x4#24) := by decide

theorem test_ldMemAbs16 :
    after (codeAt 0x2000#24 [0xB4, 0x16, 0x00, 0x10] (data 0x1000 [0xCD, 0xAB] (regs [(.xix, 0x300)]))) (fun t => (t.byteAt 0x300, t.byteAt 0x301)) =
      some (0xCD#8, 0xAB#8) := by decide

theorem test_ldx :
    after (code [0xF7, 0xFF, 0x6A, 0x55, 0x17, 0xAA] State.reset) (fun t => (t.byteAt 0x6A, t.pc)) =
      some (0x17#8, 0x1006#24) := by decide

theorem test_postInc :
    after (code [0xD5, 0xF1, 0x20] (data 0x200 [0x34, 0x12] (regs [(.xix, 0x200)]))) (fun t => (t.get32 xwa, t.xix)) =
      some (0x1234#32, 0x202#32) := by decide

theorem test_preDec :
    after (code [0xC4, 0xF0, 0x20] (data 0x1FF [0x34] (regs [(.xix, 0x200)]))) (fun t => (t.get32 xwa, t.xix)) =
      some (0x3400#32, 0x1FF#32) := by decide

theorem test_lda :
    after (code [0xBD, 0x80, 0x34] (regs [(.xiy, 0x00123456)])) State.xix =
      some 0x001233D6#32 := by decide

theorem test_lda_word :
    after (code [0xBD, 0x33, 0x24] (regs [(.xiy, 0x00123456), (.xix, 0x55555555)])) State.xix =
      some 0x55553489#32 := by decide

theorem test_ldar :
    after (code [0xF3, 0x13, 0x41, 0x13, 0x34] State.reset) State.xix =
      some 0x2345#32 := by decide

theorem test_ldar_low :
    refusal (codeAt 0#24 [0xF3, 0x13, 0xF0, 0xFF, 0x34] State.reset) = some (.addressOutside 0#24) := by decide

theorem test_ldcToCr :
    after (code [0xD8, 0x2E, 0x20] (regs [(xwa, 0x56781234)])) State.cr =
      some [(.dmac 0, 0x1234#32)] := by decide

theorem test_ldcFromCr :
    after (code [0xD9, 0x2F, 0x20] { State.reset with cr := ControlRegs.zero.put (.dmac 0) 0x1234#32 }) (fun t => t.get32 xbc) =
      some 0x1234#32 := by decide

theorem test_ldc_default_map :
    refusal (code [0xD8, 0x2E, 0x20] { State.reset with launch := { defaultLaunch with gkEncodings := true } }) =
      some (.crCode 0x1000#24) := by decide

theorem test_ldc_other_register :
    after (code [0xEC, 0x2E, 0x20] { regs [(.xix, 0x12345678)] with launch :=
        { resetLaunch with crMap := [⟨0x20#8, .other 7, .long⟩] } }) State.cr =
      some [(.other 7, 0x12345678#32)] := by decide

theorem test_ldc_width :
    refusal (code [0xC8, 0x2E, 0x20] State.reset) = some (.crWidth 0x1000#24) := by decide

theorem test_ldcfImmReg :
    after (code [0xD8, 0x23, 0x0F] (regs [(xwa, 0x8000)])) State.flags =
      some (flags 0 0 0 0 0 1) := by decide

theorem test_ldcfAReg :
    after (code [0xCB, 0x2B] (regs [(xwa, 0xF6), (xbc, 0x40)])) State.flags =
      some (flags 0 0 0 0 0 1) := by decide

theorem test_ldcf_free :
    after (code [0xC9, 0x23, 0x09] State.reset) (fun t => (t.flags.c, t.freeIndex, t.pc)) =
      some (Config.freeBit 0, 1, 0x1003#24) := by rfl

theorem test_ldcf_bad_byte :
    refusal (code [0xD8, 0x23, 0x1F] State.reset) = some (.ldcfHighBits 0x1000#24) := by decide

theorem test_ldcfImmMem :
    after (code [0xF1, 0x00, 0x01, 0x9E] (data 0x100 [0x40] State.reset)) State.flags =
      some (flags 0 0 0 0 0 1) := by decide

theorem test_ldcfAMem :
    after (code [0xB3, 0x2B] (data 0x200 [0x40] (regs [(xhl, 0x200), (xwa, 0x7)]))) State.flags =
      some (flags 0 0 0 0 0 0) := by decide

theorem test_ldi :
    after (code [0x83, 0x10] (data 0x3000 [0x5A] (regs [(xde, 0x2000), (xhl, 0x3000), (xbc, 0x1)]))) (fun t => (t.byteAt 0x2000, t.get32 xde, t.get32 xhl, t.get32 xbc, t.flags)) =
      some (0x5A#8, 0x2001#32, 0x3001#32, 0#32, flags 0 0 0 0 0 0) := by decide

theorem test_ldi_word :
    after (code [0x95, 0x10] (data 0x2000 [0x34, 0x12] (regs [(.xix, 0x3000), (.xiy, 0x2000), (xbc, 0x2)]))) (fun t => (t.byteAt 0x3001, t.xix, t.xiy, t.get32 xbc, t.flags)) =
      some (0x12#8, 0x3002#32, 0x2002#32, 1#32, flags 0 0 0 1 0 0) := by decide

theorem test_ldd :
    after (code [0x83, 0x12] (data 0x3000 [0x77] (regs [(xde, 0x2000), (xhl, 0x3000)]))) (fun t => (t.byteAt 0x2000, t.get32 xde, t.get32 xhl, t.get32 xbc, t.flags)) =
      some (0x77#8, 0x1FFF#32, 0x2FFF#32, 0xFFFF#32, flags 0 0 0 1 0 0) := by decide

theorem test_ldd_source :
    after (code [0x85, 0x12] (data 0x335577 [0x99] (regs [(.xix, 0x00123456), (.xiy, 0x00335577), (xbc, 0x700)]))) (fun t => (t.byteAt 0x123456, t.xix, t.xiy, t.get32 xbc)) =
      some (0x99#8, 0x00123455#32, 0x00335576#32, 0x6FF#32) := by decide

theorem test_ldir_overlap :
    after (code [0x85, 0x11] (data 0x3000 [0xAA, 0x01, 0x02, 0x03] (regs [(.xiy, 0x3000), (.xix, 0x3001), (xbc, 0x3)]))) (fun t => ([t.byteAt 0x3001, t.byteAt 0x3002, t.byteAt 0x3003], t.xix, t.xiy, t.get32 xbc)) =
      some ([0xAA#8, 0xAA#8, 0xAA#8], 0x3004#32, 0x3003#32, 0#32) := by decide

theorem test_ldir_deHl :
    after (code [0x83, 0x11] (data 0x3000 [0x5A] (regs [(xde, 0x2000), (xhl, 0x3000), (xbc, 0x1)]))) (fun t => (t.byteAt 0x2000, t.get32 xde, t.get32 xhl, t.flags)) =
      some (0x5A#8, 0x2001#32, 0x3001#32, flags 0 0 0 0 0 0) := by decide

theorem test_lddr_word :
    after (code [0x95, 0x13] (data 0x2000 [0x34, 0x12, 0x78, 0x56] (regs [(.xix, 0x3002), (.xiy, 0x2002), (xbc, 0x2)]))) (fun t => ([t.byteAt 0x3000, t.byteAt 0x3001, t.byteAt 0x3002, t.byteAt 0x3003], t.xix, t.xiy)) =
      some ([0x34#8, 0x12#8, 0x78#8, 0x56#8], 0x2FFE#32, 0x1FFE#32) := by decide

theorem test_lddr_deHl :
    after (code [0x83, 0x13] (data 0x3000 [0x77] (regs [(xde, 0x2000), (xhl, 0x3000), (xbc, 0x1)]))) (fun t => (t.byteAt 0x2000, t.get32 xde, t.get32 xhl)) =
      some (0x77#8, 0x1FFF#32, 0x2FFF#32) := by decide

theorem test_link :
    after (code [0xEE, 0x0C, 0xC0, 0xFF] (regs [(.xsp, 0x280), (.xiz, 0x290)])) (fun t => ([t.byteAt 0x27C, t.byteAt 0x27D, t.byteAt 0x27E, t.byteAt 0x27F], t.xiz, t.xsp)) =
      some ([0x90#8, 0x02#8, 0#8, 0#8], 0x27C#32, 0x23C#32) := by decide

theorem test_link_xsp :
    refusal (code [0xEF, 0x0C, 0xC0, 0xFF] State.reset) = some (.linkXsp 0x1000#24) := by decide

theorem test_mdec1_wrap :
    after (code [0xDC, 0x3C, 0x07, 0x00] (regs [(.xix, 0x5551230)])) State.xix =
      some 0x5551237#32 := by decide

theorem test_mdec1_down :
    after (code [0xDC, 0x3C, 0xFF, 0x7F] (regs [(.xix, 0x8001)])) State.xix =
      some 0x8000#32 := by decide

theorem test_mdec2_wrap :
    after (code [0xDC, 0x3D, 0x06, 0x00] (regs [(.xix, 0x1238)])) State.xix =
      some 0x123E#32 := by decide

theorem test_mdec2_misaligned :
    after (code [0xDC, 0x3D, 0x06, 0x00] (regs [(.xix, 0x1)])) State.xix =
      some 0xFFFF#32 := by decide

theorem test_mdec4_wrap :
    after (code [0xDC, 0x3E, 0x7C, 0x00] (regs [(.xix, 0x1280)])) State.xix =
      some 0x12FC#32 := by decide

theorem test_mdec4_misaligned :
    after (code [0xDC, 0x3E, 0x04, 0x00] (regs [(.xix, 0x1233)])) State.xix =
      some 0x122F#32 := by decide

theorem test_minc1_wrap :
    after (code [0xDC, 0x38, 0x07, 0x00] (regs [(.xix, 0x1207)])) State.xix =
      some 0x1200#32 := by decide

theorem test_minc1_up :
    after (code [0xDC, 0x38, 0x07, 0x00] (regs [(.xix, 0x1206)])) State.xix =
      some 0x1207#32 := by decide

theorem test_minc2_wrap :
    after (code [0xDC, 0x39, 0x06, 0x00] (regs [(.xix, 0x1236)])) State.xix =
      some 0x1230#32 := by decide

theorem test_minc2_misaligned :
    after (code [0xDC, 0x39, 0x06, 0x00] (regs [(.xix, 0x5FFFF)])) State.xix =
      some 0x50001#32 := by decide

theorem test_minc4_wrap :
    after (code [0xDC, 0x3A, 0x3C, 0x00] (regs [(.xix, 0x127C)])) State.xix =
      some 0x1240#32 := by decide

theorem test_minc4_misaligned :
    after (code [0xDC, 0x3A, 0x04, 0x00] (regs [(.xix, 0xFFFE)])) State.xix =
      some 0x2#32 := by decide

theorem test_mdec1_6 :
    refusal (code [0xDC, 0x3C, 0x05, 0x00] State.reset) = some (.moduloNumber 0x1000#24) := by decide

theorem test_mdec2_2 :
    refusal (code [0xDC, 0x3D, 0x00, 0x00] State.reset) = some (.moduloNumber 0x1000#24) := by decide

theorem test_minc4_4 :
    refusal (code [0xDC, 0x3A, 0x00, 0x00] State.reset) = some (.moduloNumber 0x1000#24) := by decide

theorem test_minc1_1 :
    refusal (code [0xDC, 0x38, 0x00, 0x00] State.reset) = some (.moduloNumber 0x1000#24) := by decide

theorem test_mirr :
    after (code [0xDB, 0x16] (regs [(xhl, 0x99991234)])) (fun t => t.get32 xhl) =
      some 0x99992C48#32 := by decide

theorem test_mulReg :
    after (code [0xDD, 0x44] (regs [(.xix, 0x1234), (.xiy, 0x89AB)])) State.xix =
      some 0x09C9FCBC#32 := by decide

theorem test_mulReg_byte :
    after (code [0xCB, 0x41] (regs [(xwa, 0x777700FF), (xbc, 0xFF)])) (fun t => t.get32 xwa) =
      some 0x7777FE01#32 := by decide

theorem test_mulImm :
    after (code [0xDC, 0x08, 0xAB, 0x89] (regs [(.xix, 0x1234)])) State.xix =
      some 0x09C9FCBC#32 := by decide

theorem test_mulImm_ext :
    after (code [0xC7, 0xF0, 0x08, 0x05] (regs [(.xix, 0x1234)])) State.xix =
      some 0x104#32 := by decide

theorem test_mulMem :
    after (code [0x93, 0x44] (data 0x200 [0xAB, 0x89] (regs [(.xix, 0x1234), (xhl, 0x200)]))) State.xix =
      some 0x09C9FCBC#32 := by decide

theorem test_mulsReg :
    after (code [0xDD, 0x4C] (regs [(.xix, 0x1234), (.xiy, 0x89AB)])) State.xix =
      some 0xF795FCBC#32 := by decide

theorem test_mulsReg_byte :
    after (code [0xCB, 0x49] (regs [(xwa, 0x80), (xbc, 0x7F)])) (fun t => t.get32 xwa) =
      some 0xC080#32 := by decide

theorem test_mulsImm :
    after (code [0xDC, 0x09, 0x01, 0x00] (regs [(.xix, 0x8000)])) State.xix =
      some 0xFFFF8000#32 := by decide

theorem test_mulsMem :
    after (code [0x83, 0x49] (data 0x200 [0x02] (regs [(xwa, 0xFF), (xhl, 0x200)]))) (fun t => t.get32 xwa) =
      some 0xFFFE#32 := by decide

theorem test_mula :
    after (code [0xDC, 0x19] (data 0x200 [0xAB, 0x89] (data 0x100 [0x34, 0x12] (regs [(.xix, 0x50000000), (xde, 0x100), (xhl, 0x200)])))) (fun t => (t.xix, t.get32 xhl, t.get32 xde, t.flags)) =
      some (0x4795FCBC#32, 0x1FE#32, 0x100#32, flags 0 0 0 0 0 0) := by decide

theorem test_mula_overflow :
    after (code [0xDC, 0x19] (data 0x200 [0xFF, 0x7F] (data 0x100 [0x00, 0x80] (regs [(.xix, 0x80000000), (xde, 0x100), (xhl, 0x200)])))) (fun t => (t.xix, t.flags)) =
      some (0x40008000#32, flags 0 0 0 1 0 0) := by decide

theorem test_mula_xhl :
    refusal (code [0xDB, 0x19] State.reset) = some (.mulaXhl 0x1000#24) := by decide

/-! ### Faults (R211, R212; X1, X4, X5) -/

theorem test_undefined :
    fault (code [0x01] State.reset) =
      some (.undefinedInstruction 0x1000#24 .unknownOpcode (bytes [0x01])) := by decide

theorem test_stuck :
    fault (code [0x93, 0x20] { regs [(xhl, 0x200)] with launch := { resetLaunch with regions := [⟨0x1000, 16⟩] } }) =
      some (.stuck 0x1000#24 0x200) := by decide

theorem test_fetch_written :
    refusal { code [0x00] State.reset with written := [0x1000] } = some (.fetchWritten 0x1000#24) := by decide

theorem test_fetch_device :
    after (codeAt 0x1FFF#24 [0x21]
        { State.reset with launch := { resetLaunch with io := [⟨0x2000, 1⟩] }, freeIndex := 5 })
        (fun t => (t.get32 xwa, t.pc, t.freeIndex)) =
      some (insertBits 0#32 0 (Config.freeByte 5), 0x2001#24, 6) := rfl

theorem test_store_device :
    after (code [0x08, 0x50, 0x12] { State.reset with launch := { resetLaunch with io := [⟨0x50, 1⟩] } })
        (fun t => (t.byteAt 0x50, t.written)) = some (0#8, [0x50]) := by decide

theorem test_fetch_written_device :
    refusal (codeAt 0x1FFF#24 [0x21]
        { State.reset with launch := { resetLaunch with io := [⟨0x2000, 1⟩] }, written := [0x2000] }) =
      some (.fetchWritten 0x1FFF#24) := rfl

theorem test_sr_word :
    State.srWord { State.reset with rfp := 2, flags := allFlags } = 0xFAD7#16 := by decide

/-! ### Witnesses: for every statement with hypotheses, a state and operands that meet them -/

/-- A state with a little admitted memory and one device address. -/
def small : State :=
  { State.reset with launch := { resetLaunch with regions := [⟨0x1000, 3⟩], io := [⟨0x2000, 1⟩] } }

/-- The highest pc from which a one-byte instruction falls through. -/
def top : State := { State.reset with pc := 0xFFFFFE#24 }

/-- Under the launch arguments of reset every access completes. -/
theorem reachable_reset {s : State} (h : s.launch = resetLaunch) (a : Addr) (n : Nat) :
    Reachable a n s := by
  intro i _
  right
  have : byteAddr a i < 16777216 := (a + BitVec.ofNat 24 i).isLt
  simp [State.isAdmitted, inRegions, h, resetLaunch, defaultLaunch, Config.addressSpace, this]

theorem witness_DecodeEncodeRoundTrip :
    (Instr.mulImm .byte (.ext ⟨.xix, 0#2⟩) 5#8).wf = true ∧
      resetLaunch.admits (Instr.mulImm .byte (.ext ⟨.xix, 0#2⟩) 5#8).grade = true := by decide

theorem witness_DecodedBytesAreTheEncoding :
    decode resetLaunch (bytes [0xD8, 0x65, 0x00]) = .ok (.incReg .word 5#3 (.short 0#3)) (bytes [0x00]) ∧
      decode resetLaunch (bytes [0xF7, 0xFF, 0x6A, 0x55, 0x17, 0xAA]) = .ok (.ldx 0x6A#8 0x17#8) [] := by
  decide

theorem witness_DecodedIsWellFormedAndAdmitted :
    decode resetLaunch (bytes [0xCB, 0x41]) = .ok (.mulReg .byte 1#3 (.short 3#3)) [] := by decide

/-- The shortest and the longest encoding. -/
theorem witness_DecodedLength :
    decode resetLaunch (bytes [0x00]) = .ok .nop [] ∧
      decode resetLaunch (bytes [0xE7, 0xF0, 0x03, 1, 2, 3, 4]) =
        .ok (.ldRegImm .long (.ext ⟨.xix, 0#2⟩) 0x04030201#32) [] ∧
      7 ≤ (bytes [0xE7, 0xF0, 0x03, 1, 2, 3, 4]).length := by decide

theorem witness_GradesGateDecoding :
    (Instr.ldAbs16Mem .word 0x1000#16 (.ind 3#3)).wf = true ∧
      resetLaunch.admits (Instr.ldAbs16Mem .word 0x1000#16 (.ind 3#3)).grade = false ∧
      (Instr.neg .word (.short 4#3)).wf = true ∧
      defaultLaunch.admits (Instr.neg .word (.short 4#3)).grade = false := by decide

theorem witness_UnusedFirstBytesRejected :
    ∀ b ∈ bytes [0x01, 0x1C, 0x1F, 0x28, 0x2F, 0x38, 0x48, 0x5F, 0xC6, 0xF6, 0xF8, 0xFF],
      ¬ (b ∈ [0x00#8, 0x05#8, 0x08#8, 0x0A#8, 0x0C#8, 0x17#8, 0x1A#8, 0x1B#8] ∨
        (0x20#8 ≤ b ∧ b ≤ 0x27#8) ∨ (0x30#8 ≤ b ∧ b ≤ 0x37#8) ∨ (0x40#8 ≤ b ∧ b ≤ 0x47#8) ∨
        (0x60#8 ≤ b ∧ b ≤ 0xBF#8) ∨ (0xC0#8 ≤ b ∧ b ≤ 0xF7#8 ∧ b.toNat % 16 ≠ 6)) := by decide

/-- Just below the top of memory. -/
theorem witness_StepRunsDecodedInstruction :
    let s := codeAt 0xFFFFFD#24 [0x68, 0x76] State.reset
    s.halted = false ∧ decode s.launch (bytes [0x68, 0x76]) = .ok (.jr .t 0x76#8) [] ∧
      BytesAt s s.pc.toNat (bytes [0x68, 0x76]) ∧ Fetchable s s.pc.toNat 2 ∧
      Unwritten s s.pc.toNat 2 ∧ ∀ k < 2, s.isDevice (s.pc.toNat + k) = false := by
  unfold BytesAt Fetchable Unwritten; decide

/-- With an immediate byte that a device gives. -/
theorem witness_StepRunsDecodedInstruction_device :
    let s := codeAt 0x1002#24 [0x21]
      { small with launch := { small.launch with io := [⟨0x1003, 1⟩] } }
    let bs : List Byte := [0x21#8, Config.freeByte 0]
    s.halted = false ∧ decode s.launch bs = .ok (.ldCodeImm .byte 1#3 (Config.freeByte 0)) [] ∧
      BytesAt s s.pc.toNat bs ∧ Fetchable s s.pc.toNat 2 ∧ Unwritten s s.pc.toNat 2 := by
  refine ⟨rfl, rfl, ?_, by unfold Fetchable; decide, by unfold Unwritten; decide⟩
  intro k h
  match k, h with
  | 0, _ => rfl
  | 1, _ => rfl

theorem witness_FetchOfWrittenByteRefused :
    (let s := { code [0x68, 0x76] State.reset with written := [0x1001] }
     s.halted = false ∧ decode s.launch (bytes [0x68, 0x76]) = .ok (.jr .t 0x76#8) [] ∧
       BytesAt s s.pc.toNat (bytes [0x68, 0x76]) ∧ Fetchable s s.pc.toNat 2 ∧
       s.pc.toNat + 1 ∈ s.written) ∧
    (let s := { code [0x01] State.reset with written := [0x1000] }
     s.halted = false ∧ decode s.launch (bytes [0x01]) = .reject .unknownOpcode [] ∧
       BytesAt s s.pc.toNat (bytes [0x01]) ∧ Fetchable s s.pc.toNat 1 ∧
       s.pc.toNat + 0 ∈ s.written) := by
  unfold BytesAt Fetchable; decide

/-- Beyond FFFFFFH, and at an address that is not admitted. -/
theorem witness_FetchOutsideMemoryStops :
    (let s := codeAt 0xFFFFFF#24 [0x68] State.reset
     s.halted = false ∧ decode s.launch (bytes [0x68]) = .short ∧
       BytesAt s s.pc.toNat (bytes [0x68]) ∧ Fetchable s s.pc.toNat 1 ∧
       Config.addressSpace ≤ s.pc.toNat + 1) ∧
    (let s := codeAt 0x1002#24 [0x68] small
     s.halted = false ∧ decode s.launch (bytes [0x68]) = .short ∧
       BytesAt s s.pc.toNat (bytes [0x68]) ∧ Fetchable s s.pc.toNat 1 ∧
       s.isDevice (s.pc.toNat + 1) = false ∧ s.isAdmitted (s.pc.toNat + 1) = false) := by
  unfold BytesAt Fetchable; decide

theorem witness_UndefinedBytesFault :
    let s := code [0xCB, 0x40] State.reset
    s.halted = false ∧ decode s.launch (bytes [0xCB, 0x40]) = .reject .multiplyRegister [] ∧
      BytesAt s s.pc.toNat (bytes [0xCB, 0x40]) ∧ Fetchable s s.pc.toNat 2 ∧
      Unwritten s s.pc.toNat 2 := by
  unfold BytesAt Fetchable Unwritten; decide

theorem witness_StepKeepsSound : Sound State.reset ∧ step State.reset = .next (State.reset.setPc 1#24) :=
  ⟨⟨by decide, by decide, by decide, by decide⟩, rfl⟩

theorem witness_ResetIsSound : Memory.wf [(0xFFFF00, 1#8), (0xFFFFFF, 2#8)] = true := by decide

theorem witness_StepKeepsLaunchAndMask : step State.reset = .next (State.reset.setPc 1#24) := rfl

/-- Each of the three kinds of state is moved by some instruction. -/
theorem witness_SystemStateWriters :
    (∃ t, exec .incf State.reset = .next t ∧ t.rfp ≠ State.reset.rfp) ∧
    (∃ t, exec (.ldcToCr .word 0x20#8 (.short 0#3)) (regs [(xwa, 0x1234)]) = .next t ∧
      t.cr ≠ (regs [(xwa, 0x1234)]).cr) ∧
    (∃ t, exec .halt State.reset = .next t ∧ t.halted ≠ State.reset.halted) :=
  ⟨⟨_, rfl, by decide⟩, ⟨_, rfl, by decide⟩, ⟨_, rfl, by decide⟩⟩

theorem witness_OnlyTableFlagsChange :
    exec .nop State.reset = .next (State.reset.setPc 1#24) ∧
      flagsWritten .nop = flags 0 0 0 0 0 0 := ⟨rfl, rfl⟩

theorem witness_OnlyListedInstructionsWriteMemory :
    writesMemory .nop = false ∧ exec .nop State.reset = .next (State.reset.setPc 1#24) := ⟨rfl, rfl⟩

theorem witness_NonJumpsFallThrough :
    exec .nop State.reset = .next (State.reset.setPc 1#24) ∧ isJump .nop = false ∧
      { State.reset with pc := 0xFFFFFF#24 }.pc = 0xFFFFFF#24 := ⟨rfl, rfl, rfl⟩

theorem witness_InstructionFaultsAreStuck :
    exec (.ldCodeMem .word 0#3 (.abs16 0x0FFF#16)) small = .fault (.stuck small.pc 0x0FFF) := rfl

/-- A long word that wraps at the top of memory. -/
theorem witness_ReadAfterWrite : Plain 0xFFFFFE#24 Size.long.bytes State.reset := by
  unfold Plain; decide

/-- The first byte, and the last byte of a long word. -/
theorem witness_UnadmittedAccessIsStuck :
    (0 < Size.long.bytes ∧ Reachable 0x0FFF#24 0 small ∧ small.isDevice (byteAddr 0x0FFF#24 0) = false ∧
      small.isAdmitted (byteAddr 0x0FFF#24 0) = false) ∧
    (3 < Size.long.bytes ∧ Reachable 0x1000#24 3 small ∧ small.isDevice (byteAddr 0x1000#24 3) = false ∧
      small.isAdmitted (byteAddr 0x1000#24 3) = false) := by
  unfold Reachable; decide

theorem witness_DeviceAccess : small.isDevice (0x2000#24).toNat = true := by decide

theorem witness_EffectiveAddresses : autoReg (.ind 0#3) State.reset = none := by decide

theorem witness_ResetModelValues : xwa ≠ .xsp := by decide

theorem witness_NopResult : top.pc.toNat + 1 < 0x1000000 := by decide

theorem witness_HaltResult :
    top.pc.toNat + 1 < 0x1000000 ∧ { State.reset with halted := true }.halted = true := by decide

theorem witness_RegisterFilePointerResult :
    top.pc.toNat + 1 < 0x1000000 ∧ ((3#3).toNat ≤ 3 ∧ State.reset.pc.toNat + 2 < 0x1000000) ∧
      4 ≤ (4#3).toNat := by decide

theorem witness_IncRegisterResult :
    ((Instr.incReg .byte 0#3 (.short 1#3)).wf = true ∧
      NextFits (.incReg .byte 0#3 (.short 1#3)) State.reset) ∧
    (Instr.incReg .long 7#3 (.ext ⟨.xix, 0#2⟩)).wf = true ∧
      NextFits (.incReg .long 7#3 (.ext ⟨.xix, 0#2⟩)) State.reset := by
  unfold NextFits; decide

theorem witness_IncMemoryResult :
    (Instr.incMem .word 0#3 (.ind 3#3)).wf = true ∧ NextFits (.incMem .word 0#3 (.ind 3#3)) State.reset ∧
      Reachable (memAddr (.ind 3#3) State.reset) 2 State.reset := by
  unfold NextFits Reachable; decide

theorem witness_NegResult :
    (Instr.neg .byte (.ext ⟨.xsp, 3#2⟩)).wf = true ∧
      NextFits (.neg .byte (.ext ⟨.xsp, 3#2⟩)) State.reset := by
  unfold NextFits; decide

/-- The highest pc of each jump, and the one above it. -/
theorem witness_JumpAbsoluteResult :
    (∃ s : State, s.pc.toNat + 3 = 0xFFFFFF) ∧ (∃ s : State, s.pc.toNat + 3 = 0x1000000) ∧
      (∃ s : State, s.pc.toNat + 4 = 0xFFFFFF) ∧ ∃ s : State, s.pc.toNat + 4 = 0x1000000 :=
  ⟨⟨{ State.reset with pc := 0xFFFFFC#24 }, by decide⟩, ⟨{ State.reset with pc := 0xFFFFFD#24 }, by decide⟩,
    ⟨{ State.reset with pc := 0xFFFFFB#24 }, by decide⟩, ⟨{ State.reset with pc := 0xFFFFFC#24 }, by decide⟩⟩

/-- Each case of JP [cc,] mem, the targets FFFFFFH and 1000000H among them. -/
theorem witness_JumpMemoryResult :
    autoReg (.preDec .xix .one) State.reset ≠ none ∧
    (autoReg (.ind 4#3) top = none ∧ 0x1000000 ≤ top.pc.toNat + (2 + (Mem.ind 4#3).extLen)) ∧
    (let s := regs [(.xix, 0x00FFFFFF)]
     autoReg (.ind 4#3) s = none ∧ s.pc.toNat + (2 + (Mem.ind 4#3).extLen) < 0x1000000 ∧
       condHolds .t s.flags = true ∧ (eaAddr (.ind 4#3) s).toNat < 0x1000000) ∧
    (let s := regs [(.xix, 0x01000000)]
     autoReg (.ind 4#3) s = none ∧ s.pc.toNat + (2 + (Mem.ind 4#3).extLen) < 0x1000000 ∧
       condHolds .t s.flags = true ∧ 0x1000000 ≤ (eaAddr (.ind 4#3) s).toNat) ∧
    (autoReg (.ind 4#3) State.reset = none ∧
      State.reset.pc.toNat + (2 + (Mem.ind 4#3).extLen) < 0x1000000 ∧
      condHolds .c State.reset.flags = false) := by decide

/-- The highest pc from which JR has a `next`, and from which JRL has one. -/
def topJr : State := { State.reset with pc := 0xFFFFFD#24 }
def topJrl : State := { State.reset with pc := 0xFFFFFC#24 }

/-- No `next`; targets 0, FFFFFFH, just below and just above memory; and a jump not taken. -/
theorem witness_JumpRelativeResult :
    0x1000000 ≤ top.pc.toNat + 2 ∧ State.reset.pc.toNat + 2 < 0x1000000 ∧
    topJr.pc.toNat + 2 < 0x1000000 ∧
    (∃ target : Int, target = State.reset.pc.toNat + 2 + (0xFE#8).toInt ∧
      condHolds .t State.reset.flags = true ∧ 0 ≤ target ∧ target < 0x1000000) ∧
    (∃ target : Int, target = topJr.pc.toNat + 2 + (0#8).toInt ∧
      condHolds .t topJr.flags = true ∧ 0 ≤ target ∧ target < 0x1000000) ∧
    (∃ target : Int, target = State.reset.pc.toNat + 2 + (0xFD#8).toInt ∧ target < 0) ∧
    (∃ target : Int, target = topJr.pc.toNat + 2 + (1#8).toInt ∧ 0x1000000 ≤ target) ∧
    condHolds .c State.reset.flags = false :=
  ⟨by decide, by decide, by decide, ⟨_, rfl, by decide⟩, ⟨_, rfl, by decide⟩, ⟨_, rfl, by decide⟩,
    ⟨_, rfl, by decide⟩, by decide⟩

theorem witness_JumpRelativeLongResult :
    0x1000000 ≤ topJr.pc.toNat + 3 ∧ State.reset.pc.toNat + 3 < 0x1000000 ∧
    topJrl.pc.toNat + 3 < 0x1000000 ∧
    (∃ target : Int, target = State.reset.pc.toNat + 3 + (0xFFFD#16).toInt ∧
      condHolds .t State.reset.flags = true ∧ 0 ≤ target ∧ target < 0x1000000) ∧
    (∃ target : Int, target = topJrl.pc.toNat + 3 + (0#16).toInt ∧
      condHolds .t topJrl.flags = true ∧ 0 ≤ target ∧ target < 0x1000000) ∧
    (∃ target : Int, target = State.reset.pc.toNat + 3 + (0xFFFC#16).toInt ∧ target < 0) ∧
    (∃ target : Int, target = topJrl.pc.toNat + 3 + (1#16).toInt ∧ 0x1000000 ≤ target) ∧
    condHolds .c State.reset.flags = false :=
  ⟨by decide, by decide, by decide, ⟨_, rfl, by decide⟩, ⟨_, rfl, by decide⟩, ⟨_, rfl, by decide⟩,
    ⟨_, rfl, by decide⟩, by decide⟩

theorem witness_LoadRegisterResult :
    ((Instr.ldCodeFromReg .word 4#3 (.ext ⟨.xiy, 2#2⟩)).wf = true ∧
      NextFits (.ldCodeFromReg .word 4#3 (.ext ⟨.xiy, 2#2⟩)) State.reset) ∧
    (Instr.ldRegFromCode .byte (.short 0#3) 7#3).wf = true ∧
      NextFits (.ldRegFromCode .byte (.short 0#3) 7#3) State.reset := by
  unfold NextFits; decide

theorem witness_LoadImmediateResult :
    ((Instr.ldRegImm3 .byte (.short 0#3) 7#3).wf = true ∧
      NextFits (.ldRegImm3 .byte (.short 0#3) 7#3) State.reset) ∧
    NextFits (.ldCodeImm .long 7#3 0#32) State.reset ∧
    (Instr.ldRegImm .long (.ext ⟨.xix, 0#2⟩) 1#32).wf = true ∧
      NextFits (.ldRegImm .long (.ext ⟨.xix, 0#2⟩) 1#32) State.reset := by
  unfold NextFits; decide

/-- With a mode that moves a pointer. -/
theorem witness_LoadFromMemoryResult :
    (Instr.ldCodeMem .word 0#3 (.postInc .xix .two)).wf = true ∧
      NextFits (.ldCodeMem .word 0#3 (.postInc .xix .two)) State.reset ∧
      Reachable (memAddr (.postInc .xix .two) State.reset) 2 State.reset ∧
      autoReg (.postInc .xix .two) State.reset ≠ some (codeSlot .word 0#3 State.reset).reg := by
  unfold NextFits Reachable; decide

theorem witness_StoreRegisterResult :
    (Instr.ldMemCode .long (.preDec .xsp .four) 0#3).wf = true ∧
      NextFits (.ldMemCode .long (.preDec .xsp .four) 0#3) State.reset ∧
      Reachable (memAddr (.preDec .xsp .four) State.reset) 4 State.reset ∧
      autoReg (.preDec .xsp .four) State.reset ≠ some (codeSlot .long 0#3 State.reset).reg := by
  unfold NextFits Reachable; decide

theorem witness_StoreImmediateResult :
    (NextFits (.ldAbs8Imm .word 0xFF#8 1#16) State.reset ∧
      Reachable ((0xFF#8).setWidth 24) 2 State.reset) ∧
    (Instr.ldMemImm .byte (.ind 0#3) 1#8).wf = true ∧
      NextFits (.ldMemImm .byte (.ind 0#3) 1#8) State.reset ∧
      Reachable (memAddr (.ind 0#3) State.reset) 1 State.reset := by
  unfold NextFits Reachable; decide

theorem witness_LoadExtractResult :
    State.reset.pc.toNat + 6 < 0x1000000 ∧ Reachable ((0x6A#8).setWidth 24) 1 State.reset := by
  unfold Reachable; decide

theorem witness_MemoryTransferResult :
    (Mem.ind 0#3).ok = true ∧ Reachable ((0xFFFF#16).setWidth 24) 2 State.reset ∧
      Reachable (memAddr (.ind 0#3) State.reset) 2 State.reset ∧
      NextFits (.ldAbs16Mem .word 0xFFFF#16 (.ind 0#3)) State.reset ∧
      NextFits (.ldMemAbs16 .word (.ind 0#3) 0xFFFF#16) State.reset := by
  unfold NextFits Reachable; decide

theorem witness_AutoUpdateRefusals :
    autoReg (.postInc (.current .xwa) .two) State.reset ≠ none ∧
      autoReg (.preDec .xix .one) State.reset ≠ none ∧
      autoReg (.postInc (.current .xwa) .two) State.reset =
        some (codeSlot .byte 0#3 State.reset).reg := by decide

theorem witness_LoadAddressResult :
    (Instr.lda .word 4#3 (.indD8 5#3 0x33#8)).wf = true ∧
      NextFits (.lda .word 4#3 (.indD8 5#3 0x33#8)) State.reset ∧
      autoReg (.indD8 5#3 0x33#8) State.reset = none := by
  unfold NextFits; decide

theorem witness_LoadRelativeAddressResult :
    (∃ target : Int, target = State.reset.pc.toNat + 4 + (0xFFFC#16).toInt ∧ 0 ≤ target ∧
      target < 0x1000000 ∧ NextFits (.ldar .word 4#3 0xFFFC#16) State.reset) ∧
    (∃ target : Int, target = State.reset.pc.toNat + 4 + (0xFFFB#16).toInt ∧ target < 0) ∧
    (∃ target : Int, target = top.pc.toNat + 4 + (0#16).toInt ∧ 0x1000000 ≤ target) :=
  ⟨⟨_, rfl, by decide, by decide, by unfold NextFits; decide⟩, ⟨_, rfl, by decide⟩, ⟨_, rfl, by decide⟩⟩

theorem witness_LdcToControlResult :
    (Instr.ldcToCr .word 0x20#8 (.short 0#3)).wf = true ∧
      NextFits (.ldcToCr .word 0x20#8 (.short 0#3)) State.reset ∧
      State.reset.crEntry 0x20#8 = some ⟨0x20#8, .dmac 0, .word⟩ := by
  unfold NextFits; decide

theorem witness_LdcFromControlResult :
    (Instr.ldcFromCr .long (.short 4#3) 0x1C#8).wf = true ∧
      NextFits (.ldcFromCr .long (.short 4#3) 0x1C#8) State.reset ∧
      State.reset.crEntry 0x1C#8 = some ⟨0x1C#8, .dmad 3, .long⟩ := by
  unfold NextFits; decide

theorem witness_LdcRefusals :
    State.reset.crEntry 0x21#8 = none ∧ State.reset.crEntry 0x20#8 = some ⟨0x20#8, .dmac 0, .word⟩ ∧
      Size.word ≠ .byte ∧ { State.reset with launch := defaultLaunch }.launch = defaultLaunch := by decide

/-- Bit numbers 7, 8 and 15, the byte 16, and A with 8 in its low four bits. -/
theorem witness_LdcfRegisterResult :
    (∀ b ∈ [7#8, 8#8, 15#8], (Instr.ldcfImmReg .byte b (.short 0#3)).wf = true ∧
      NextFits (.ldcfImmReg .byte b (.short 0#3)) State.reset ∧ b.toNat < 16) ∧
    16 ≤ (16#8).toNat ∧
    (let s := regs [(xwa, 0xF8)]
     ((s.banks[s.curBank.val]).xwa.extractLsb' 0 4).toNat = 8 ∧
       (Instr.ldcfAReg .byte (.short 0#3)).wf = true ∧ NextFits (.ldcfAReg .byte (.short 0#3)) s) := by
  unfold NextFits; decide

theorem witness_LdcfMemoryResult :
    (Mem.ind 3#3).ok = true ∧ Reachable (memAddr (.ind 3#3) State.reset) 1 State.reset ∧
      NextFits (.ldcfImmMem 7#3 (.ind 3#3)) State.reset ∧ NextFits (.ldcfAMem (.ind 3#3)) State.reset := by
  unfold NextFits Reachable; decide

/-- A with 8 in its low four bits, then with 7. -/
theorem witness_LdcfMemoryResult_A :
    ∀ row ∈ [(0xF8#32, 8), (0x07#32, 7)],
      (let s := regs [(xwa, row.1)]
       Reachable (memAddr (.ind 3#3) s) 1 s ∧ NextFits (.ldcfAMem (.ind 3#3)) s ∧
         ((s.banks[s.curBank.val]).xwa.extractLsb' 0 4).toNat = row.2) := by
  unfold NextFits Reachable; decide

theorem witness_BlockOnceResult :
    NextFits (.ldiDeHl .word) State.reset ∧ NextFits (.ldiIxIy .byte) State.reset ∧
      NextFits (.lddDeHl .word) State.reset ∧ NextFits (.lddIxIy .byte) State.reset ∧
      Reachable (dataAddr (State.reset.get32 (.bank State.reset.curBank .xhl))) 2 State.reset ∧
      Reachable (dataAddr (State.reset.get32 (.bank State.reset.curBank .xde))) 2 State.reset ∧
      Reachable (dataAddr (State.reset.get32 .xiy)) 1 State.reset ∧
      Reachable (dataAddr (State.reset.get32 .xix)) 1 State.reset := by
  unfold NextFits Reachable; decide

/-- Right after reset BC is 0: 65536 items, at whatever addresses. -/
theorem witness_BlockRepeatResult :
    NextFits (.ldirDeHl .word) State.reset ∧ NextFits (.ldirIxIy .byte) State.reset ∧
      NextFits (.lddrDeHl .word) State.reset ∧ NextFits (.lddrIxIy .byte) State.reset ∧
      (State.reset.get32 (countReg State.reset)).setWidth 16 = 0#16 ∧
      ∀ (p : PReg) (d : Long), ∀ k < 65536,
        Reachable (dataAddr (State.reset.get32 p + d * BitVec.ofNat 32 k)) 2 State.reset :=
  ⟨by unfold NextFits; decide, by unfold NextFits; decide, by unfold NextFits; decide,
    by unfold NextFits; decide, by decide, fun _ _ _ _ => reachable_reset rfl _ _⟩

theorem witness_LinkResult :
    ((slotOf .long (.short 6#3) State.reset).reg = .xiz ∧ (Instr.link (.short 6#3) 0xFFC0#16).wf = true ∧
      NextFits (.link (.short 6#3) 0xFFC0#16) State.reset ∧ PReg.xiz ≠ .xsp ∧
      Reachable (dataAddr (State.reset.xsp - 4#32)) 4 State.reset) ∧
    (slotOf .long (.short 7#3) State.reset).reg = .xsp := by
  unfold NextFits Reachable; decide

/-- The smallest and the largest modulus, and one below the range. -/
theorem witness_ModuloResult :
    ((0#16).toNat + 4 ≠ 2 ^ 3 ∧ (4#16).toNat + 4 = 2 ^ 3 ∧ (0x7FFC#16).toNat + 4 = 2 ^ 15 ∧
      (Instr.mdec4 4#16 (.short 4#3)).wf = true ∧ NextFits (.mdec4 4#16 (.short 4#3)) State.reset) ∧
    ((2#16).toNat + 2 = 2 ^ 2 ∧ (1#16).toNat + 1 = 2 ^ 1) ∧
    ∀ n : Nat, 3 ≤ n → n ≤ 15 → (0#16).toNat + 4 ≠ 2 ^ n := by
  refine ⟨by unfold NextFits; decide, by decide, fun n h1 h2 => ?_⟩
  have : ∀ n < 16, 3 ≤ n → (0#16).toNat + 4 ≠ 2 ^ n := by decide
  exact this n (by omega) h1

theorem witness_MirrorResult :
    (Instr.mirr (.ext ⟨.xix, 2#2⟩)).wf = true ∧ NextFits (.mirr (.ext ⟨.xix, 2#2⟩)) State.reset := by
  unfold NextFits; decide

theorem witness_MultiplyResult :
    ((Instr.mulReg .byte 7#3 (.short 0#3)).wf = true ∧ NextFits (.mulReg .byte 7#3 (.short 0#3)) State.reset) ∧
    ((Instr.mulsReg .word 7#3 (.short 0#3)).wf = true ∧
      NextFits (.mulsReg .word 7#3 (.short 0#3)) State.reset) ∧
    ((Instr.mulImm .byte (.ext ⟨.xix, 2#2⟩) 5#8).wf = true ∧
      NextFits (.mulImm .byte (.ext ⟨.xix, 2#2⟩) 5#8) State.reset) ∧
    (Instr.mulsImm .word (.short 0#3) 5#16).wf = true ∧
      NextFits (.mulsImm .word (.short 0#3) 5#16) State.reset := by
  unfold NextFits; decide

theorem witness_MultiplyMemoryResult :
    Reachable (memAddr (.postInc .xix .one) State.reset) 1 State.reset ∧
      autoReg (.postInc .xix .one) State.reset ≠ some (codeSlot .byte 1#3 State.reset).reg ∧
      ((Instr.mulMem .byte 1#3 (.postInc .xix .one)).wf = true ∧
        NextFits (.mulMem .byte 1#3 (.postInc .xix .one)) State.reset) ∧
      (Instr.mulsMem .byte 1#3 (.postInc .xix .one)).wf = true ∧
        NextFits (.mulsMem .byte 1#3 (.postInc .xix .one)) State.reset := by
  unfold NextFits Reachable; decide

theorem witness_MulaResult :
    ((slotOf .word (.short 4#3) State.reset).reg = .xix ∧ (Instr.mula (.short 4#3)).wf = true ∧
      NextFits (.mula (.short 4#3)) State.reset ∧ PReg.xix ≠ .bank State.reset.curBank .xhl ∧
      Reachable (dataAddr (State.reset.get32 (.bank State.reset.curBank .xde))) 2 State.reset ∧
      Reachable (dataAddr (State.reset.get32 (.bank State.reset.curBank .xhl))) 2 State.reset) ∧
    (slotOf .word (.short 3#3) State.reset).reg = .bank State.reset.curBank .xhl := by
  unfold NextFits Reachable; decide

end Sys2Proof.Tests
end

section
/-! PROOFS. Everything an instruction can have done, given that it completed: one case split over the instructions,
from which the whole-machine rules follow (10_state.md R29 to R33, 20_memory.md R52). -/

namespace Sys2Proof.Machine

/-! ### Flags outside a row of R31 -/

/-- `g` differs from `f` only in the flags that the row `w` of R31's table marks. -/
structure FlagsWithin (w f g : Flags) : Prop where
  s : w.s = false → g.s = f.s
  z : w.z = false → g.z = f.z
  h : w.h = false → g.h = f.h
  v : w.v = false → g.v = f.v
  n : w.n = false → g.n = f.n
  c : w.c = false → g.c = f.c

theorem FlagsWithin.refl (w f : Flags) : FlagsWithin w f f :=
  ⟨fun _ => rfl, fun _ => rfl, fun _ => rfl, fun _ => rfl, fun _ => rfl, fun _ => rfl⟩

theorem FlagsWithin.trans {w f g k : Flags} (h₁ : FlagsWithin w f g) (h₂ : FlagsWithin w g k) :
    FlagsWithin w f k :=
  ⟨fun e => (h₂.s e).trans (h₁.s e), fun e => (h₂.z e).trans (h₁.z e), fun e => (h₂.h e).trans (h₁.h e),
    fun e => (h₂.v e).trans (h₁.v e), fun e => (h₂.n e).trans (h₁.n e), fun e => (h₂.c e).trans (h₁.c e)⟩

theorem incFlags_within {n : Nat} (a : BitVec n) (num : Nat) (res : BitVec n) (f : Flags) :
    FlagsWithin ⟨true, true, true, true, true, false⟩ f (incFlags a num res f) :=
  ⟨nofun, nofun, nofun, nofun, nofun, fun _ => rfl⟩

theorem all_flags_within (f g : Flags) : FlagsWithin ⟨true, true, true, true, true, true⟩ f g :=
  ⟨nofun, nofun, nofun, nofun, nofun, nofun⟩

theorem carryFlag_within (b : Bool) (f : Flags) :
    FlagsWithin ⟨false, false, false, false, false, true⟩ f (carryFlag b f) :=
  ⟨fun _ => rfl, fun _ => rfl, fun _ => rfl, fun _ => rfl, fun _ => rfl, nofun⟩

theorem blockFlags_within (v : Bool) (f : Flags) :
    FlagsWithin ⟨false, false, true, true, true, false⟩ f (blockFlags v f) :=
  ⟨fun _ => rfl, fun _ => rfl, nofun, nofun, nofun, fun _ => rfl⟩

theorem mulaFlags_within (d p res : BitVec 32) (f : Flags) :
    FlagsWithin ⟨true, true, false, true, false, false⟩ f (mulaFlags d p res f) :=
  ⟨nofun, nofun, fun _ => rfl, nofun, fun _ => rfl, fun _ => rfl⟩

/-! ### The part of an ordinary instruction before its move of the pc -/

/-- From `s` to `u` only registers, the flags of the row of `i` in R31, free values and, for an
instruction that R52 lists, memory changed; memory stays canonical. -/
structure Ordinary (i : Instr) (s u : State) : Prop where
  system : SameSystem s u
  pc : u.pc = s.pc
  flags : FlagsWithin (flagsWritten i) s.flags u.flags
  mem : writesMemory i = false → SameMem s u
  wf : s.mem.wf = true → s.written.wf = true → u.mem.wf = true ∧ u.written.wf = true

theorem LoadStep.ordinary {i : Instr} {s u : State} (h : LoadStep s u) : Ordinary i s u where
  system := h.quiet.system
  pc := h.quiet.pc
  flags := by rw [h.quiet.flags]; exact FlagsWithin.refl _ _
  mem _ := h.same
  wf := h.wf

theorem DataStep.ordinary {i : Instr} {s u : State} (h : DataStep s u) (hi : writesMemory i = true) :
    Ordinary i s u where
  system := h.quiet.system
  pc := h.quiet.pc
  flags := by rw [h.quiet.flags]; exact FlagsWithin.refl _ _
  mem hn := by simp [hi] at hn
  wf := h.wf

theorem Ordinary.setFlags {i : Instr} {s u : State} {w f : Flags} (h : Ordinary i s u)
    (hw : flagsWritten i = w) (hf : FlagsWithin w u.flags f) : Ordinary i s (u.setFlags f) where
  system := ⟨h.system.cr, h.system.rfp, h.system.iff, h.system.halted, h.system.launch⟩
  pc := h.pc
  flags := h.flags.trans (hw ▸ hf)
  mem hi := ⟨(h.mem hi).bytes, (h.mem hi).written⟩
  wf := h.wf

/-- LDCF changes C and the number of draws (R164 to R168). -/
theorem LoadStep.ordinary_loadCarry {i : Instr} {s u : State} (h : LoadStep s u) {n : Nat} (v : BitVec n)
    (num : Nat) (hi : flagsWritten i = ⟨false, false, false, false, false, true⟩) :
    Ordinary i s (loadCarry v num u) := by
  obtain ⟨k, c, heq, -, -⟩ := loadCarry_eq v num u
  rw [heq]
  exact (h.trans (loadStep_setFreeIndex u _)).ordinary.setFlags hi (carryFlag_within c u.flags)

/-! ### The effects of an instruction -/

/-- Where an instruction that is no jump goes on (R11, R28). -/
def nextPc (i : Instr) (s : State) : Addr := BitVec.ofNat 24 (s.pc.toNat + i.len)

/-- What an instruction that completes can have done to `s`: one case for each kind of state that
only some instructions write. -/
inductive Effect (i : Instr) (s : State) : State → Prop where
  /-- registers, flags, free values and memory -/
  | ordinary {u : State} : Ordinary i s u → Effect i s (u.setPc (nextPc i s))
  /-- a jump writes the pc (R135 to R139) -/
  | jump (a : Addr) : isJump i = true → Effect i s (s.setPc a)
  /-- INCF and LDF write RFP (R130, R131) -/
  | rfp (v : BitVec 2) : (i = .incf ∨ ∃ n, i = .ldf n) → Effect i s ((setRfpLow v s).setPc (nextPc i s))
  /-- LDC cr,r writes a control register (R162) -/
  | control (name : CrName) (v : Long) : (∃ sz cr r, i = .ldcToCr sz cr r) →
      Effect i s ((s.setCr (s.cr.put name v)).setPc (nextPc i s))
  /-- HALT sets `halted` (R33, R120) -/
  | halt : i = .halt → Effect i s (s.setPc (nextPc i s)).setHalted

/-- What `exec` answers for `i` in `s` fits in 24 bits and is one of the effects. -/
def Completes (i : Instr) (s t : State) : Prop := NextFits i s ∧ Effect i s t

theorem Ordinary.completes {i : Instr} {s u t : State} (hu : Ordinary i s u)
    (h : finish i.len u = .next t) : Completes i s t := by
  obtain ⟨hn, rfl⟩ := finish_eq_next.mp h
  rw [hu.pc] at hn ⊢
  exact ⟨hn, .ordinary hu⟩

/-! ### Shapes that several instructions share -/

section
variable {i : Instr} {s t : State}

/-- A register result, or no result. -/
theorem LoadStep.completes {u : State} (hu : LoadStep s u) (h : finish i.len u = .next t) :
    Completes i s t := hu.ordinary.completes h

/-- A store. -/
theorem DataStep.completes {u : State} (hu : DataStep s u) (hi : writesMemory i = true)
    (h : finish i.len u = .next t) : Completes i s t := (hu.ordinary hi).completes h

/-- A memory operand read into a register that its mode does not move. -/
theorem completes_of_readEa {sz sz' : Size} {m : Mem} {x y : Slot}
    {f : BitVec sz.bits → State → BitVec sz'.bits}
    (h : requireNotAuto m x s (andThen (readEa sz m s) fun p =>
      finish i.len (writeSlot sz' y (f p.1 p.2) p.2)) = .next t) : Completes i s t := by
  obtain ⟨-, h⟩ := requireNotAuto_eq_next.mp h
  obtain ⟨p, hp, h⟩ := andThen_eq_next.mp h
  exact ((readEa_step hp).trans (loadStep_writeSlot _ _ _ _)).completes h

/-- A store, then the next instruction. -/
theorem completes_of_writeMem {sz : Size} {a : Addr} {v : BitVec sz.bits} {u : State}
    (hu : DataStep s u) (hi : writesMemory i = true)
    (h : andThen (writeMem sz a v u) (fun w => finish i.len w) = .next t) : Completes i s t := by
  obtain ⟨w, hw, h⟩ := andThen_eq_next.mp h
  exact (hu.trans (writeMem_step hw)).completes hi h

/-- LDCF from memory. -/
theorem completes_of_loadCarry {m : Mem} {num : Nat}
    (hi : flagsWritten i = ⟨false, false, false, false, false, true⟩)
    (h : andThen (readEa .byte m s) (fun p => finish i.len (loadCarry p.1 num p.2)) = .next t) :
    Completes i s t := by
  obtain ⟨p, hp, h⟩ := andThen_eq_next.mp h
  exact ((readEa_step hp).ordinary_loadCarry p.1 num hi).completes h

theorem completes_of_jumpIf {cc : Cond} {target : Int} (hi : isJump i = true)
    (h : jumpIf cc target i.len s = .next t) : Completes i s t := by
  obtain ⟨hn, a, rfl⟩ := jumpIf_eq_next h
  exact ⟨hn, .jump a hi⟩

theorem completes_of_jumpAbs {a : Addr} (hi : isJump i = true)
    (h : requireNext i.len s (.next (s.setPc a)) = .next t) : Completes i s t := by
  obtain ⟨hn, h⟩ := requireNext_eq_next.mp h
  cases h
  exact ⟨hn, .jump a hi⟩

theorem completes_of_setRfpLow {v : BitVec 2} (hi : i = .incf ∨ ∃ n, i = .ldf n)
    (h : finish i.len (setRfpLow v s) = .next t) : Completes i s t := by
  obtain ⟨hn, rfl⟩ := finish_eq_next.mp h
  exact ⟨hn, .rfp v hi⟩

theorem completes_of_moduloStep {cycle : Nat → Nat → BitVec 16 → BitVec 16} {k nmin : Nat}
    {field : BitVec 16} {r : RegOp} (h : moduloStep cycle k nmin field r i.len s = .next t) :
    Completes i s t := by
  obtain ⟨num, -, h⟩ := moduloStep_eq_next h
  exact (loadStep_writeSlot _ _ _ _).completes h

theorem completes_of_blockOnce {dir : Dir} {z : BW} {p : BlockPair} (hi : writesMemory i = true)
    (hf : flagsWritten i = ⟨false, false, true, true, true, false⟩)
    (h : blockOnce dir z p i.len s = .next t) : Completes i s t := by
  obtain ⟨u, hu, h⟩ := andThen_eq_next.mp h
  exact (((item_step hu).ordinary hi).setFlags hf (blockFlags_within _ _)).completes h

theorem completes_of_blockRepeat {dir : Dir} {z : BW} {p : BlockPair} (hi : writesMemory i = true)
    (hf : flagsWritten i = ⟨false, false, true, true, true, false⟩)
    (h : blockRepeat dir z p i.len s = .next t) : Completes i s t := by
  obtain ⟨u, hu, h⟩ := andThen_eq_next.mp h
  exact (((repeatItems_step hu).ordinary hi).setFlags hf (blockFlags_within _ _)).completes h

end

/-! ### Instructions with a shape of their own -/

section
variable {s t : State}

theorem execHalt_completes (h : execHalt s = .next t) : Completes .halt s t := by
  obtain ⟨u, hu, h⟩ := andThen_eq_next.mp h
  obtain ⟨hn, rfl⟩ := finish_eq_next.mp hu
  cases h
  exact ⟨hn, .halt rfl⟩

/-- Only the byte form has a row in R31 (R125). -/
theorem execIncReg_completes {sz : Size} {num : BitVec 3} {r : RegOp}
    (h : execIncReg sz num r s = .next t) : Completes (.incReg sz num r) s t := by
  refine ((loadStep_writeSlot _ _ _ _).ordinary.setFlags rfl ?_).completes h
  rw [writeSlot_flags]
  by_cases hsz : sz = .byte
  · simpa only [flagsWritten, if_pos hsz] using incFlags_within _ _ _ _
  · simpa only [flagsWritten, if_neg hsz] using FlagsWithin.refl _ _

theorem execIncMem_completes {z : BW} {num : BitVec 3} {m : Mem}
    (h : execIncMem z num m s = .next t) : Completes (.incMem z num m) s t := by
  obtain ⟨p, hp, h⟩ := andThen_eq_next.mp h
  obtain ⟨u, hu, h⟩ := andThen_eq_next.mp h
  have hstep := (readEa_step hp).toDataStep.trans (writeMem_step hu)
  exact ((hstep.ordinary rfl).setFlags (i := .incMem z num m) rfl (incFlags_within _ _ _ _)).completes h

theorem execNeg_completes {z : BW} {r : RegOp} (h : execNeg z r s = .next t) :
    Completes (.neg z r) s t :=
  ((loadStep_writeSlot _ _ _ _).ordinary.setFlags (i := .neg z r) rfl (all_flags_within _ _)).completes h

theorem execLdMemCode_completes {sz : Size} {m : Mem} {c : BitVec 3}
    (h : execLdMemCode sz m c s = .next t) : Completes (.ldMemCode sz m c) s t :=
  completes_of_writeMem (loadStep_eaUpdate m s).toDataStep rfl (requireNotAuto_eq_next.mp h).2

theorem execLdAbs16Mem_completes {z : BW} {a : BitVec 16} {m : Mem}
    (h : execLdAbs16Mem z a m s = .next t) : Completes (.ldAbs16Mem z a m) s t := by
  obtain ⟨p, hp, h⟩ := andThen_eq_next.mp h
  exact completes_of_writeMem (readEa_step hp).toDataStep rfl h

theorem execLdMemAbs16_completes {z : BW} {m : Mem} {a : BitVec 16}
    (h : execLdMemAbs16 z m a s = .next t) : Completes (.ldMemAbs16 z m a) s t := by
  obtain ⟨p, hp, h⟩ := andThen_eq_next.mp h
  exact completes_of_writeMem ((loadStep_eaUpdate m s).trans (readMem_step hp)).toDataStep rfl h

theorem execLdar_completes {w : WL} {c : BitVec 3} {d : BitVec 16} (h : execLdar w c d s = .next t) :
    Completes (.ldar w c d) s t := by
  simp only [execLdar] at h
  split at h
  · exact (loadStep_writeSlot _ _ _ _).completes h
  · cases h

theorem execLdcToCr_completes {sz : Size} {cr : BitVec 8} {r : RegOp}
    (h : execLdcToCr sz cr r s = .next t) : Completes (.ldcToCr sz cr r) s t := by
  obtain ⟨name, -, h⟩ := andThen_eq_next.mp h
  obtain ⟨hn, rfl⟩ := finish_eq_next.mp h
  exact ⟨hn, .control name _ ⟨sz, cr, r, rfl⟩⟩

theorem execLdcFromCr_completes {sz : Size} {r : RegOp} {cr : BitVec 8}
    (h : execLdcFromCr sz r cr s = .next t) : Completes (.ldcFromCr sz r cr) s t := by
  obtain ⟨name, -, h⟩ := andThen_eq_next.mp h
  exact (loadStep_writeSlot _ _ _ _).completes h

theorem execLdcfImmReg_completes {z : BW} {b : BitVec 8} {r : RegOp}
    (h : execLdcfImmReg z b r s = .next t) : Completes (.ldcfImmReg z b r) s t := by
  simp only [execLdcfImmReg] at h
  split at h
  · exact ((LoadStep.refl s).ordinary_loadCarry _ _ rfl).completes h
  · cases h

theorem execLdf_completes {num : BitVec 3} (h : execLdf num s = .next t) : Completes (.ldf num) s t := by
  simp only [execLdf] at h
  split at h
  · exact completes_of_setRfpLow (.inr ⟨num, rfl⟩) h
  · cases h

theorem execLink_completes {r : RegOp} {d : BitVec 16} (h : execLink r d s = .next t) :
    Completes (.link r d) s t := by
  simp only [execLink] at h
  split at h
  · cases h
  · obtain ⟨u, hu, h⟩ := andThen_eq_next.mp h
    exact ((writeMem_step hu).trans
      ((loadStep_writeSlot _ _ _ _).trans (loadStep_set32 _ _ _)).toDataStep).completes rfl h

theorem execMula_completes {r : RegOp} (h : execMula r s = .next t) : Completes (.mula r) s t := by
  simp only [execMula] at h
  split at h
  · cases h
  · obtain ⟨p, hp, h⟩ := andThen_eq_next.mp h
    obtain ⟨q, hq, h⟩ := andThen_eq_next.mp h
    have hread := (readMem_step hp).trans (readMem_step hq)
    exact ((hread.trans ((loadStep_set32 _ _ _).trans (loadStep_set32 _ _ _))).ordinary.setFlags
      (i := .mula r) rfl (mulaFlags_within _ _ _ _)).completes h

end

/-- Every instruction that completes has a `next` in 24 bits and one of the effects. -/
theorem exec_completes {i : Instr} {s t : State} (h : exec i s = .next t) : Completes i s t := by
  cases i with
  | halt => exact execHalt_completes h
  | incReg sz num r => exact execIncReg_completes h
  | incMem z num m => exact execIncMem_completes h
  | incf => exact completes_of_setRfpLow (.inl rfl) h
  | jpAbs16 a => exact completes_of_jumpAbs rfl h
  | jpAbs24 a => exact completes_of_jumpAbs rfl h
  | jpMem cc m => exact completes_of_jumpIf rfl (requireNoAuto_eq_next.mp h).2
  | jr cc d => exact completes_of_jumpIf rfl h
  | jrl cc d => exact completes_of_jumpIf rfl h
  | ldCodeFromReg sz c r => exact (loadStep_writeSlot _ _ _ _).completes h
  | ldRegFromCode sz r c => exact (loadStep_writeSlot _ _ _ _).completes h
  | ldRegImm3 sz r v => exact (loadStep_writeSlot _ _ _ _).completes h
  | ldCodeImm sz c v => exact (loadStep_writeSlot _ _ _ _).completes h
  | ldRegImm sz r v => exact (loadStep_writeSlot _ _ _ _).completes h
  | ldCodeMem sz c m => exact completes_of_readEa (f := fun v _ => v) h
  | ldMemCode sz m c => exact execLdMemCode_completes h
  | ldAbs8Imm z a v => exact completes_of_writeMem (DataStep.refl s) rfl h
  | ldMemImm z m v => exact completes_of_writeMem (loadStep_eaUpdate m s).toDataStep rfl h
  | ldAbs16Mem z a m => exact execLdAbs16Mem_completes h
  | ldMemAbs16 z m a => exact execLdMemAbs16_completes h
  | lda w c m => exact (loadStep_writeSlot _ _ _ _).completes (requireNoAuto_eq_next.mp h).2
  | ldar w c d => exact execLdar_completes h
  | ldcToCr sz cr r => exact execLdcToCr_completes h
  | ldcFromCr sz r cr => exact execLdcFromCr_completes h
  | ldcfImmReg z b r => exact execLdcfImmReg_completes h
  | ldcfAReg z r => exact ((LoadStep.refl s).ordinary_loadCarry _ _ rfl).completes h
  | ldcfImmMem num m => exact completes_of_loadCarry rfl h
  | ldcfAMem m => exact completes_of_loadCarry rfl h
  | lddDeHl z => exact completes_of_blockOnce rfl rfl h
  | lddIxIy z => exact completes_of_blockOnce rfl rfl h
  | lddrDeHl z => exact completes_of_blockRepeat rfl rfl h
  | lddrIxIy z => exact completes_of_blockRepeat rfl rfl h
  | ldiDeHl z => exact completes_of_blockOnce rfl rfl h
  | ldiIxIy z => exact completes_of_blockOnce rfl rfl h
  | ldirDeHl z => exact completes_of_blockRepeat rfl rfl h
  | ldirIxIy z => exact completes_of_blockRepeat rfl rfl h
  | ldf num => exact execLdf_completes h
  | ldx a v => exact completes_of_writeMem (DataStep.refl s) rfl h
  | link r d => exact execLink_completes h
  | mdec1 field r => exact completes_of_moduloStep h
  | mdec2 field r => exact completes_of_moduloStep h
  | mdec4 field r => exact completes_of_moduloStep h
  | minc1 field r => exact completes_of_moduloStep h
  | minc2 field r => exact completes_of_moduloStep h
  | minc4 field r => exact completes_of_moduloStep h
  | mirr r => exact (loadStep_writeSlot _ _ _ _).completes h
  | mulReg z c r => exact (loadStep_writeSlot _ _ _ _).completes h
  | mulImm z r v => exact (loadStep_writeSlot _ _ _ _).completes h
  | mulMem z c m =>
    exact completes_of_readEa (f := fun v u => productU z (readSlot z.size (codeSlot z.size c s) u) v) h
  | mula r => exact execMula_completes h
  | mulsReg z c r => exact (loadStep_writeSlot _ _ _ _).completes h
  | mulsImm z r v => exact (loadStep_writeSlot _ _ _ _).completes h
  | mulsMem z c m =>
    exact completes_of_readEa (f := fun v u => productS z (readSlot z.size (codeSlot z.size c s) u) v) h
  | neg z r => exact execNeg_completes h
  | nop => exact (LoadStep.refl s).completes h

end Sys2Proof.Machine
end

section
/-! PROOFS. The whole-machine rules of 10_state.md: what every step keeps, and which instructions write which state. -/

namespace Sys2Proof.Machine

/-! ### A sound state -/

theorem setRfpLow_bit2 (v : BitVec 2) (s : State) : (setRfpLow v s).rfp.getLsbD 2 = false := by
  have h : ∀ v : BitVec 2, (0#1 ++ v).getLsbD 2 = false := by decide
  exact h v

theorem Sound.setPc {s : State} (h : Sound s) (a : Addr) : Sound (s.setPc a) :=
  ⟨h.mem_wf, h.written_wf, h.cr_wf, h.rfp_fixed⟩

theorem Sound.setFreeIndex {s : State} (h : Sound s) (n : Nat) : Sound (s.setFreeIndex n) :=
  ⟨h.mem_wf, h.written_wf, h.cr_wf, h.rfp_fixed⟩

theorem Ordinary.sound {i : Instr} {s u : State} (hu : Ordinary i s u) (h : Sound s) : Sound u := by
  obtain ⟨hmem, hwritten⟩ := hu.wf h.mem_wf h.written_wf
  exact ⟨hmem, hwritten, by rw [hu.system.cr]; exact h.cr_wf, by rw [hu.system.rfp]; exact h.rfp_fixed⟩

/-- The state of every effect is sound when the state before was. -/
theorem Effect.sound {i : Instr} {s t : State} (he : Effect i s t) (h : Sound s) : Sound t := by
  cases he with
  | ordinary hu => exact (hu.sound h).setPc _
  | jump a _ => exact h.setPc a
  | rfp v _ => exact Sound.setPc (s := setRfpLow v s) ⟨h.mem_wf, h.written_wf, h.cr_wf, setRfpLow_bit2 v s⟩ _
  | control name v _ =>
    exact Sound.setPc (s := s.setCr (s.cr.put name v))
      ⟨h.mem_wf, h.written_wf, ControlRegs.put_wf name v h.cr_wf, h.rfp_fixed⟩ _
  | halt _ => exact ⟨h.mem_wf, h.written_wf, h.cr_wf, h.rfp_fixed⟩

/-- Settles O12: a halted state stays, a fetch draws free values only, and every effect of an
instruction keeps a sound state. -/
theorem stepKeepsSound : Obligations.StepKeepsSound := by
  intro s t hs h
  rcases step_eq_next.mp h with ⟨-, rfl⟩ | ⟨-, i, u, hfetch, hexec⟩
  · exact hs
  · obtain ⟨rest, -, -, rfl⟩ := fetchInstr_eq_next hfetch
    exact (exec_completes hexec).2.sound (hs.setFreeIndex _)

theorem sound_resetFrom (l : Launch) {m : Memory} (h : m.wf = true) : Sound (State.resetFrom l m) :=
  ⟨h, rfl, rfl, (by decide : (0 : BitVec 3).getLsbD 2 = false)⟩

/-- Settles O13: the reset values are canonical, and memory is the one supplied. -/
theorem resetIsSound : Obligations.ResetIsSound :=
  ⟨sound_resetFrom resetLaunch rfl, fun l _ h => sound_resetFrom l h⟩

/-! ### Who writes what -/

/-- Settles O15: only the effects `rfp`, `control` and `halt` touch these three kinds of state. -/
theorem systemStateWriters : Obligations.SystemStateWriters := by
  intro i s t h
  cases (exec_completes h).2 with
  | ordinary hu =>
    exact ⟨(absurd hu.system.rfp ·), (absurd hu.system.cr ·), (absurd hu.system.halted ·)⟩
  | jump a _ => exact ⟨(absurd rfl ·), (absurd rfl ·), (absurd rfl ·)⟩
  | rfp v hi => exact ⟨fun _ => hi, (absurd rfl ·), (absurd rfl ·)⟩
  | control name v hi => exact ⟨(absurd rfl ·), fun _ => hi, (absurd rfl ·)⟩
  | halt hi => exact ⟨(absurd rfl ·), (absurd rfl ·), fun _ => hi⟩

/-- No effect but `ordinary` writes a flag, and that one writes those of the row in R31. -/
theorem Effect.flagsWithin {i : Instr} {s t : State} (he : Effect i s t) :
    FlagsWithin (flagsWritten i) s.flags t.flags := by
  cases he with
  | ordinary hu => exact hu.flags
  | jump _ _ => exact FlagsWithin.refl _ _
  | rfp _ _ => exact FlagsWithin.refl _ _
  | control _ _ _ => exact FlagsWithin.refl _ _
  | halt _ => exact FlagsWithin.refl _ _

/-- Settles O16, by the flags of every effect. -/
theorem onlyTableFlagsChange : Obligations.OnlyTableFlagsChange := by
  intro i s t h
  obtain ⟨hs, hz, hh, hv, hn, hc⟩ := (exec_completes h).2.flagsWithin
  exact ⟨hs, hz, hh, hv, hn, hc⟩

/-- Every effect but that of a jump leaves the pc at `next`. -/
theorem Effect.pc_eq {i : Instr} {s t : State} (he : Effect i s t) (hi : isJump i = false) :
    t.pc = nextPc i s := by
  cases he with
  | ordinary _ => rfl
  | jump _ hj => simp [hi] at hj
  | rfp _ _ => rfl
  | control _ _ _ => rfl
  | halt _ => rfl

theorem fallsThrough_of_pc {i : Instr} {s t : State} (hn : NextFits i s) (h : t.pc = nextPc i s) :
    FallsThrough i s t := by
  rw [FallsThrough, h]
  exact fallsThrough_setPc hn s

/-- Settles O18: the pc of every effect, and `finish` at the top of the address space. -/
theorem nonJumpsFallThrough : Obligations.NonJumpsFallThrough := by
  refine ⟨fun i s t h => ?_, fun s hpc => ?_⟩
  · obtain ⟨hn, he⟩ := exec_completes h
    exact ⟨hn, fun hi => fallsThrough_of_pc hn (he.pc_eq hi)⟩
  · have htop : Config.addressSpace ≤ s.pc.toNat + Instr.nop.len := by rw [hpc]; decide
    exact finish_of_not_fits htop

end Sys2Proof.Machine
end

section
/-! PROOFS. The registers and the reset start: which bits a register code names (10_state.md R20 to R24, R38;
30_encoding.md R79), and the pc after reset (R35). -/

namespace Sys2Proof.Machine

/-! ### Register codes -/

theorem readSlot_short_long (c : BitVec 3) (s : State) :
    readSlot .long (slotOf .long (.short c) s) s = s.get32 (reg32 c s) := BitVec.extractLsb'_eq_self

theorem readSlot_short_word (c : BitVec 3) (s : State) :
    readSlot .word (slotOf .word (.short c) s) s = (s.get32 (reg32 c s)).extractLsb' 0 16 := rfl

theorem readSlot_short_byte (c : BitVec 3) (s : State) :
    readSlot .byte (slotOf .byte (.short c) s) s =
      (s.get32 (codeSlot .byte c s).reg).extractLsb' (codeSlot .byte c s).off 8 := rfl

theorem readSlot_ext (sz : Size) (e : ExtReg) (s : State) :
    readSlot sz (slotOf sz (.ext e) s) s =
      (s.get32 (selReg e.sel s)).extractLsb' (8 * e.part.toNat) sz.bits := rfl

/-- The long registers by 3-bit code (R20, R24). -/
def codeRegs (s : State) : List (BitVec 3 × Long) :=
  [(0#3, (s.banks[s.curBank.val]).xwa), (1#3, (s.banks[s.curBank.val]).xbc),
    (2#3, (s.banks[s.curBank.val]).xde), (3#3, (s.banks[s.curBank.val]).xhl), (4#3, s.xix), (5#3, s.xiy),
    (6#3, s.xiz), (7#3, s.xsp)]

theorem get32_of_mem_codeRegs {s : State} {row : BitVec 3 × Long} (h : row ∈ codeRegs s) :
    s.get32 (reg32 row.1 s) = row.2 := by
  simp only [codeRegs, List.mem_cons, List.not_mem_nil, or_false] at h
  rcases h with rfl | rfl | rfl | rfl | rfl | rfl | rfl | rfl <;> rfl

/-- The byte registers by 3-bit code, each with its 32-bit register and lowest bit (R22). -/
def codeBytes (s : State) : List (BitVec 3 × Long × Nat) :=
  [(0#3, (s.banks[s.curBank.val]).xwa, 8), (1#3, (s.banks[s.curBank.val]).xwa, 0),
    (2#3, (s.banks[s.curBank.val]).xbc, 8), (3#3, (s.banks[s.curBank.val]).xbc, 0),
    (4#3, (s.banks[s.curBank.val]).xde, 8), (5#3, (s.banks[s.curBank.val]).xde, 0),
    (6#3, (s.banks[s.curBank.val]).xhl, 8), (7#3, (s.banks[s.curBank.val]).xhl, 0)]

theorem readSlot_of_mem_codeBytes {s : State} {row : BitVec 3 × Long × Nat} (h : row ∈ codeBytes s) :
    readSlot .byte (slotOf .byte (.short row.1) s) s = row.2.1.extractLsb' row.2.2 8 := by
  simp only [codeBytes, List.mem_cons, List.not_mem_nil, or_false] at h
  rw [readSlot_short_byte]
  rcases h with rfl | rfl | rfl | rfl | rfl | rfl | rfl | rfl <;>
    simp [codeSlot, reg32, State.get32, Bank.get]

theorem curBank_val (s : State) : s.curBank.val = s.rfp.toNat % 4 := by
  simp [State.curBank]

/-- The previous bank is one down, modulo 4 (R24, R79). -/
theorem previousBank_val (s : State) : (s.curBank - 1).val = (s.rfp.toNat + 3) % 4 := by
  rw [Fin.val_sub, curBank_val]
  omega

/-- The 32-bit registers that extension codes select, for one of the four banked names (R79). -/
def selRegs (s : State) (r : BankReg) : List (R32Sel × Long) :=
  [(.xix, s.xix), (.xiy, s.xiy), (.xiz, s.xiz), (.xsp, s.xsp),
    (.current r, (s.banks[s.curBank.val]).get r),
    (.previous r, (s.banks[(s.rfp.toNat + 3) % 4]'(Nat.mod_lt _ (by decide))).get r),
    (.bank 0 r, s.banks[0].get r), (.bank 1 r, s.banks[1].get r), (.bank 2 r, s.banks[2].get r),
    (.bank 3 r, s.banks[3].get r)]

theorem get32_previous (s : State) (r : BankReg) :
    s.get32 (selReg (.previous r) s) =
      (s.banks[(s.rfp.toNat + 3) % 4]'(Nat.mod_lt _ (by decide))).get r := by
  simp only [selReg, State.get32, previousBank_val]

theorem get32_of_mem_selRegs {s : State} {r : BankReg} {row : R32Sel × Long} (h : row ∈ selRegs s r) :
    s.get32 (selReg row.1 s) = row.2 := by
  simp only [selRegs, List.mem_cons, List.not_mem_nil, or_false] at h
  rcases h with rfl | rfl | rfl | rfl | rfl | rfl | rfl | rfl | rfl | rfl
  case inr.inr.inr.inr.inr.inl => exact get32_previous s r
  all_goals rfl

/-- Settles O23, from the three tables of register codes. -/
theorem registerNames : Obligations.RegisterNames := by
  intro s
  refine ⟨fun row h => ?_, fun row h => readSlot_of_mem_codeBytes h, curBank_val s, fun r row h => ?_⟩
  · have hreg := get32_of_mem_codeRegs h
    exact ⟨(readSlot_short_long row.1 s).trans hreg, by rw [readSlot_short_word, hreg]⟩
  · have hreg := get32_of_mem_selRegs h
    refine ⟨?_, ?_, ?_, fun part => ?_⟩ <;> rw [readSlot_ext, hreg]
    · exact BitVec.extractLsb'_eq_self
    all_goals rfl

/-! ### The start after reset -/

theorem toNat_append_byte {n : Nat} (x : BitVec n) (b : Byte) : (x ++ b).toNat = x.toNat * 256 + b.toNat := by
  rw [BitVec.toNat_append, ← Nat.shiftLeft_add_eq_or_of_lt b.isLt, Nat.shiftLeft_eq]

/-- The low 24 bits of four bytes, low byte first, are the first three of them. -/
theorem ofNat_leNat_four (b₀ b₁ b₂ b₃ : Byte) :
    BitVec.ofNat 24 (leNat [b₀, b₁, b₂, b₃]) = b₂ ++ b₁ ++ b₀ := by
  apply BitVec.eq_of_toNat_eq
  have h₀ := b₀.isLt
  have h₁ := b₁.isLt
  have h₂ := b₂.isLt
  simp only [BitVec.toNat_ofNat, leNat, toNat_append_byte]
  omega

/-- Settles O25: the window at the vector is the four bytes from FFFF00H on. -/
theorem resetStart : Obligations.ResetStart :=
  fun _ m => ⟨ofNat_leNat_four (m.read 0xFFFF00) (m.read 0xFFFF01) (m.read 0xFFFF02) (m.read 0xFFFF03),
    rfl, rfl⟩

end Sys2Proof.Machine
end

section
/-! PROOFS. What the instructions on the state outside general registers do: HALT, INCF, LDF (R120, R130, R131), the absolute
jumps (R135, R136) and LDC (R162, R163). -/

namespace Sys2Proof.Machine

theorem ofNat_toNat_add (a : Addr) (n : Nat) : BitVec.ofNat 24 (a.toNat + n) = a + BitVec.ofNat 24 n := by
  rw [BitVec.ofNat_add, BitVec.ofNat_toNat, BitVec.setWidth_eq]

/-- `finish` adds the length to the pc. -/
theorem finish_add {len : Nat} {s : State} (h : s.pc.toNat + len < Config.addressSpace) :
    finish len s = .next (s.setPc (s.pc + BitVec.ofNat 24 len)) := by
  rw [finish_of_fits h, ofNat_toNat_add]

/-! ### HALT, INCF, LDF -/

theorem execHalt_next {s : State} (h : s.pc.toNat + 1 < Config.addressSpace) :
    execHalt s = .next (s.setPc (s.pc + 1#24)).setHalted := by
  rw [execHalt, show Instr.halt.len = 1 from rfl, finish_add h, andThen_next]

theorem step_of_halted {s : State} (h : s.halted = true) : step s = .next s :=
  step_eq_next.mpr (.inl ⟨h, rfl⟩)

/-- Settles O28, by the meaning of HALT and the first branch of `step`. -/
theorem haltResult : Obligations.HaltResult :=
  ⟨fun _ _ => rfl, fun _ => ⟨execHalt_next, step_of_halted⟩⟩

theorem execIncf_next {s : State} (h : s.pc.toNat + 1 < Config.addressSpace) :
    execIncf s = .next ((setRfpLow (s.rfp.extractLsb' 0 2 + 1) s).setPc (s.pc + 1#24)) :=
  finish_add (s := setRfpLow _ s) h

/-- The step of INCF wraps at 4, bit 2 of RFP being left out (R130). -/
theorem incf_wraps (f : BitVec 3) : (0#1 ++ (f.extractLsb' 0 2 + 1) : BitVec 3).toNat = (f.toNat + 1) % 4 := by
  revert f
  decide

theorem low_bits_of_le_three {f : BitVec 3} (h : f.toNat ≤ 3) : (0#1 ++ f.extractLsb' 0 2 : BitVec 3) = f := by
  revert f
  decide

theorem execLdf_next {num : BitVec 3} {s : State} (hnum : num.toNat ≤ 3)
    (h : s.pc.toNat + 2 < Config.addressSpace) :
    execLdf num s = .next ((s.setRfp num).setPc (s.pc + 2#24)) := by
  rw [execLdf, if_pos hnum, setRfpLow, low_bits_of_le_three hnum]
  exact finish_add (s := s.setRfp num) h

theorem execLdf_refused {num : BitVec 3} (s : State) (hnum : 4 ≤ num.toNat) :
    execLdf num s = .refused (.ldfNumber s.pc) := if_neg (by omega)

/-- Settles O29, by the wrap of INCF and by which operands LDF takes. -/
theorem registerFilePointerResult : Obligations.RegisterFilePointerResult :=
  ⟨fun s h => ⟨_, execIncf_next h, incf_wraps s.rfp⟩,
    fun _ s => ⟨execLdf_next, execLdf_refused s⟩⟩

/-! ### Absolute jumps -/

/-- Settles O33: the decoder reads the operand low byte first, and D4 looks at `next` before the
jump. -/
theorem jumpAbsoluteResult : Obligations.JumpAbsoluteResult :=
  ⟨fun _ _ _ _ => rfl, fun _ _ _ _ _ => rfl, fun _ =>
    ⟨fun _ => ⟨requireNext_of_fits, requireNext_of_not_fits⟩,
      fun _ => ⟨requireNext_of_fits, requireNext_of_not_fits⟩⟩⟩

/-! ### LDC -/

/-- A code that the launch maps to a control register of the instruction's size passes `require`. -/
theorem requireCr_of_crEntry {sz : Size} {code : Byte} {s : State} {e : CrEntry} (he : s.crEntry code = some e)
    (hw : e.width = sz) : requireCr sz code s = .next e.name :=
  requireCr_eq_next.mpr ⟨e, he, hw, rfl⟩

theorem execLdcToCr_next {sz : Size} {cr : BitVec 8} {r : RegOp} {s : State} {e : CrEntry}
    (hn : NextFits (.ldcToCr sz cr r) s) (he : s.crEntry cr = some e) (hw : e.width = sz) :
    execLdcToCr sz cr r s =
      .next ((s.setCr (s.cr.put e.name ((readSlot sz (slotOf sz r s) s).setWidth 32))).setPc
        (nextPc (.ldcToCr sz cr r) s)) := by
  rw [execLdcToCr, requireCr_of_crEntry he hw, andThen_next]
  exact finish_completes hn rfl

theorem execLdcFromCr_eq {sz : Size} {r : RegOp} {cr : BitVec 8} {s : State} {e : CrEntry}
    (he : s.crEntry cr = some e) (hw : e.width = sz) :
    execLdcFromCr sz r cr s = finish (Instr.len (.ldcFromCr sz r cr))
      (writeSlot sz (slotOf sz r s) ((s.cr.get e.name).setWidth sz.bits) s) := by
  rw [execLdcFromCr, requireCr_of_crEntry he hw, andThen_next]

/-- Settles O48: the only state that LDC cr,r writes beside the pc is the control registers, and a
write there leaves every other register as it was. -/
theorem ldcToControlResult : Obligations.LdcToControlResult := by
  intro sz cr r s e _ hn he hw
  refine ⟨_, execLdcToCr_next hn he hw, ?_, fun other hne => ?_, fun p => by simp, ⟨fun _ => rfl, rfl⟩,
    rfl, rfl, rfl, rfl, rfl, fallsThrough_of_pc hn rfl⟩
  · simp [ControlRegs.get_put, BitVec.ofNat_toNat]
  · simp [ControlRegs.get_put, hne]

/-- Settles O49: LDC r,cr is a register result. -/
theorem ldcFromControlResult : Obligations.LdcFromControlResult := by
  intro sz r cr s e hwf hn he hw
  obtain ⟨t, hfin, hflags, hreg⟩ :=
    finish_writesReg' (slotOf_fits hwf s) hn ((s.cr.get e.name).setWidth sz.bits)
  exact ⟨t, _, (execLdcFromCr_eq he hw).trans hfin,
    BitVec.setWidth_eq_extractLsb' (by cases sz <;> decide), hflags, hreg⟩

end Sys2Proof.Machine
end

section
/-! PROOFS. INC of a register (41_inc_neg.md R125, R127) and LINK (47_link.md R180). -/

namespace Sys2Proof.Machine

/-! ### INC -/

theorem incAmount_eq (num : BitVec 3) : incAmount num = if num.toNat = 0 then 8 else num.toNat := by
  revert num
  decide

/-- The flags that INC #3,r leaves: those of R127 for a byte, the old ones for the other sizes. -/
def incRegFlags (sz : Size) (a : BitVec sz.bits) (k : Nat) (res : BitVec sz.bits) (f : Flags) : Flags :=
  if sz = .byte then incFlags a k res f else f

theorem execIncReg_eq {sz : Size} {num : BitVec 3} {r : RegOp} {s : State} {a res : BitVec sz.bits}
    (ha : a = readSlot sz (slotOf sz r s) s) (hres : res = a + BitVec.ofNat sz.bits (incAmount num)) :
    execIncReg sz num r s = finish (Instr.len (.incReg sz num r))
      ((writeSlot sz (slotOf sz r s) res s).setFlags (incRegFlags sz a (incAmount num) res s.flags)) := by
  rw [hres, ha]
  rfl

/-- Settles O30: INC #3,r is a register result with the flags of R127 for a byte. -/
theorem incRegisterResult : Obligations.IncRegisterResult := by
  intro sz num r s hwf hn k hk a res ha hres
  obtain rfl : k = incAmount num := hk.trans (incAmount_eq num).symm
  obtain ⟨t, hfin, hflags, hreg⟩ :=
    finish_writesReg (slotOf_fits hwf s) hn res (incRegFlags sz a (incAmount num) res s.flags)
  refine ⟨t, (execIncReg_eq ha hres).trans hfin, hreg, fun hsz => ?_, fun hsz => ?_⟩
  · rw [hflags, incRegFlags, if_neg hsz]
  · rw [hflags, incRegFlags, if_pos hsz]
    rfl

/-! ### LINK -/

/-- A long register fills its 32-bit register. -/
theorem slotOf_long_off {r : RegOp} (h : r.ok .long = true) (s : State) : (slotOf .long r s).off = 0 := by
  have := slotOf_fits h s
  simp only [Size.bits] at this
  omega

theorem readSlot_long {x : Slot} (h : x.off = 0) (s : State) : readSlot .long x s = s.get32 x.reg := by
  rw [readSlot, h]
  exact BitVec.extractLsb'_eq_self

theorem insertBits_all (old v : Long) : insertBits old 0 v = v := by
  apply BitVec.eq_of_getLsbD_eq
  intro i hi
  rw [insertBits_getLsbD old 0 v hi, if_pos (by omega), Nat.sub_zero]

theorem writeSlot_long {x : Slot} (h : x.off = 0) (v : Long) (s : State) :
    writeSlot .long x v s = s.set32 x.reg v := by
  rw [writeSlot, h, insertBits_all]

theorem execLink_of_xsp {r : RegOp} (d : BitVec 16) {s : State} (h : (slotOf .long r s).reg = .xsp) :
    execLink r d s = .refused (.linkXsp s.pc) := if_pos h

/-- The state of LINK after its store: the frame pointer `p`, XSP and the pc. -/
def linked (r : RegOp) (d : BitVec 16) (p : PReg) (s u : State) : State :=
  ((u.set32 p (pushedXsp s)).set32 .xsp (pushedXsp s + d.signExtend 32)).setPc (nextPc (.link r d) s)

theorem execLink_next {r : RegOp} {d : BitVec 16} {s : State} (hwf : r.ok .long = true)
    (hn : NextFits (.link r d) s) (hp : (slotOf .long r s).reg ≠ .xsp)
    (hr : Reachable (dataAddr (pushedXsp s)) 4 s) :
    ∃ u, execLink r d s = .next (linked r d (slotOf .long r s).reg s u) ∧
      Stores .long (dataAddr (pushedXsp s)) (s.get32 (slotOf .long r s).reg) s u ∧ OnlyMem s u := by
  have hoff := slotOf_long_off hwf s
  obtain ⟨u, hu, hst, heq⟩ :=
    writeMem_completes (sz := .long) (s.get32 (slotOf .long r s).reg) hr
  have ho := onlyMem_of_eq heq
  refine ⟨u, ?_, hst, ho⟩
  simp only [execLink]
  rw [if_neg hp, readSlot_long hoff, hu, andThen_next, writeSlot_long hoff]
  exact finish_completes hn (by simp [ho.pc])

/-- Settles O55: LINK of XSP is refused; another register takes the pushed stack pointer after its
old value was stored there. -/
theorem linkResult : Obligations.LinkResult := by
  rintro r d s _ rfl
  refine ⟨fun hwf hn hp hr => ?_, execLink_of_xsp d⟩
  obtain ⟨u, hexec, hst, ho⟩ := execLink_next hwf hn hp hr
  refine ⟨_, hexec, ⟨?_, ?_, fallsThrough_of_pc hn rfl⟩, ?_, rfl, fun q hq hqs => ?_, ?_⟩
  · exact hst.congr (fun _ => rfl) rfl (fun _ => rfl) (by simp [linked]) (by simp [linked])
  · constructor <;> simp [linked, ho.system.cr, ho.system.rfp, ho.system.iff, ho.system.halted, ho.system.launch]
  · simp [linked, State.get32_set32_ne _ _ hp, pushedXsp]
  · simp [linked, State.get32_set32_ne _ _ hqs, State.get32_set32_ne _ _ hq, ho.regs q]
  · simp [linked, ho.flags]

end Sys2Proof.Machine
end

section
/-! PROOFS. The memory accesses of 20_memory.md: who writes memory (R52), a store read back (R53, R55), device bytes (R57), and
LDX (44_load.md R157). -/

namespace Sys2Proof.Machine

/-! ### Who writes memory -/

theorem setRfpLow_sameMem (v : BitVec 2) (s : State) : SameMem s (setRfpLow v s) := ⟨fun _ => rfl, rfl⟩

theorem SameMem.setPc {s u : State} (h : SameMem s u) (a : Addr) : SameMem s (u.setPc a) :=
  ⟨h.bytes, h.written⟩

/-- Only the effect `ordinary` can touch memory, and for R52's instructions alone. -/
theorem Effect.sameMem {i : Instr} {s t : State} (he : Effect i s t) (hi : writesMemory i = false) :
    SameMem s t := by
  cases he with
  | ordinary hu => exact (hu.mem hi).setPc _
  | jump a _ => exact (SameMem.refl s).setPc a
  | rfp v _ => exact (setRfpLow_sameMem v s).setPc _
  | control _ _ _ => exact ⟨fun _ => rfl, rfl⟩
  | halt _ => exact ⟨fun _ => rfl, rfl⟩

/-- Settles O17, by the memory of every effect. -/
theorem onlyListedInstructionsWriteMemory : Obligations.OnlyListedInstructionsWriteMemory :=
  fun _ _ _ hi h => (exec_completes h).2.sameMem hi

/-! ### Reading what a store put there -/

/-- A read of admitted memory that holds `v` answers `v` and changes nothing. -/
theorem readMem_of_holds {sz : Size} {a : Addr} {s : State} {v : BitVec sz.bits} (h : Plain a sz.bytes s)
    (hv : Holds sz a s v) : readMem sz a s = .next (v, s) := by
  obtain ⟨w, hread, hw⟩ := readMem_plain h
  rw [hread, Holds.unique (fun i hi => (h i hi).1) hw hv]

theorem Plain.congr {a : Addr} {n : Nat} {s s' : State} (h : Plain a n s) (hl : s'.launch = s.launch) :
    Plain a n s' := by
  simpa [Plain, State.isDevice, State.isAdmitted, hl] using h

theorem byteAddr_add (a : Addr) (i j : Nat) :
    byteAddr (a + BitVec.ofNat 24 i) j = byteAddr a (i + j) := by
  rw [byteAddr, byteAddr, BitVec.ofNat_add, BitVec.add_assoc]

theorem Plain.byte {a : Addr} {n i : Nat} {s : State} (h : Plain a n s) (hi : i < n) :
    Plain (a + BitVec.ofNat 24 i) 1 s := by
  intro j hj
  obtain rfl : j = 0 := by omega
  rw [byteAddr_add]
  exact h i hi

theorem Holds.byte {sz : Size} {a : Addr} {s : State} {v : BitVec sz.bits} {i : Nat} (h : Holds sz a s v)
    (hi : i < sz.bytes) : Holds .byte (a + BitVec.ofNat 24 i) s (v.extractLsb' (8 * i) 8) := by
  intro j hj hd
  obtain rfl : j = 0 := by simp only [Size.bytes] at hj; omega
  rw [byteAddr_add] at hd ⊢
  exact BitVec.extractLsb'_eq_self.trans (h i hi hd)

theorem Stores.holds {sz : Size} {a : Addr} {v : BitVec sz.bits} {s t : State} (h : Stores sz a v s t)
    (hl : t.launch = s.launch) : Holds sz a t v :=
  fun i hi hd => (h.stored i hi (by rw [← isDevice_of_launch hl]; exact hd)).symm

/-- Settles O20: after the store memory holds the value, and so each byte of it. -/
theorem readAfterWrite : Obligations.ReadAfterWrite := by
  intro sz a v s h
  obtain ⟨t, hwrite, hst, heq⟩ := writeMem_completes v h.reachable
  have hl : t.launch = s.launch := (onlyMem_of_eq heq).system.launch
  have hp : Plain a sz.bytes t := h.congr hl
  have hv : Holds sz a t v := hst.holds hl
  exact ⟨t, hwrite, readMem_of_holds hp hv, fun i hi => readMem_of_holds (hp.byte hi) (hv.byte hi)⟩

/-! ### Device bytes -/

theorem writeByte_of_device {a : Addr} (b : Byte) {s : State} (h : s.isDevice a.toNat = true) :
    writeByte a b s = .next (s.markWritten a) := if_pos h

theorem reachable_byte {a : Addr} {s : State}
    (h : s.isDevice a.toNat = true ∨ s.isAdmitted a.toNat = true) : Reachable a 1 s := by
  intro i hi
  obtain rfl : i = 0 := by omega
  rwa [byteAddr_zero]

theorem writeMem_byte (a : Addr) (v : BitVec 8) (s : State) : writeMem .byte a v s = writeByte a v s := by
  have hv : leBytes 1 v.toNat = [v] := by simp [leBytes]
  change writeBytes (leBytes 1 v.toNat) a s = _
  rw [hv, writeBytes]
  cases writeByte a v s <;> rfl

theorem sameRegs_setFreeIndex (s : State) (n : Nat) : SameRegs s (s.setFreeIndex n) := fun p => by simp

/-- Settles O22: the read draws a free value, the write marks the address. -/
theorem deviceAccess : Obligations.DeviceAccess := by
  intro a v s h
  obtain ⟨b, k, hread, -⟩ := readMem_completes (sz := .byte) (reachable_byte (.inl h))
  have hstep := loadStep_setFreeIndex s (s.freeIndex + k)
  refine ⟨⟨b, _, hread, sameRegs_setFreeIndex _ _, hstep.same, hstep.quiet.system, rfl, rfl⟩, ?_⟩
  rw [writeMem_byte, writeByte_of_device v h, State.markWritten]

/-! ### LDX -/

theorem decode_ldx (l : Launch) (x a y v z : Byte) (rest : List Byte) :
    decode l (0xF7#8 :: x :: a :: y :: v :: z :: rest) = .ok (.ldx a v) rest := rfl

theorem execLdx_result {a v : BitVec 8} {s : State} (hn : NextFits (.ldx a v) s)
    (hr : Reachable (a.setWidth 24) 1 s) :
    ∃ t, execLdx a v s = .next t ∧ WritesMem (.ldx a v) .byte (a.setWidth 24) v s t ∧ SameRegs s t ∧
      t.flags = s.flags := by
  obtain ⟨u, t, hwrite, hfin, hmem, hregs, hflags⟩ :=
    store_finish' (sz := .byte) v hn hr rfl (SameSystem.refl s) (fun _ => rfl) rfl
  exact ⟨t, by rw [execLdx, hwrite, andThen_next, hfin], hmem, hregs, hflags⟩

theorem FallsThrough.pc_eq_add {i : Instr} {s t : State} (h : FallsThrough i s t) :
    t.pc = s.pc + BitVec.ofNat 24 i.len := by
  rw [← ofNat_toNat_add, ← h, BitVec.ofNat_toNat, BitVec.setWidth_eq]

/-- Settles O43: the filler bytes are dropped by the decoder, and LDX is a byte store. -/
theorem loadExtractResult : Obligations.LoadExtractResult := by
  refine ⟨decode_ldx, fun a v s hn hr => ?_⟩
  obtain ⟨t, hexec, hmem, hregs, hflags⟩ := execLdx_result hn hr
  exact ⟨t, hexec, hmem.mem, hregs, hmem.system, hflags, hmem.next.pc_eq_add⟩

end Sys2Proof.Machine
end

section
/-! PROOFS. The decoder as a reader (30_encoding.md R71, R94): what it answers depends on the bytes it takes and not on those
behind them, and it takes seven at the most. -/

namespace Sys2Proof

/-! ### Readers -/

/-- When `p`, read from `bs`, is a value or a rejection, it took at most `n` bytes, and `q` is the same
outcome with `more` left over behind its own rest. -/
inductive Continues {α : Type} (n : Nat) (bs more : List Byte) : Parsed α → Parsed α → Prop where
  | short (q : Parsed α) : Continues n bs more .short q
  | ok (a : α) (rest : List Byte) : bs.length ≤ rest.length + n →
      Continues n bs more (.ok a rest) (.ok a (rest ++ more))
  | reject (why : DecodeError) (rest : List Byte) : bs.length ≤ rest.length + n →
      Continues n bs more (.reject why rest) (.reject why (rest ++ more))

/-- A reader that looks at no more than the `n` bytes it takes. -/
def Reads {α : Type} (n : Nat) (f : List Byte → Parsed α) : Prop :=
  ∀ bs more, Continues n bs more (f bs) (f (bs ++ more))

section
variable {α β : Type} {n m : Nat}

theorem Continues.mono {bs bs' more : List Byte} {p q : Parsed α} (h : Continues n bs more p q)
    (hl : bs'.length + n ≤ bs.length + m) : Continues m bs' more p q := by
  cases h with
  | short q => exact .short q
  | ok a rest hn => exact .ok a rest (by omega)
  | reject why rest hn => exact .reject why rest (by omega)

theorem Reads.mono {f : List Byte → Parsed α} (h : Reads n f) (hnm : n ≤ m) : Reads m f :=
  fun bs more => (h bs more).mono (by omega)

theorem reads_ok (a : α) : Reads n (fun bs => .ok a bs) := fun bs _ => .ok a bs (by omega)

theorem reads_reject (why : DecodeError) : Reads n (fun bs => (.reject why bs : Parsed α)) :=
  fun bs _ => .reject why bs (by omega)

theorem Continues.bind {bs more : List Byte} {p q : Parsed α} {g : α → List Byte → Parsed β}
    (h : Continues n bs more p q) (hg : ∀ a, Reads m (g a)) :
    Continues (m + n) bs more (p.bind g) (q.bind g) := by
  cases h with
  | short q => exact .short _
  | ok a rest hn => exact (hg a rest more).mono (by omega)
  | reject why rest hn => exact .reject why rest (by omega)

theorem Reads.bind {f : List Byte → Parsed α} {g : α → List Byte → Parsed β} (hf : Reads n f)
    (hg : ∀ a, Reads m (g a)) : Reads (m + n) (fun bs => (f bs).bind g) :=
  fun bs more => (hf bs more).bind hg

/-- A reader's value does not depend on what follows the bytes it took. -/
theorem Reads.append_of_ok {f : List Byte → Parsed α} (hf : Reads n f) {bs rest : List Byte} {a : α}
    (h : f bs = .ok a rest) (more : List Byte) :
    bs.length ≤ rest.length + n ∧ f (bs ++ more) = .ok a (rest ++ more) := by
  have hc := hf bs more
  rw [h] at hc
  generalize f (bs ++ more) = q at hc
  cases hc with
  | ok _ _ hn => exact ⟨hn, rfl⟩

/-- Nor does its rejection. -/
theorem Reads.append_of_reject {f : List Byte → Parsed α} (hf : Reads n f) {bs rest : List Byte}
    {why : DecodeError} (h : f bs = .reject why rest) (more : List Byte) :
    bs.length ≤ rest.length + n ∧ f (bs ++ more) = .reject why (rest ++ more) := by
  have hc := hf bs more
  rw [h] at hc
  generalize f (bs ++ more) = q at hc
  cases hc with
  | reject _ _ hn => exact ⟨hn, rfl⟩

theorem reads_take8 : Reads 1 take8
  | [], _ => .short _
  | b :: rest, _ => .ok b rest (by simp)

theorem reads_take16 : Reads 2 take16
  | [], _ => .short _
  | [_], _ => .short _
  | lo :: hi :: rest, _ => .ok _ rest (by simp)

theorem reads_take24 : Reads 3 take24
  | [], _ => .short _
  | [_], _ => .short _
  | [_, _], _ => .short _
  | _ :: _ :: _ :: rest, _ => .ok _ rest (by simp)

theorem reads_take32 : Reads 4 take32
  | [], _ => .short _
  | [_], _ => .short _
  | [_, _], _ => .short _
  | [_, _, _], _ => .short _
  | _ :: _ :: _ :: _ :: rest, _ => .ok _ rest (by simp)

theorem reads_takeImm (sz : Size) : Reads 4 (takeImm sz) := by
  cases sz with
  | byte => exact reads_take8.mono (by omega)
  | word => exact reads_take16.mono (by omega)
  | long => exact reads_take32

theorem reads_take8_then {g : Byte → List Byte → Parsed β} (hg : ∀ v, Reads n (g v)) :
    Reads (n + 1) (fun bs => (take8 bs).bind g) := reads_take8.bind hg

theorem reads_take16_then {g : BitVec 16 → List Byte → Parsed β} (hg : ∀ v, Reads n (g v)) :
    Reads (n + 2) (fun bs => (take16 bs).bind g) := reads_take16.bind hg

theorem reads_take24_then {g : BitVec 24 → List Byte → Parsed β} (hg : ∀ v, Reads n (g v)) :
    Reads (n + 3) (fun bs => (take24 bs).bind g) := reads_take24.bind hg

theorem reads_takeImm_then (sz : Size) {g : BitVec sz.bits → List Byte → Parsed β}
    (hg : ∀ v, Reads n (g v)) : Reads (n + 4) (fun bs => (takeImm sz bs).bind g) :=
  (reads_takeImm sz).bind hg

theorem reads_ite {c : Prop} [Decidable c] {f g : List Byte → Parsed α} (hf : Reads n f) (hg : Reads n g) :
    Reads n (fun bs => if c then f bs else g bs) := by
  split
  · exact hf
  · exact hg

theorem reads_needBW (sz : Size) {k : BW → List Byte → Parsed Instr} (hk : ∀ z, Reads n (k z)) :
    Reads n (fun rest => needBW sz rest fun z => k z rest) := by
  cases sz with
  | byte => exact hk .byte
  | word => exact hk .word
  | long => exact reads_reject _

theorem reads_needSize (want sz : Size) {p : List Byte → Parsed Instr} (hp : Reads n p) :
    Reads n (fun rest => needSize want sz rest (p rest)) := reads_ite hp (reads_reject _)

theorem reads_needReg (sz : Size) (r : RegOp) {p : List Byte → Parsed Instr} (hp : Reads n p) :
    Reads n (fun rest => needReg sz r rest (p rest)) := reads_ite hp (reads_reject _)

theorem reads_needMul (fine : Bool) {p : List Byte → Parsed Instr} (hp : Reads n p) :
    Reads n (fun rest => needMul fine rest (p rest)) := reads_ite hp (reads_reject _)

end

/-! ### The parts of the decoder -/

theorem reads_takeModulo (mk : BitVec 16 → RegOp → Instr) (sz : Size) (r : RegOp) :
    Reads 4 (takeModulo mk sz r) :=
  reads_needSize _ _ (reads_needReg _ _ (reads_take16_then fun _ => reads_ok _))

/-- An opcode that ends the instruction after a register operand. -/
theorem reads_needReg_ok {n : Nat} (sz : Size) (r : RegOp) (i : Instr) :
    Reads n (fun rest => needReg sz r rest (.ok i rest)) := reads_needReg _ _ (reads_ok _)

theorem reads_decodeFr (sz : Size) (r : RegOp) : Reads 5 (decodeFr sz r) := by
  refine reads_take8_then fun b rest more => ?_
  split
  case h_1 => exact reads_needReg _ _ (reads_takeImm_then _ fun _ => reads_ok _) rest more
  case h_2 | h_9 => exact reads_needBW _ (fun _ => reads_needReg_ok _ _ _) rest more
  case h_3 | h_4 =>
    exact reads_needBW _ (fun _ => reads_needMul _ (reads_takeImm_then _ fun _ => reads_ok _)) rest more
  case h_5 => exact reads_needSize _ _ (reads_needReg _ _ (reads_take16_then fun _ => reads_ok _)) rest more
  case h_6 => exact reads_needSize _ _ (reads_needReg_ok _ _ _) rest more
  case h_7 => exact reads_needSize _ _ (reads_needMul _ (reads_ok _)) rest more
  case h_8 =>
    exact reads_needBW _ (fun _ => reads_needReg _ _ (reads_take8_then fun _ => reads_ok _)) rest more
  case h_10 | h_11 => exact reads_needReg _ _ (reads_take8_then fun _ => reads_ok _) rest more
  case h_12 | h_13 | h_14 | h_15 | h_16 | h_17 => exact reads_takeModulo _ _ _ rest more
  case h_18 | h_19 => exact reads_needBW _ (fun _ => reads_needMul _ (reads_needReg_ok _ _ _)) rest more
  case h_20 | h_21 | h_22 | h_23 => exact reads_needReg_ok _ _ _ rest more
  case h_24 => exact reads_reject _ rest more

theorem reads_takeBlock (deHl ixIy : BW → Instr) (sz : Size) (m : Mem) :
    Reads 2 (takeBlock deHl ixIy sz m) := by
  intro rest more
  unfold takeBlock
  split
  · exact reads_needBW _ (fun _ => reads_ok _) rest more
  · exact reads_needBW _ (fun _ => reads_ok _) rest more
  · exact reads_reject _ rest more

theorem reads_decodeFs (sz : Size) (m : Mem) : Reads 3 (decodeFs sz m) := by
  refine reads_take8_then fun b rest more => ?_
  split
  case h_1 | h_2 | h_3 | h_4 => exact reads_takeBlock _ _ _ _ rest more
  case h_5 => exact reads_needBW _ (fun _ => reads_take16_then fun _ => reads_ok _) rest more
  case h_6 => exact reads_ok _ rest more
  case h_7 | h_8 => exact reads_needBW _ (fun _ => reads_needMul _ (reads_ok _)) rest more
  case h_9 => exact reads_needBW _ (fun _ => reads_ok _) rest more
  case h_10 => exact reads_reject _ rest more

theorem reads_decodeFd (m : Mem) : Reads 3 (decodeFd m) := by
  refine reads_take8_then fun b rest more => ?_
  split
  case h_1 => exact reads_take8_then (fun _ => reads_ok _) rest more
  case h_2 | h_3 | h_4 => exact reads_take16_then (fun _ => reads_ok _) rest more
  case h_14 => exact reads_reject _ rest more
  all_goals exact reads_ok _ rest more

theorem reads_decodeMemOp (ss : BitVec 2) (m : Mem) : Reads 3 (decodeMemOp ss m) := by
  intro rest more
  unfold decodeMemOp
  split
  · exact reads_decodeFs _ m rest more
  · exact reads_decodeFd m rest more

theorem reads_decodeF0 (b : Byte) : Reads 4 (decodeF0 b) := by
  intro rest more
  unfold decodeF0
  split
  case h_1 | h_2 | h_5 => exact reads_ok _ rest more
  case h_3 => exact reads_take8_then (fun _ => reads_take8_then fun _ => reads_ok _) rest more
  case h_4 => exact reads_take8_then (fun _ => reads_take16_then fun _ => reads_ok _) rest more
  case h_6 => exact reads_take8_then (fun _ => reads_ite (reads_ok _) (reads_reject _)) rest more
  case h_9 | h_12 | h_13 => exact reads_take8_then (fun _ => reads_ok _) rest more
  case h_7 | h_10 | h_14 | h_15 => exact reads_take16_then (fun _ => reads_ok _) rest more
  case h_8 => exact reads_take24_then (fun _ => reads_ok _) rest more
  case h_11 => exact reads_take32.bind (m := 0) (fun _ => reads_ok _) rest more
  case h_16 => exact reads_reject _ rest more

theorem reads_decodeLdx : Reads 5 decodeLdx
  | [], _ => .short _
  | [_], _ => .short _
  | [_, _], _ => .short _
  | [_, _, _], _ => .short _
  | [_, _, _, _], _ => .short _
  | _ :: _ :: _ :: _ :: _ :: rest, _ => .ok _ rest (by simp)

theorem reads_decodeLdar : Reads 3 decodeLdar := by
  refine reads_take16_then fun d => reads_take8_then fun b rest more => ?_
  split
  · exact reads_ok _ rest more
  · exact reads_ok _ rest more
  · exact reads_reject _ rest more

theorem reads_takeExtReg : Reads 1 takeExtReg := by
  refine reads_take8_then fun b rest more => ?_
  split
  · exact reads_ok _ rest more
  · exact reads_reject _ rest more

theorem reads_takeSel : Reads 1 takeSel :=
  reads_takeExtReg.bind (m := 0) fun _ => reads_ite (reads_ok _) (reads_reject _)

theorem reads_takeMode3 : Reads 3 takeMode3 := by
  refine reads_take8_then fun b => reads_ite ?idx8 (reads_ite ?idx16 ?other)
  case idx8 =>
    exact reads_takeSel.bind (m := 1) fun _ => reads_takeExtReg.bind (m := 0) fun _ => reads_ok _
  case idx16 =>
    exact reads_takeSel.bind (m := 1) fun _ => reads_takeExtReg.bind (m := 0) fun _ =>
      reads_ite (reads_ok _) (reads_reject _)
  case other =>
    intro rest more
    split
    · exact reads_ok _ rest more
    · exact reads_take16_then (fun _ => reads_ok _) rest more
    · exact reads_reject _ rest more

theorem reads_takeAuto (mk : R32Sel → AutoStep → Mem) : Reads 1 (takeAuto mk) := by
  refine reads_take8_then fun b rest more => ?_
  split
  · exact reads_ok _ rest more
  · exact reads_reject _ rest more

theorem reads_takeMem (top : BitVec 2) (b3 : BitVec 1) (low : BitVec 3) : Reads 3 (takeMem top b3 low) := by
  intro bs more
  unfold takeMem
  split
  case h_1 => exact reads_ok _ bs more
  case h_2 | h_3 => exact reads_take8_then (fun _ => reads_ok _) bs more
  case h_4 => exact reads_take16_then (fun _ => reads_ok _) bs more
  case h_5 => exact reads_take24_then (fun _ => reads_ok _) bs more
  case h_6 => exact reads_takeMode3 bs more
  case h_7 | h_8 => exact (reads_takeAuto _).mono (by omega) bs more
  case h_9 => exact reads_reject _ bs more

/-! ### The decoder -/

/-- The bytes F3H 13H of LDAR are seen in the first two bytes, whatever follows (R84). -/
theorem ldarPrefix_append {b : Byte} {rest : List Byte} (h : ¬ (b = 0xF3#8 ∧ rest = [])) (more : List Byte) :
    (b = 0xF3#8 ∧ (rest ++ more).head? = some 0x13#8) ↔ (b = 0xF3#8 ∧ rest.head? = some 0x13#8) := by
  cases rest with
  | nil => simp [show b ≠ 0xF3#8 from fun hb => h ⟨hb, rfl⟩]
  | cons c rest => rfl

/-- What follows the first byte, by the fields of that byte (R71, R94). -/
theorem continues_decodeRaw_cons {b : Byte} {rest : List Byte} (h : ¬ (b = 0xF3#8 ∧ rest = []))
    (more : List Byte) :
    Continues 6 rest more (decodeRaw (b :: rest)) (decodeRaw (b :: (rest ++ more))) := by
  simp only [decodeRaw, ldarPrefix_append h more]
  split
  · exact reads_decodeLdx.mono (by omega) rest more
  · split
    · rename_i hldar
      obtain ⟨tail, rfl⟩ := List.head?_eq_some_iff.mp hldar.2
      exact (reads_decodeLdar tail more).mono (by simp)
    · split
      case h_1 | h_2 => exact (reads_decodeF0 b).mono (by omega) rest more
      case h_3 =>
        split
        · exact (reads_decodeFr _ _).mono (by omega) rest more
        · exact reads_reject _ rest more
      case h_4 =>
        split
        · exact reads_takeExtReg.bind (fun _ => reads_decodeFr _ _) rest more
        · exact reads_reject _ rest more
      case h_5 => exact (reads_takeMem _ _ _).bind (fun _ => reads_decodeMemOp _ _) rest more

/-- The longest instruction has seven bytes (R71). -/
theorem reads_decodeRaw : Reads 7 decodeRaw := by
  intro bs more
  cases bs with
  | nil => exact .short _
  | cons b rest =>
    by_cases h : b = 0xF3#8 ∧ rest = []
    · obtain ⟨rfl, rfl⟩ := h
      exact .short _
    · exact (continues_decodeRaw_cons h more).mono (by simp)

theorem reads_decode (l : Launch) : Reads maxLength (decode l) :=
  reads_decodeRaw.bind (m := 0) fun _ => reads_ite (reads_ok _) (reads_reject _)

end Sys2Proof
end

section
/-! PROOFS. Fetching: what a fetch answers for the bytes at the pc (R57, R62, R211, R215), and the step that follows. -/

namespace Sys2Proof.Machine

/-! ### The bytes of a fetch -/

/-- The bytes `bs` are what a fetch finds from address `a` on when the next draw has number `d`
(R57, D17). -/
def BytesFrom (s : State) (a d : Nat) (bs : List Byte) : Prop :=
  ∀ k, (h : k < bs.length) →
    bs[k] = if s.isDevice (a + k) then Config.freeByte (d + fetchDraws s k a) else s.byteAt (a + k)

theorem bytesAt_iff (s : State) (a : Nat) (bs : List Byte) :
    BytesAt s a bs ↔ BytesFrom s a s.freeIndex bs := Iff.rfl

theorem BytesFrom.head {s : State} {a d : Nat} {b : Byte} {bs : List Byte} (h : BytesFrom s a d (b :: bs)) :
    b = if s.isDevice a then Config.freeByte d else s.byteAt a := h 0 (Nat.succ_pos _)

theorem BytesFrom.tail {s : State} {a d : Nat} {b : Byte} {bs : List Byte} (h : BytesFrom s a d (b :: bs)) :
    BytesFrom s (a + 1) (d + if s.isDevice a then 1 else 0) bs := by
  intro k hk
  have hb := h (k + 1) (Nat.succ_lt_succ hk)
  rwa [fetchDraws, ← Nat.add_assoc d, show a + (k + 1) = a + 1 + k by omega] at hb

theorem Fetchable.head_lt {s : State} {a n : Nat} (h : Fetchable s a (n + 1)) : a < Config.addressSpace := by
  have := h.1
  omega

theorem Fetchable.tail {s : State} {a n : Nat} (h : Fetchable s a (n + 1)) : Fetchable s (a + 1) n := by
  obtain ⟨hspace, hmem⟩ := h
  refine ⟨by omega, fun k hk => ?_⟩
  rw [show a + 1 + k = a + (k + 1) by omega]
  exact hmem (k + 1) (Nat.succ_lt_succ hk)

/-- A window goes on over a byte that is there. -/
theorem fetchWindow_succ {s : State} (n : Nat) {a : Nat} (d : Nat) (ha : a < Config.addressSpace)
    (hm : s.isDevice a = true ∨ s.isAdmitted a = true) :
    (fetchWindow s (n + 1) a d).1 = (if s.isDevice a then Config.freeByte d else s.byteAt a) ::
      (fetchWindow s n (a + 1) (d + if s.isDevice a then 1 else 0)).1 := by
  rw [fetchWindow, if_neg (by omega)]
  by_cases hd : s.isDevice a = true
  · simp [hd]
  · simp [hd, hm.resolve_left hd]

/-- A fetch window begins with the bytes that are there. -/
theorem fetchWindow_of_bytes {s : State} {n a d : Nat} {bs : List Byte} (hn : bs.length ≤ n)
    (hb : BytesFrom s a d bs) (hf : Fetchable s a bs.length) :
    ∃ more, (fetchWindow s n a d).1 = bs ++ more := by
  induction bs generalizing n a d with
  | nil => exact ⟨_, rfl⟩
  | cons b bs ih =>
    obtain ⟨n, rfl⟩ : ∃ m, n = m + 1 := Nat.exists_eq_add_one.mpr (by simp at hn; omega)
    obtain ⟨more, hmore⟩ := ih (Nat.le_of_succ_le_succ hn) hb.tail hf.tail
    refine ⟨more, ?_⟩
    rw [fetchWindow_succ n d hf.head_lt (hf.2 0 (Nat.succ_pos _)), ← hb.head, hmore, List.cons_append]

theorem hits_iff (w : Written) (a n : Nat) : w.hits a n = true ↔ ∃ k < n, a + k ∈ w := by
  simp only [Written.hits, List.any_eq_true, decide_eq_true_eq]
  constructor
  · rintro ⟨x, hx, hle, hlt⟩
    exact ⟨x - a, by omega, by rwa [Nat.add_sub_cancel' hle]⟩
  · rintro ⟨k, hk, hmem⟩
    exact ⟨a + k, hmem, by omega, by omega⟩

theorem Unwritten.hits_eq_false {s : State} {a n : Nat} (h : Unwritten s a n) :
    s.written.hits a n = false := by
  rw [Bool.eq_false_iff, Ne, hits_iff]
  rintro ⟨k, hk, hmem⟩
  exact h k hk hmem

/-- Bytes at the pc that are a whole instruction are fetched as that instruction, unless the program
wrote one of them. -/
theorem fetchInstr_of_ok {s : State} {i : Instr} {bs : List Byte} (hdec : decode s.launch bs = .ok i [])
    (hb : BytesAt s s.pc.toNat bs) (hf : Fetchable s s.pc.toNat bs.length) :
    fetchInstr s = if s.written.hits s.pc.toNat bs.length then .refused (.fetchWritten s.pc)
      else .next (i, s.setFreeIndex (s.freeIndex + fetchDraws s bs.length s.pc.toNat)) := by
  have hlen := ((reads_decode s.launch).append_of_ok hdec []).1
  obtain ⟨more, hmore⟩ := fetchWindow_of_bytes (by simpa using hlen) ((bytesAt_iff _ _ _).mp hb) hf
  have happ := ((reads_decode s.launch).append_of_ok hdec more).2
  simp [fetchInstr, hmore, happ]

/-- Bytes at the pc that decode to nothing are refused when the program wrote one of them, and are
undefined otherwise. -/
theorem fetchInstr_of_reject {s : State} {why : DecodeError} {bs : List Byte}
    (hdec : decode s.launch bs = .reject why []) (hb : BytesAt s s.pc.toNat bs)
    (hf : Fetchable s s.pc.toNat bs.length) :
    fetchInstr s = if s.written.hits s.pc.toNat bs.length then .refused (.fetchWritten s.pc)
      else .fault (.undefinedInstruction s.pc why bs) := by
  have hlen := ((reads_decode s.launch).append_of_reject hdec []).1
  obtain ⟨more, hmore⟩ := fetchWindow_of_bytes (by simpa using hlen) ((bytesAt_iff _ _ _).mp hb) hf
  have happ := ((reads_decode s.launch).append_of_reject hdec more).2
  simp [fetchInstr, hmore, happ]

/-! ### Steps -/

theorem step_of_running {s : State} (h : s.halted = false) :
    step s = andThen (fetchInstr s) fun p => exec p.1 p.2 := by
  rw [step, if_neg (by simp [h])]

/-- Settles O8: the fetch answers the decoded instruction, and without device bytes it draws nothing. -/
theorem stepRunsDecodedInstruction : Obligations.StepRunsDecodedInstruction := by
  intro s i bs hrun hdec hb hf hu
  have hstep : step s = exec i (s.setFreeIndex (s.freeIndex + fetchDraws s bs.length s.pc.toNat)) := by
    rw [step_of_running hrun, fetchInstr_of_ok hdec hb hf, hu.hits_eq_false]
    rfl
  refine ⟨hstep, fun hnodev => ?_⟩
  rw [hstep, fetchDraws_eq_zero hnodev]
  rfl

/-- Settles O9: a written byte among those the decoder took refuses the fetch, of an instruction and
of undefined bytes. -/
theorem fetchOfWrittenByteRefused : Obligations.FetchOfWrittenByteRefused := by
  intro s bs k hrun hdec hb hf hk hmem
  have hhit : s.written.hits s.pc.toNat bs.length = true := (hits_iff _ _ _).mpr ⟨k, hk, hmem⟩
  rw [step_of_running hrun]
  rcases hdec with ⟨i, hok⟩ | ⟨why, hreject⟩
  · rw [fetchInstr_of_ok hok hb hf, if_pos hhit, andThen_refused]
  · rw [fetchInstr_of_reject hreject hb hf, if_pos hhit, andThen_refused]

end Sys2Proof.Machine
end

section
/-! PROOFS. What the encoder writes is read back (30_encoding.md R94, R104), and the grades of R70 decide what decodes. -/

namespace Sys2Proof

/-! ### Conditions on operands that are met -/

@[simp] theorem needBW_size (z : BW) (rest : List Byte) (k : BW → Parsed Instr) :
    needBW z.size rest k = k z := by
  cases z <;> rfl

@[simp] theorem needSize_self (sz : Size) (rest : List Byte) (p : Parsed Instr) :
    needSize sz sz rest p = p := if_pos rfl

theorem needReg_of_ok {sz : Size} {r : RegOp} (h : r.ok sz = true) (rest : List Byte) (p : Parsed Instr) :
    needReg sz r rest p = p := if_pos h

theorem needMul_of_fine {fine : Bool} (h : fine = true) (rest : List Byte) (p : Parsed Instr) :
    needMul fine rest p = p := if_pos h

theorem takeModulo_le16 (mk : BitVec 16 → RegOp → Instr) {r : RegOp} (h : r.ok .word = true)
    (field : BitVec 16) (rest : List Byte) :
    takeModulo mk .word r (le16 field ++ rest) = .ok (mk field r) rest := by
  simp [takeModulo, needReg_of_ok h]

theorem takeBlock_deHl (deHl ixIy : BW → Instr) (z : BW) (rest : List Byte) :
    takeBlock deHl ixIy z.size (.ind 3#3) rest = .ok (deHl z) rest := by
  simp [takeBlock]

theorem takeBlock_ixIy (deHl ixIy : BW → Instr) (z : BW) (rest : List Byte) :
    takeBlock deHl ixIy z.size (.ind 5#3) rest = .ok (ixIy z) rest := by
  simp [takeBlock]

/-! ### Opcode bytes with a size field of their own -/

/-- The bits 7:3 of the first byte of LD R,# (row 13). -/
def immOpcode : Size → BitVec 5
  | .byte => 0b00100#5
  | .word => 0b00110#5
  | .long => 0b01000#5

theorem encode_ldCodeImm (sz : Size) (c : BitVec 3) (v : BitVec sz.bits) :
    encode (.ldCodeImm sz c v) = opByte (immOpcode sz) c :: encodeImm sz v := by
  cases sz <;> rfl

/-- The bits 7:3 of the opcode of LD (mem),R (row 16). -/
def storeOpcode : Size → BitVec 5
  | .byte => 0b01000#5
  | .word => 0b01010#5
  | .long => 0b01100#5

theorem encode_ldMemCode (sz : Size) (m : Mem) (c : BitVec 3) :
    encode (.ldMemCode sz m c) = memPrefix 3#2 m ++ [opByte (storeOpcode sz) c] := by
  cases sz <;> rfl

/-- The bits 7:3 of the opcode of LDA and LDAR (rows 21 and 22). -/
def addressOpcode : WL → BitVec 5
  | .word => 0b00100#5
  | .long => 0b00110#5

theorem encode_lda (w : WL) (c : BitVec 3) (m : Mem) :
    encode (.lda w c m) = memPrefix 3#2 m ++ [opByte (addressOpcode w) c] := by
  cases w <;> rfl

theorem encode_ldar (w : WL) (c : BitVec 3) (d : BitVec 16) :
    encode (.ldar w c d) = 0xF3#8 :: 0x13#8 :: (le16 d ++ [opByte (addressOpcode w) c]) := by
  cases w <;> rfl

/-! ### Instructions that begin with an operand -/

/-- The decoder reads `i` back, whatever follows. -/
def ReadBack (i : Instr) : Prop := ∀ rest, decodeRaw (encode i ++ rest) = .ok i rest

theorem readBack_of_regPrefix {i : Instr} {sz : Size} {r : RegOp} {bs : List Byte}
    (henc : encode i = regPrefix sz r ++ bs) (hop : ∀ rest, decodeFr sz r (bs ++ rest) = .ok i rest) :
    ReadBack i := fun rest => by
  rw [henc, List.append_assoc, decodeRaw_regPrefix, hop]

/-- After a source-memory operand (R92). -/
theorem readBack_of_source {i : Instr} {sz : Size} {m : Mem} {bs : List Byte} (hm : m.ok = true)
    (henc : encode i = memPrefix sz.code m ++ bs) (hop : ∀ rest, decodeFs sz m (bs ++ rest) = .ok i rest) :
    ReadBack i := fun rest => by
  rw [henc, List.append_assoc, decodeRaw_memPrefix _ m hm, decodeMemOp, sizeOfCode_code]
  exact hop rest

/-- After a destination-memory operand (R93). -/
theorem readBack_of_dest {i : Instr} {m : Mem} {bs : List Byte} (hm : m.ok = true)
    (henc : encode i = memPrefix 3#2 m ++ bs) (hop : ∀ rest, decodeFd m (bs ++ rest) = .ok i rest) :
    ReadBack i := fun rest => by
  rw [henc, List.append_assoc, decodeRaw_memPrefix _ m hm]
  exact hop rest

/-- After the source pointer of a block load (R87). -/
theorem readBack_of_block {i : Instr} {z : BW} {r : BitVec 3} {op : Byte}
    (henc : encode i = memPrefix z.size.code (.ind r) ++ [op])
    (hop : ∀ rest, decodeFs z.size (.ind r) (op :: rest) = .ok i rest) : ReadBack i :=
  readBack_of_source rfl henc hop

theorem readBack_jpMem (cc : Cond) {m : Mem} (hm : m.ok = true) : ReadBack (.jpMem cc m) :=
  readBack_of_dest hm rfl fun rest => by cases cc <;> rfl

theorem decodeFd_ldMemImm (z : BW) (m : Mem) (bs : List Byte) :
    decodeFd m ((0b000000#6 ++ z.code ++ 0#1) :: bs) =
      (takeImm z.size bs).bind fun v rest => .ok (.ldMemImm z m v) rest := by
  cases z <;> rfl

theorem decodeFd_ldMemAbs16 (z : BW) (m : Mem) (bs : List Byte) :
    decodeFd m ((0b000101#6 ++ z.code ++ 0#1) :: bs) =
      (take16 bs).bind fun a rest => .ok (.ldMemAbs16 z m a) rest := by
  cases z <;> rfl

theorem decodeFd_ldMemCode (sz : Size) (m : Mem) (c : BitVec 3) (rest : List Byte) :
    decodeFd m (opByte (storeOpcode sz) c :: rest) = .ok (.ldMemCode sz m c) rest := by
  cases sz <;> simp [decodeFd, storeOpcode]

theorem decodeFd_lda (w : WL) (m : Mem) (c : BitVec 3) (rest : List Byte) :
    decodeFd m (opByte (addressOpcode w) c :: rest) = .ok (.lda w c m) rest := by
  cases w <;> simp [decodeFd, addressOpcode]

/-! ### Instructions that begin with their opcode -/

/-- First bytes below 80H belong to R90. -/
theorem decodeRaw_of_lt {b : Byte} (hb : b < 0x80#8) (rest : List Byte) :
    decodeRaw (b :: rest) = decodeF0 b rest := by
  have h7 : b ≠ 0xF7#8 := by revert hb; revert b; decide
  have h3 : b ≠ 0xF3#8 := by revert hb; revert b; decide
  have htop : topBits b = 0#2 ∨ topBits b = 1#2 := by revert hb; revert b; decide
  rcases htop with htop | htop <;> simp [decodeRaw, h7, h3, htop]

theorem readBack_of_opcode {i : Instr} {b : Byte} {bs : List Byte} (hb : b < 0x80#8)
    (henc : encode i = b :: bs) (hop : ∀ rest, decodeF0 b (bs ++ rest) = .ok i rest) : ReadBack i :=
  fun rest => by rw [henc, List.cons_append, decodeRaw_of_lt hb, hop]

theorem readBack_ldCodeImm (sz : Size) (c : BitVec 3) (v : BitVec sz.bits) : ReadBack (.ldCodeImm sz c v) := by
  refine readBack_of_opcode ?low (encode_ldCodeImm sz c v) fun rest => ?_
  case low => revert c; cases sz <;> decide
  have hop (bs : List Byte) : decodeF0 (opByte (immOpcode sz) c) bs =
      (takeImm sz bs).bind fun v rest => .ok (.ldCodeImm sz c v) rest := by
    cases sz <;> simp [decodeF0, immOpcode, takeImm]
  rw [hop, takeImm_encodeImm, Parsed.bind_ok]

theorem readBack_ldAbs8Imm (z : BW) (a : BitVec 8) (v : BitVec z.size.bits) : ReadBack (.ldAbs8Imm z a v) := by
  refine readBack_of_opcode ?low rfl fun rest => ?_
  case low => cases z <;> decide
  have hop (bs : List Byte) : decodeF0 (0b000010#6 ++ z.code ++ 0#1) (a :: bs) =
      (takeImm z.size bs).bind fun v rest => .ok (.ldAbs8Imm z a v) rest := by
    cases z <;> rfl
  rw [List.cons_append, hop, takeImm_encodeImm, Parsed.bind_ok]

theorem readBack_jr (cc : Cond) (d : BitVec 8) : ReadBack (.jr cc d) :=
  fun rest => by cases cc <;> rfl

theorem readBack_jrl (cc : Cond) (d : BitVec 16) : ReadBack (.jrl cc d) := by
  refine readBack_of_opcode ?low rfl fun rest => ?_
  case low => cases cc <;> decide
  have hop (bs : List Byte) : decodeF0 (0x7#4 ++ cc.code) bs =
      (take16 bs).bind fun d rest => .ok (.jrl cc d) rest := by
    cases cc <;> rfl
  rw [hop, take16_le16, Parsed.bind_ok]

theorem readBack_ldf (num : BitVec 3) : ReadBack (.ldf num) :=
  readBack_of_opcode (by decide) rfl fun rest => by simp [decodeF0]

theorem readBack_ldar (w : WL) (c : BitVec 3) (d : BitVec 16) : ReadBack (.ldar w c d) := fun rest => by
  rw [encode_ldar]
  cases w <;> simp [decodeRaw, decodeLdar, addressOpcode]

/-! ### Every instruction -/

/-- One case for each row of R104. -/
theorem readBack_of_wf {i : Instr} (hwf : i.wf = true) : ReadBack i := by
  cases i with
  | halt => exact fun _ => rfl
  | incReg sz num r => exact readBack_of_regPrefix rfl fun _ => by simp [decodeFr, needReg_of_ok hwf]
  | incMem z num m => exact readBack_of_source hwf rfl fun _ => by simp [decodeFs]
  | incf => exact fun _ => rfl
  | jpAbs16 a => exact readBack_of_opcode (by decide) rfl fun _ => by simp [decodeF0]
  | jpAbs24 a => exact readBack_of_opcode (by decide) rfl fun _ => by simp [decodeF0]
  | jpMem cc m => exact readBack_jpMem cc hwf
  | jr cc d => exact readBack_jr cc d
  | jrl cc d => exact readBack_jrl cc d
  | ldCodeFromReg sz c r => exact readBack_of_regPrefix rfl fun _ => by simp [decodeFr, needReg_of_ok hwf]
  | ldRegFromCode sz r c => exact readBack_of_regPrefix rfl fun _ => by simp [decodeFr, needReg_of_ok hwf]
  | ldRegImm3 sz r v => exact readBack_of_regPrefix rfl fun _ => by simp [decodeFr, needReg_of_ok hwf]
  | ldCodeImm sz c v => exact readBack_ldCodeImm sz c v
  | ldRegImm sz r v => exact readBack_of_regPrefix rfl fun _ => by simp [decodeFr, needReg_of_ok hwf]
  | ldCodeMem sz c m => exact readBack_of_source hwf rfl fun _ => by simp [decodeFs]
  | ldMemCode sz m c => exact readBack_of_dest hwf (encode_ldMemCode sz m c) fun _ => decodeFd_ldMemCode sz m c _
  | ldAbs8Imm z a v => exact readBack_ldAbs8Imm z a v
  | ldMemImm z m v => exact readBack_of_dest hwf rfl fun _ => by simp [decodeFd_ldMemImm]
  | ldAbs16Mem z a m => exact readBack_of_source hwf rfl fun _ => by simp [decodeFs]
  | ldMemAbs16 z m a => exact readBack_of_dest hwf rfl fun _ => by simp [decodeFd_ldMemAbs16]
  | lda w c m => exact readBack_of_dest hwf (encode_lda w c m) fun _ => decodeFd_lda w m c _
  | ldar w c d => exact readBack_ldar w c d
  | ldcToCr sz cr r => exact readBack_of_regPrefix rfl fun _ => by simp [decodeFr, needReg_of_ok hwf]
  | ldcFromCr sz r cr => exact readBack_of_regPrefix rfl fun _ => by simp [decodeFr, needReg_of_ok hwf]
  | ldcfImmReg z b r => exact readBack_of_regPrefix rfl fun _ => by simp [decodeFr, needReg_of_ok hwf]
  | ldcfAReg z r => exact readBack_of_regPrefix rfl fun _ => by simp [decodeFr, needReg_of_ok hwf]
  | ldcfImmMem num m => exact readBack_of_dest hwf rfl fun _ => by simp [decodeFd]
  | ldcfAMem m => exact readBack_of_dest hwf rfl fun _ => by simp [decodeFd]
  | lddDeHl z => exact readBack_of_block rfl fun _ => by simp [decodeFs, takeBlock_deHl]
  | lddIxIy z => exact readBack_of_block rfl fun _ => by simp [decodeFs, takeBlock_ixIy]
  | lddrDeHl z => exact readBack_of_block rfl fun _ => by simp [decodeFs, takeBlock_deHl]
  | lddrIxIy z => exact readBack_of_block rfl fun _ => by simp [decodeFs, takeBlock_ixIy]
  | ldiDeHl z => exact readBack_of_block rfl fun _ => by simp [decodeFs, takeBlock_deHl]
  | ldiIxIy z => exact readBack_of_block rfl fun _ => by simp [decodeFs, takeBlock_ixIy]
  | ldirDeHl z => exact readBack_of_block rfl fun _ => by simp [decodeFs, takeBlock_deHl]
  | ldirIxIy z => exact readBack_of_block rfl fun _ => by simp [decodeFs, takeBlock_ixIy]
  | ldf num => exact readBack_ldf num
  | ldx a v => exact fun _ => rfl
  | link r d => exact readBack_of_regPrefix rfl fun _ => by simp [decodeFr, needReg_of_ok hwf]
  | mdec1 field r => exact readBack_of_regPrefix rfl fun _ => by simp [decodeFr, takeModulo_le16 _ hwf]
  | mdec2 field r => exact readBack_of_regPrefix rfl fun _ => by simp [decodeFr, takeModulo_le16 _ hwf]
  | mdec4 field r => exact readBack_of_regPrefix rfl fun _ => by simp [decodeFr, takeModulo_le16 _ hwf]
  | minc1 field r => exact readBack_of_regPrefix rfl fun _ => by simp [decodeFr, takeModulo_le16 _ hwf]
  | minc2 field r => exact readBack_of_regPrefix rfl fun _ => by simp [decodeFr, takeModulo_le16 _ hwf]
  | minc4 field r => exact readBack_of_regPrefix rfl fun _ => by simp [decodeFr, takeModulo_le16 _ hwf]
  | mirr r => exact readBack_of_regPrefix rfl fun _ => by simp [decodeFr, needReg_of_ok hwf]
  | mulReg z c r =>
    obtain ⟨hc, hr⟩ := Bool.and_eq_true_iff.mp hwf
    exact readBack_of_regPrefix rfl fun _ => by simp [decodeFr, needMul_of_fine hc, needReg_of_ok hr]
  | mulImm z r v =>
    exact readBack_of_regPrefix rfl fun _ => by simp [decodeFr, needMul_of_fine (fine := r.mulOk z) hwf]
  | mulMem z c m =>
    obtain ⟨hc, hm⟩ := Bool.and_eq_true_iff.mp hwf
    exact readBack_of_source hm rfl fun _ => by simp [decodeFs, needMul_of_fine hc]
  | mula r =>
    exact readBack_of_regPrefix rfl fun _ => by simp [decodeFr, needMul_of_fine (fine := r.mulOk .word) hwf]
  | mulsReg z c r =>
    obtain ⟨hc, hr⟩ := Bool.and_eq_true_iff.mp hwf
    exact readBack_of_regPrefix rfl fun _ => by simp [decodeFr, needMul_of_fine hc, needReg_of_ok hr]
  | mulsImm z r v =>
    exact readBack_of_regPrefix rfl fun _ => by simp [decodeFr, needMul_of_fine (fine := r.mulOk z) hwf]
  | mulsMem z c m =>
    obtain ⟨hc, hm⟩ := Bool.and_eq_true_iff.mp hwf
    exact readBack_of_source hm rfl fun _ => by simp [decodeFs, needMul_of_fine hc]
  | neg z r => exact readBack_of_regPrefix rfl fun _ => by simp [decodeFr, needReg_of_ok hwf]
  | nop => exact fun _ => rfl

/-! ### Grades -/

/-- The grade of a well-formed instruction decides whether its encoding decodes (R70). -/
theorem decode_encode (l : Launch) {i : Instr} (hwf : i.wf = true) (rest : List Byte) :
    decode l (encode i ++ rest) = if l.admits i.grade then .ok i rest else .reject .gradeRefused rest := by
  rw [decode, readBack_of_wf hwf rest, Parsed.bind_ok]

/-- Settles O1: the decoder before the grades reads every well-formed instruction back, and the launch
admits its grade. -/
theorem decodeEncodeRoundTrip : Obligations.DecodeEncodeRoundTrip :=
  fun l _ rest hwf hadm => (decode_encode l hwf rest).trans (if_pos hadm)

/-- Settles O6: a grade that the launch refuses is the reason of the rejection. -/
theorem gradesGateDecoding : Obligations.GradesGateDecoding := by
  refine ⟨fun l i rest hwf hadm => ?_, fun _ => ⟨rfl, rfl, rfl, rfl, rfl⟩, rfl, rfl⟩
  rw [decode_encode l hwf, hadm]
  rfl

end Sys2Proof
end

section
/-! PROOFS. The decoder as the encoder's inverse (30_encoding.md R71, R73, R94, R95): the bytes it takes are the encoding of
what it answers, and it asks for more bytes only when there are fewer than seven. -/

namespace Sys2Proof

/-! ### What reading may answer -/

/-- A reader's answer on `bs`: a value, made of at most `n` bytes that `P` relates to it; a rejection;
or, of fewer than `n` bytes, that they end too soon. -/
inductive Yields {α : Type} (n : Nat) (P : List Byte → α → Prop) (bs : List Byte) : Parsed α → Prop where
  | ok (used rest : List Byte) (a : α) : bs = used ++ rest → used.length ≤ n → P used a →
      Yields n P bs (.ok a rest)
  | short : bs.length < n → Yields n P bs .short
  | reject (why : DecodeError) (rest : List Byte) : Yields n P bs (.reject why rest)

/-- `f` yields what `P` allows, whatever bytes it is given. -/
def Parses {α : Type} (n : Nat) (P : List Byte → α → Prop) (f : List Byte → Parsed α) : Prop :=
  ∀ bs, Yields n P bs (f bs)

section
variable {α β : Type} {n m : Nat} {P : List Byte → α → Prop} {Q : List Byte → β → Prop}

theorem Yields.mono {bs : List Byte} {p : Parsed α} {P' : List Byte → α → Prop} (h : Yields n P bs p)
    (hnm : n ≤ m) (hP : ∀ used a, P used a → P' used a) : Yields m P' bs p := by
  cases h with
  | ok used rest a hbs hlen ha => exact .ok used rest a hbs (by omega) (hP used a ha)
  | short hlen => exact .short (by omega)
  | reject why rest => exact .reject why rest

theorem Parses.mono {f : List Byte → Parsed α} {P' : List Byte → α → Prop} (h : Parses n P f)
    (hnm : n ≤ m) (hP : ∀ used a, P used a → P' used a) : Parses m P' f :=
  fun bs => (h bs).mono hnm hP

/-- One byte more in front. -/
theorem Yields.cons {b : Byte} {bs : List Byte} {p : Parsed α}
    (h : Yields n (fun used a => P (b :: used) a) bs p) : Yields (n + 1) P (b :: bs) p := by
  cases h with
  | ok used rest a hbs hlen ha => exact .ok (b :: used) rest a (by rw [hbs]; rfl) (by simpa using hlen) ha
  | short hlen => exact .short (by simpa using hlen)
  | reject why rest => exact .reject why rest

theorem Parses.bind {f : List Byte → Parsed α} {g : α → List Byte → Parsed β} (hf : Parses n P f)
    (hg : ∀ a used, P used a → Parses m (fun used' b => Q (used ++ used') b) (g a)) :
    Parses (m + n) Q (fun bs => (f bs).bind g) := by
  intro bs
  have h := hf bs
  simp only
  generalize f bs = p at h
  cases h with
  | short hlen => exact .short (by omega)
  | reject why rest => exact .reject why rest
  | ok used rest a hbs hlen ha =>
    subst hbs
    have hg' := hg a used ha rest
    simp only [Parsed.bind_ok]
    generalize g a rest = q at hg'
    cases hg' with
    | short hlen' => exact .short (by simp; omega)
    | reject why rest' => exact .reject why rest'
    | ok used' rest' b hrest hlen' hb =>
      exact .ok (used ++ used') rest' b (by rw [hrest, List.append_assoc]) (by simp; omega) hb

theorem parses_ok {a : α} (h : P [] a) : Parses n P (fun bs => .ok a bs) :=
  fun bs => .ok [] bs a rfl (Nat.zero_le n) h

theorem parses_reject (why : DecodeError) : Parses n P (fun bs => .reject why bs) :=
  fun bs => .reject why bs

/-- A first part whose value is the last that is read. -/
theorem Parses.bind_ok {f : List Byte → Parsed α} {mk : α → β} (hf : Parses n P f)
    (hmk : ∀ a used, P used a → Q used (mk a)) :
    Parses (m + n) Q (fun bs => (f bs).bind fun a rest => .ok (mk a) rest) :=
  hf.bind fun a used ha => parses_ok (by simpa using hmk a used ha)

theorem parses_ite {c : Prop} [Decidable c] {f g : List Byte → Parsed α} (hf : c → Parses n P f)
    (hg : ¬ c → Parses n P g) : Parses n P (fun bs => if c then f bs else g bs) := by
  split
  · exact hf ‹_›
  · exact hg ‹_›

/-! ### Immediates -/

theorem parses_take8 : Parses 1 (fun used v => used = [v]) take8
  | [] => .short (by simp)
  | b :: rest => .ok [b] rest b rfl (by simp) rfl

/-- The lowest byte of a number is the last one appended. -/
theorem extract_byte_low {w : Nat} (x : BitVec w) (b : Byte) : (x ++ b).extractLsb' 0 8 = b :=
  BitVec.extractLsb'_append_eq_right

/-- The bytes above it are those of the rest. -/
theorem extract_byte_high {w : Nat} (x : BitVec w) (b : Byte) (k : Nat) :
    (x ++ b).extractLsb' (k + 8) 8 = x.extractLsb' k 8 := by
  rw [BitVec.extractLsb'_append_eq_of_le (by omega), Nat.add_sub_cancel]

theorem le16_append (lo hi : Byte) : le16 (hi ++ lo) = [lo, hi] := by
  simp only [le16, extract_byte_low, extract_byte_high _ _ 0, BitVec.extractLsb'_eq_self]

theorem le24_append (lo mid hi : Byte) : le24 (hi ++ mid ++ lo) = [lo, mid, hi] := by
  simp only [le24, extract_byte_low, extract_byte_high _ _ 0, extract_byte_high _ _ 8,
    BitVec.extractLsb'_eq_self]

theorem le32_append (b₀ b₁ b₂ b₃ : Byte) : le32 (b₃ ++ b₂ ++ b₁ ++ b₀) = [b₀, b₁, b₂, b₃] := by
  simp only [le32, extract_byte_low, extract_byte_high _ _ 0, extract_byte_high _ _ 8,
    extract_byte_high _ _ 16, BitVec.extractLsb'_eq_self]

theorem parses_take16 : Parses 2 (fun used v => used = le16 v) take16
  | [] => .short (by simp)
  | [_] => .short (by simp)
  | lo :: hi :: rest => .ok [lo, hi] rest (hi ++ lo) rfl (by simp) (le16_append lo hi).symm

theorem parses_take24 : Parses 3 (fun used v => used = le24 v) take24
  | [] => .short (by simp)
  | [_] => .short (by simp)
  | [_, _] => .short (by simp)
  | lo :: mid :: hi :: rest =>
    .ok [lo, mid, hi] rest (hi ++ mid ++ lo) rfl (by simp) (le24_append lo mid hi).symm

theorem parses_take32 : Parses 4 (fun used v => used = le32 v) take32
  | [] => .short (by simp)
  | [_] => .short (by simp)
  | [_, _] => .short (by simp)
  | [_, _, _] => .short (by simp)
  | b₀ :: b₁ :: b₂ :: b₃ :: rest =>
    .ok [b₀, b₁, b₂, b₃] rest (b₃ ++ b₂ ++ b₁ ++ b₀) rfl (by simp) (le32_append b₀ b₁ b₂ b₃).symm

theorem parses_takeImm (sz : Size) : Parses 4 (fun used v => used = encodeImm sz v) (takeImm sz) := by
  cases sz with
  | byte => exact parses_take8.mono (by omega) fun _ _ h => h
  | word => exact parses_take16.mono (by omega) fun _ _ h => h
  | long => exact parses_take32

theorem parses_take8_then {g : Byte → List Byte → Parsed β}
    (hg : ∀ v, Parses n (fun used b => Q (v :: used) b) (g v)) :
    Parses (n + 1) Q (fun bs => (take8 bs).bind g) :=
  parses_take8.bind fun v _ hused => hused ▸ hg v

theorem parses_take16_then {g : BitVec 16 → List Byte → Parsed β}
    (hg : ∀ v, Parses n (fun used b => Q (le16 v ++ used) b) (g v)) :
    Parses (n + 2) Q (fun bs => (take16 bs).bind g) :=
  parses_take16.bind fun v _ hused => hused ▸ hg v

theorem parses_take8_ok {mk : Byte → β} (h : ∀ v, Q [v] (mk v)) :
    Parses (n + 1) Q (fun bs => (take8 bs).bind fun v rest => .ok (mk v) rest) :=
  parses_take8.bind_ok fun v _ hused => hused ▸ h v

theorem parses_take16_ok {mk : BitVec 16 → β} (h : ∀ v, Q (le16 v) (mk v)) :
    Parses (n + 2) Q (fun bs => (take16 bs).bind fun v rest => .ok (mk v) rest) :=
  parses_take16.bind_ok fun v _ hused => hused ▸ h v

theorem parses_take24_ok {mk : BitVec 24 → β} (h : ∀ v, Q (le24 v) (mk v)) :
    Parses (n + 3) Q (fun bs => (take24 bs).bind fun v rest => .ok (mk v) rest) :=
  parses_take24.bind_ok fun v _ hused => hused ▸ h v

theorem parses_takeImm_ok (sz : Size) {mk : BitVec sz.bits → β} (h : ∀ v, Q (encodeImm sz v) (mk v)) :
    Parses (n + 4) Q (fun bs => (takeImm sz bs).bind fun v rest => .ok (mk v) rest) :=
  (parses_takeImm sz).bind_ok fun v _ hused => hused ▸ h v

/-- A byte read as its bits 7:3 and 2:0. -/
theorem parses_opcode {g : Byte → List Byte → Parsed β}
    (hg : ∀ h l, Parses n (fun used b => Q (opByte h l :: used) b) (g (opByte h l))) :
    Parses (n + 1) Q (fun bs => (take8 bs).bind g) :=
  parses_take8_then fun b => by
    rw [← opByte_hi5_lo3 b]
    exact hg _ _

end

/-! ### Conditions on operands -/

section
variable {n : Nat} {P : List Byte → Instr → Prop}

theorem parses_needBW {sz : Size} {k : BW → List Byte → Parsed Instr}
    (hk : ∀ z : BW, sz = z.size → Parses n P (k z)) :
    Parses n P (fun rest => needBW sz rest fun z => k z rest) := by
  cases sz with
  | byte => exact hk .byte rfl
  | word => exact hk .word rfl
  | long => exact parses_reject _

theorem parses_needSize {want sz : Size} {p : List Byte → Parsed Instr} (hp : sz = want → Parses n P p) :
    Parses n P (fun rest => needSize want sz rest (p rest)) :=
  parses_ite hp fun _ => parses_reject _

theorem parses_needReg {sz : Size} {r : RegOp} {p : List Byte → Parsed Instr}
    (hp : r.ok sz = true → Parses n P p) : Parses n P (fun rest => needReg sz r rest (p rest)) :=
  parses_ite hp fun _ => parses_reject _

theorem parses_needMul {fine : Bool} {p : List Byte → Parsed Instr} (hp : fine = true → Parses n P p) :
    Parses n P (fun rest => needMul fine rest (p rest)) :=
  parses_ite hp fun _ => parses_reject _

end

/-! ### After a register operand -/

/-- `i` is well formed and `bs` is its encoding. -/
def Encodes (bs : List Byte) (i : Instr) : Prop := i.wf = true ∧ encode i = bs

theorem parses_takeModulo {mk : BitVec 16 → RegOp → Instr} {op : Byte} {sz : Size} {r : RegOp}
    (hmk : r.ok .word = true → ∀ field, Encodes (regPrefix .word r ++ op :: le16 field) (mk field r)) :
    Parses 4 (fun used i => Encodes (regPrefix sz r ++ op :: used) i) (takeModulo mk sz r) :=
  parses_needSize fun hsz => parses_needReg fun hr => parses_take16_ok fun field => hsz ▸ hmk hr field

/-- The rows of R91. -/
theorem parses_decodeFr (sz : Size) (r : RegOp) :
    Parses 5 (fun used i => Encodes (regPrefix sz r ++ used) i) (decodeFr sz r) := by
  refine parses_opcode fun h l rest => ?_
  simp only [hi5_opByte, lo3_opByte]
  split
  case h_1 => exact parses_needReg (fun hr => parses_takeImm_ok sz fun v => ⟨hr, rfl⟩) rest
  case h_2 | h_9 => exact parses_needBW (fun z hz => parses_needReg fun hr => parses_ok ⟨hr, hz ▸ rfl⟩) rest
  case h_3 | h_4 =>
    exact parses_needBW
      (fun z hz => parses_needMul fun hr => parses_takeImm_ok z.size fun v => ⟨hr, hz.symm ▸ rfl⟩) rest
  case h_5 =>
    exact parses_needSize
      (fun hsz => parses_needReg fun hr => parses_take16_ok fun d => ⟨hr, hsz ▸ rfl⟩) rest
  case h_6 =>
    exact parses_needSize (fun hsz => parses_needReg fun hr => parses_ok ⟨hr, hsz ▸ rfl⟩) rest
  case h_7 =>
    exact parses_needSize (fun hsz => parses_needMul fun hr => parses_ok ⟨hr, hsz ▸ rfl⟩) rest
  case h_8 =>
    exact parses_needBW
      (fun z hz => parses_needReg fun hr => parses_take8_ok fun b => ⟨hr, hz ▸ rfl⟩) rest
  case h_10 | h_11 => exact parses_needReg (fun hr => parses_take8_ok fun cr => ⟨hr, rfl⟩) rest
  case h_12 | h_13 | h_14 | h_15 | h_16 | h_17 =>
    refine parses_takeModulo (fun hr field => ?_) rest
    exact ⟨hr, rfl⟩
  case h_18 | h_19 =>
    exact parses_needBW
      (fun z hz => parses_needMul fun hc => parses_needReg fun hr =>
        parses_ok ⟨Bool.and_eq_true_iff.mpr ⟨hc, hr⟩, hz ▸ rfl⟩) rest
  case h_20 | h_21 | h_22 | h_23 => exact parses_needReg (fun hr => parses_ok ⟨hr, rfl⟩) rest
  case h_24 => exact parses_reject _ rest

/-! ### After a memory operand -/

/-- The source pointer of a block load says which pair of pointers it is (R87). -/
theorem parses_takeBlock {deHl ixIy : BW → Instr} {op : Byte} {sz : Size} {m : Mem}
    (hde : ∀ z, Encodes (memPrefix z.size.code (.ind 3#3) ++ [op]) (deHl z))
    (hix : ∀ z, Encodes (memPrefix z.size.code (.ind 5#3) ++ [op]) (ixIy z)) :
    Parses 2 (fun used i => Encodes (memPrefix sz.code m ++ op :: used) i) (takeBlock deHl ixIy sz m) := by
  intro rest
  unfold takeBlock
  split
  · exact parses_needBW (fun z hz => parses_ok (hz ▸ hde z)) rest
  · exact parses_needBW (fun z hz => parses_ok (hz ▸ hix z)) rest
  · exact parses_reject _ rest

/-- The rows of R92. -/
theorem parses_decodeFs (sz : Size) {m : Mem} (hm : m.ok = true) :
    Parses 3 (fun used i => Encodes (memPrefix sz.code m ++ used) i) (decodeFs sz m) := by
  refine parses_opcode fun h l rest => ?_
  simp only [hi5_opByte, lo3_opByte]
  split
  case h_1 | h_2 | h_3 | h_4 => exact parses_takeBlock (fun _ => ⟨rfl, rfl⟩) (fun _ => ⟨rfl, rfl⟩) rest
  case h_5 => exact parses_needBW (fun z hz => parses_take16_ok fun a => ⟨hm, hz ▸ rfl⟩) rest
  case h_6 => exact parses_ok ⟨hm, rfl⟩ rest
  case h_7 | h_8 =>
    exact parses_needBW
      (fun z hz => parses_needMul fun hc => parses_ok ⟨Bool.and_eq_true_iff.mpr ⟨hc, hm⟩, hz ▸ rfl⟩) rest
  case h_9 => exact parses_needBW (fun z hz => parses_ok ⟨hm, hz ▸ rfl⟩) rest
  case h_10 => exact parses_reject _ rest

/-- A condition field of which the decoder sees the top bit and the low three apart. -/
theorem append_code_condOfCode (top : BitVec 4) (t : BitVec 1) (l : BitVec 3) :
    top ++ (condOfCode (t ++ l)).code = opByte (top ++ t) l := by
  rw [code_condOfCode]
  revert top t l
  decide

/-- The rows of R93. -/
theorem parses_decodeFd {m : Mem} (hm : m.ok = true) :
    Parses 3 (fun used i => Encodes (memPrefix 3#2 m ++ used) i) (decodeFd m) := by
  refine parses_opcode fun h l rest => ?_
  simp only [hi5_opByte, lo3_opByte]
  split
  case h_1 => exact parses_take8_ok (fun v => ⟨hm, rfl⟩) rest
  case h_2 | h_3 | h_4 => exact parses_take16_ok (fun v => ⟨hm, rfl⟩) rest
  case h_5 | h_6 | h_7 | h_8 | h_9 | h_10 | h_11 => exact parses_ok ⟨hm, rfl⟩ rest
  case h_12 | h_13 => exact parses_ok ⟨hm, by rw [encode, append_code_condOfCode]; rfl⟩ rest
  case h_14 => exact parses_reject _ rest

theorem code_of_sizeOfCode {c : BitVec 2} {sz : Size} (h : sizeOfCode c = some sz) : sz.code = c := by
  have key : ∀ c : BitVec 2, (sizeOfCode c).all (fun sz => sz.code == c) = true := by decide
  have := key c
  simpa [h] using this

theorem sizeOfCode_eq_none {c : BitVec 2} (h : sizeOfCode c = none) : c = 3#2 := by
  revert h; revert c; decide

theorem parses_decodeMemOp (ss : BitVec 2) {m : Mem} (hm : m.ok = true) :
    Parses 3 (fun used i => Encodes (memPrefix ss m ++ used) i) (decodeMemOp ss m) := by
  intro rest
  unfold decodeMemOp
  split
  · rename_i sz hsz
    exact code_of_sizeOfCode hsz ▸ parses_decodeFs sz hm rest
  · rename_i hss
    exact sizeOfCode_eq_none hss ▸ parses_decodeFd hm rest

/-! ### Operands -/

theorem parses_takeExtReg : Parses 1 (fun used e => used = [code8 e.sel e.part]) takeExtReg := by
  refine parses_take8_then fun b rest => ?_
  split
  · rename_i sel hsel
    exact parses_ok (by rw [code8_fields hsel]) rest
  · exact parses_reject _ rest

theorem parses_takeSel : Parses 1 (fun used sel => used = [code8 sel 0#2]) takeSel := by
  refine parses_takeExtReg.bind (m := 0) fun e used hused =>
    parses_ite (fun hfits => ?_) fun _ => parses_reject _
  have hpart : e.part = 0#2 := beq_iff_eq.mp hfits
  exact parses_ok (by rw [hused, hpart]; rfl)

/-- `used` are the extension bytes of `m` behind a first byte with these fields (R84, R85). -/
def ModeBytes (top : BitVec 2) (b3 : BitVec 1) (low : BitVec 3) (used : List Byte) (m : Mem) : Prop :=
  m.ok = true ∧ ∀ ss, memPrefix ss m = firstByte top ss b3 low :: used

theorem parses_takeMode3 : Parses 3 (ModeBytes 3#2 0#1 3#3) takeMode3 := by
  refine parses_take8_then fun b =>
    parses_ite (fun hb => ?idx8) fun _ => parses_ite (fun hb => ?idx16) fun _ => ?other
  case idx8 =>
    refine parses_takeSel.bind (m := 1) fun base used hbase =>
      parses_takeExtReg.bind_ok (m := 0) fun index used' hindex => ?_
    subst hb hbase hindex
    exact ⟨rfl, fun _ => rfl⟩
  case idx16 =>
    refine parses_takeSel.bind (m := 1) fun base used hbase =>
      parses_takeExtReg.bind (m := 0) fun index used' hindex =>
        parses_ite (fun hfits => parses_ok ?_) fun _ => parses_reject _
    subst hb hbase hindex
    exact ⟨hfits, fun _ => rfl⟩
  case other =>
    intro rest
    split
    · rename_i sel hsel hlow
      exact parses_ok ⟨rfl, fun _ => by rw [← code8_fields hsel, hlow]; rfl⟩ rest
    · rename_i sel hsel hlow
      exact parses_take16_ok (fun d => ⟨rfl, fun _ => by rw [← code8_fields hsel, hlow]; rfl⟩) rest
    · exact parses_reject _ rest

theorem code_of_stepOfCode {c : BitVec 2} {step : AutoStep} (h : stepOfCode c = some step) : step.code = c := by
  have key : ∀ c : BitVec 2, (stepOfCode c).all (fun step => step.code == c) = true := by decide
  have := key c
  simpa [h] using this

theorem parses_takeAuto {mk : R32Sel → AutoStep → Mem} {low : BitVec 3}
    (hmk : ∀ r step, ModeBytes 3#2 0#1 low [code8 r step.code] (mk r step)) :
    Parses 1 (ModeBytes 3#2 0#1 low) (takeAuto mk) := by
  refine parses_take8_then fun b rest => ?_
  split
  · rename_i sel step hsel hstep
    exact parses_ok (by rw [← code8_fields hsel, ← code_of_stepOfCode hstep]; exact hmk sel step) rest
  · exact parses_reject _ rest

/-- The eleven modes of R85. -/
theorem parses_takeMem (top : BitVec 2) (b3 : BitVec 1) (low : BitVec 3) :
    Parses 3 (ModeBytes top b3 low) (takeMem top b3 low) := by
  intro bs
  unfold takeMem
  split
  case h_1 => exact parses_ok ⟨rfl, fun _ => rfl⟩ bs
  case h_2 =>
    rename_i hb3
    obtain rfl := (BitVec.eq_zero_or_eq_one _).resolve_left hb3
    exact parses_take8_ok (fun d => ⟨rfl, fun _ => rfl⟩) bs
  case h_3 => exact parses_take8_ok (fun a => ⟨rfl, fun _ => rfl⟩) bs
  case h_4 => exact parses_take16_ok (fun a => ⟨rfl, fun _ => rfl⟩) bs
  case h_5 => exact parses_take24_ok (fun a => ⟨rfl, fun _ => rfl⟩) bs
  case h_6 => exact parses_takeMode3 bs
  case h_7 | h_8 =>
    exact (parses_takeAuto fun r step => ⟨rfl, fun _ => rfl⟩).mono (by omega) (fun _ _ h => h) bs
  case h_9 => exact parses_reject _ bs

/-! ### First bytes -/

/-- The rows of R90. -/
theorem parses_decodeF0 (b : Byte) : Parses 4 (fun used i => Encodes (b :: used) i) (decodeF0 b) := by
  rw [← opByte_hi5_lo3 b]
  generalize hi5 b = h, lo3 b = l
  intro rest
  simp only [decodeF0, hi5_opByte, lo3_opByte]
  split
  case h_1 | h_2 | h_5 => exact parses_ok ⟨rfl, rfl⟩ rest
  case h_3 => exact parses_take8_then (fun a => parses_take8_ok fun v => ⟨rfl, rfl⟩) rest
  case h_4 => exact parses_take8_then (fun a => parses_take16_ok fun v => ⟨rfl, rfl⟩) rest
  case h_6 =>
    refine parses_take8_then (fun b => parses_ite (fun hb => parses_ok ⟨rfl, ?_⟩) fun _ => parses_reject _) rest
    rw [← opByte_hi5_lo3 b, hb, lo3_opByte]
    rfl
  case h_7 => exact parses_take16_ok (fun a => ⟨rfl, rfl⟩) rest
  case h_8 => exact parses_take24_ok (fun a => ⟨rfl, rfl⟩) rest
  case h_9 => exact parses_take8_ok (fun v => ⟨rfl, rfl⟩) rest
  case h_10 => exact parses_take16_ok (fun v => ⟨rfl, rfl⟩) rest
  case h_11 => exact parses_take32.bind_ok (m := 0) (fun v used hv => ⟨rfl, by rw [hv]; rfl⟩) rest
  case h_12 | h_13 => exact parses_take8_ok (fun d => ⟨rfl, by rw [encode, append_code_condOfCode]; rfl⟩) rest
  case h_14 | h_15 => exact parses_take16_ok (fun d => ⟨rfl, by rw [encode, append_code_condOfCode]; rfl⟩) rest
  case h_16 => exact parses_reject _ rest

theorem parses_decodeLdar : Parses 3 (fun used i => Encodes (0xF3#8 :: 0x13#8 :: used) i) decodeLdar := by
  refine parses_take16_then fun d => parses_opcode fun h l rest => ?_
  simp only [hi5_opByte, lo3_opByte]
  split
  · exact parses_ok ⟨rfl, rfl⟩ rest
  · exact parses_ok ⟨rfl, rfl⟩ rest
  · exact parses_reject _ rest

/-- The bytes `bs` are the encoding of a well-formed `i`, or those of LDX with any fillers (R95). -/
def DecodesTo (bs : List Byte) (i : Instr) : Prop :=
  Encodes bs i ∨ ∃ a v x y z, i = .ldx a v ∧ bs = [0xF7#8, x, a, y, v, z]

theorem parses_decodeLdx : Parses 5 (fun used i => DecodesTo (0xF7#8 :: used) i) decodeLdx
  | [] => .short (by simp)
  | [_] => .short (by simp)
  | [_, _] => .short (by simp)
  | [_, _, _] => .short (by simp)
  | [_, _, _, _] => .short (by simp)
  | x :: a :: y :: v :: z :: rest =>
    .ok [x, a, y, v, z] rest (Instr.ldx a v) rfl (by simp) (Or.inr ⟨a, v, x, y, z, rfl, rfl⟩)

/-- What follows a first byte other than F7H, by the fields of that byte (R71, R94). -/
theorem yields_decodeRaw_cons (b : Byte) (rest : List Byte) :
    Yields 6 (fun used i => DecodesTo (b :: used) i) rest (decodeRaw (b :: rest)) := by
  rw [decodeRaw]
  split
  · rename_i hb
    exact hb ▸ (parses_decodeLdx rest).mono (by omega) fun _ _ h => h
  · split
    · rename_i hldar
      obtain ⟨rfl, hhead⟩ := hldar
      obtain ⟨tail, rfl⟩ := List.head?_eq_some_iff.mp hhead
      exact ((parses_decodeLdar tail).mono (Nat.le_add_right 3 2) fun _ _ h => .inl h).cons
    · rw [← firstByte_fields b]
      generalize topBits b = t, sizeBits b = ss, bit3 b = b3, lo3 b = l
      simp only [topBits_firstByte, sizeBits_firstByte, bit3_firstByte, lo3_firstByte]
      split
      case h_1 | h_2 => exact (parses_decodeF0 _ rest).mono (by omega) fun _ _ h => .inl h
      case h_3 =>
        split
        · rename_i sz hsz
          rw [← code_of_sizeOfCode hsz]
          exact (parses_decodeFr sz _ rest).mono (by omega) fun _ _ h => .inl h
        · exact parses_reject _ rest
      case h_4 =>
        split
        · rename_i sz hsz
          rw [← code_of_sizeOfCode hsz]
          refine parses_takeExtReg.bind (m := 5) (fun e used hused => ?_) rest
          exact (parses_decodeFr sz (.ext e)).mono le_rfl fun _ _ h => .inl (hused ▸ h)
        · exact parses_reject _ rest
      case h_5 =>
        refine (parses_takeMem _ _ _).bind (m := 3) (fun m used hmode => ?_) rest
        obtain ⟨hm, hbytes⟩ := hmode
        refine (parses_decodeMemOp ss hm).mono le_rfl fun used' _ h => .inl ?_
        rwa [← List.cons_append, ← hbytes ss]

/-! ### The decoder -/

theorem parses_decodeRaw : Parses 7 DecodesTo decodeRaw
  | [] => .short (by simp)
  | b :: rest => (yields_decodeRaw_cons b rest).cons

theorem parses_decode (l : Launch) :
    Parses 7 (fun bs i => DecodesTo bs i ∧ l.admits i.grade = true) (decode l) :=
  parses_decodeRaw.bind (m := 0) fun i used hi =>
    parses_ite (fun hadm => parses_ok ⟨by rwa [List.append_nil], hadm⟩) fun _ => parses_reject _

/-- The bytes that a decoded instruction took. -/
theorem decode_eq_ok {l : Launch} {bs rest : List Byte} {i : Instr} (h : decode l bs = .ok i rest) :
    ∃ used, bs = used ++ rest ∧ used.length ≤ 7 ∧ DecodesTo used i ∧ l.admits i.grade = true := by
  have hy := parses_decode l bs
  rw [h] at hy
  cases hy with
  | ok used rest i hbs hlen hi => exact ⟨used, hbs, hlen, hi⟩

/-- Settles O2: the bytes taken are the encoding, or those of an LDX with other fillers. -/
theorem decodedBytesAreTheEncoding : Obligations.DecodedBytesAreTheEncoding := by
  intro l bs i rest h
  obtain ⟨used, rfl, -, ⟨-, rfl⟩ | ⟨a, v, x, y, z, rfl, rfl⟩, -⟩ := decode_eq_ok h
  · exact .inl rfl
  · exact .inr ⟨a, v, x, y, z, rfl, rfl⟩

theorem DecodesTo.wf {bs : List Byte} {i : Instr} (h : DecodesTo bs i) : i.wf = true := by
  obtain ⟨hwf, -⟩ | ⟨a, v, x, y, z, rfl, -⟩ := h
  · exact hwf
  · rfl

/-- Settles O3: every opcode's checks make its instruction well formed, and the grade is looked at last. -/
theorem decodedIsWellFormedAndAdmitted : Obligations.DecodedIsWellFormedAndAdmitted := by
  intro l bs i rest h
  obtain ⟨used, -, -, hi, hadm⟩ := decode_eq_ok h
  exact ⟨hi.wf, hadm⟩

/-! ### Length -/

/-- The encoder writes as many bytes as R73 says, for each row. -/
theorem encode_length (i : Instr) : (encode i).length = i.len := by
  cases i with
  | halt => exact Laws.EncodeLength.halt
  | incReg sz num r => exact Laws.EncodeLength.incReg sz num r
  | incMem z num m => exact Laws.EncodeLength.incMem z num m
  | incf => exact Laws.EncodeLength.incf
  | jpAbs16 a => exact Laws.EncodeLength.jpAbs16 a
  | jpAbs24 a => exact Laws.EncodeLength.jpAbs24 a
  | jpMem cc m => exact Laws.EncodeLength.jpMem cc m
  | jr cc d => exact Laws.EncodeLength.jr cc d
  | jrl cc d => exact Laws.EncodeLength.jrl cc d
  | ldCodeFromReg sz c r => exact Laws.EncodeLength.ldCodeFromReg sz c r
  | ldRegFromCode sz r c => exact Laws.EncodeLength.ldRegFromCode sz r c
  | ldRegImm3 sz r v => exact Laws.EncodeLength.ldRegImm3 sz r v
  | ldCodeImm sz c v => exact Laws.EncodeLength.ldCodeImm sz c v
  | ldRegImm sz r v => exact Laws.EncodeLength.ldRegImm sz r v
  | ldCodeMem sz c m => exact Laws.EncodeLength.ldCodeMem sz c m
  | ldMemCode sz m c => exact Laws.EncodeLength.ldMemCode sz m c
  | ldAbs8Imm z a v => exact Laws.EncodeLength.ldAbs8Imm z a v
  | ldMemImm z m v => exact Laws.EncodeLength.ldMemImm z m v
  | ldAbs16Mem z a m => exact Laws.EncodeLength.ldAbs16Mem z a m
  | ldMemAbs16 z m a => exact Laws.EncodeLength.ldMemAbs16 z m a
  | lda w c m => exact Laws.EncodeLength.lda w c m
  | ldar w c d => exact Laws.EncodeLength.ldar w c d
  | ldcToCr sz cr r => exact Laws.EncodeLength.ldcToCr sz cr r
  | ldcFromCr sz r cr => exact Laws.EncodeLength.ldcFromCr sz r cr
  | ldcfImmReg z b r => exact Laws.EncodeLength.ldcfImmReg z b r
  | ldcfAReg z r => exact Laws.EncodeLength.ldcfAReg z r
  | ldcfImmMem num m => exact Laws.EncodeLength.ldcfImmMem num m
  | ldcfAMem m => exact Laws.EncodeLength.ldcfAMem m
  | lddDeHl z => exact Laws.EncodeLength.lddDeHl z
  | lddIxIy z => exact Laws.EncodeLength.lddIxIy z
  | lddrDeHl z => exact Laws.EncodeLength.lddrDeHl z
  | lddrIxIy z => exact Laws.EncodeLength.lddrIxIy z
  | ldiDeHl z => exact Laws.EncodeLength.ldiDeHl z
  | ldiIxIy z => exact Laws.EncodeLength.ldiIxIy z
  | ldirDeHl z => exact Laws.EncodeLength.ldirDeHl z
  | ldirIxIy z => exact Laws.EncodeLength.ldirIxIy z
  | ldf num => exact Laws.EncodeLength.ldf num
  | ldx a v => exact Laws.EncodeLength.ldx a v
  | link r d => exact Laws.EncodeLength.link r d
  | mdec1 field r => exact Laws.EncodeLength.mdec1 field r
  | mdec2 field r => exact Laws.EncodeLength.mdec2 field r
  | mdec4 field r => exact Laws.EncodeLength.mdec4 field r
  | minc1 field r => exact Laws.EncodeLength.minc1 field r
  | minc2 field r => exact Laws.EncodeLength.minc2 field r
  | minc4 field r => exact Laws.EncodeLength.minc4 field r
  | mirr r => exact Laws.EncodeLength.mirr r
  | mulReg z c r => exact Laws.EncodeLength.mulReg z c r
  | mulImm z r v => exact Laws.EncodeLength.mulImm z r v
  | mulMem z c m => exact Laws.EncodeLength.mulMem z c m
  | mula r => exact Laws.EncodeLength.mula r
  | mulsReg z c r => exact Laws.EncodeLength.mulsReg z c r
  | mulsImm z r v => exact Laws.EncodeLength.mulsImm z r v
  | mulsMem z c m => exact Laws.EncodeLength.mulsMem z c m
  | neg z r => exact Laws.EncodeLength.neg z r
  | nop => exact Laws.EncodeLength.nop

theorem DecodesTo.length {bs : List Byte} {i : Instr} (h : DecodesTo bs i) : bs.length = i.len := by
  obtain ⟨-, rfl⟩ | ⟨a, v, x, y, z, rfl, rfl⟩ := h
  · exact encode_length i
  · rfl

theorem one_le_len (i : Instr) : 1 ≤ i.len := by
  cases i <;> simp only [Instr.len] <;> omega

/-- Settles O4: at most seven bytes are taken, as many as the encoding has, and the decoder is short of
bytes only below seven. -/
theorem decodedLength : Obligations.DecodedLength := by
  refine ⟨fun l bs i rest h => ?_, fun l bs hlen hshort => ?_⟩
  · obtain ⟨used, rfl, hused, hi, -⟩ := decode_eq_ok h
    exact ⟨by rw [List.length_append, hi.length], one_le_len i, hi.length ▸ hused⟩
  · have hy := parses_decode l bs
    rw [hshort] at hy
    cases hy with
    | short hlt => omega

end Sys2Proof
end

section
/-! PROOFS. Bytes that are no instruction (30_encoding.md R90, R96; 60_exceptions.md R211), and words of the spec decoded. -/

namespace Sys2Proof

/-! ### First bytes that start no row -/

/-- The first bytes of the rows of R104. -/
def startsRow (b : Byte) : Bool :=
  decide (b ∈ [0x00#8, 0x05#8, 0x08#8, 0x0A#8, 0x0C#8, 0x17#8, 0x1A#8, 0x1B#8] ∨
    (0x20#8 ≤ b ∧ b ≤ 0x27#8) ∨ (0x30#8 ≤ b ∧ b ≤ 0x37#8) ∨ (0x40#8 ≤ b ∧ b ≤ 0x47#8) ∨
    (0x60#8 ≤ b ∧ b ≤ 0xBF#8) ∨ (0xC0#8 ≤ b ∧ b ≤ 0xF7#8 ∧ b.toNat % 16 ≠ 6))

/-- The rows of R90 with an operand in bits 2:0 of their first byte. -/
theorem startsRow_opByte (l : BitVec 3) :
    ∀ h ∈ [0b00100#5, 0b00110#5, 0b01000#5, 0b01100#5, 0b01101#5, 0b01110#5, 0b01111#5],
      startsRow (opByte h l) = true := by
  revert l
  decide

theorem decodeF0_unused {b : Byte} (hb : startsRow b = false) (rest : List Byte) :
    decodeF0 b rest = .reject .unknownOpcode rest := by
  rw [← opByte_hi5_lo3 b] at hb ⊢
  generalize hi5 b = h, lo3 b = l at hb ⊢
  simp only [decodeF0, hi5_opByte, lo3_opByte]
  split
  case h_1 | h_2 | h_3 | h_4 | h_5 | h_6 | h_7 | h_8 => exact absurd hb (by decide)
  case h_16 => rfl
  all_goals rw [startsRow_opByte _ _ (by decide)] at hb; cases hb

/-- A first byte that starts no row lies below 80H, is F8H to FFH, or is C6H, D6H, E6H or F6H (R72). -/
theorem unused_first_byte {b : Byte} (hb : startsRow b = false) :
    (b ≠ 0xF7#8 ∧ b ≠ 0xF3#8) ∧ (b < 0x80#8 ∨ (topBits b = 3#2 ∧ bit3 b = 1#1 ∧ sizeBits b = 3#2) ∨
      (topBits b = 3#2 ∧ bit3 b = 0#1 ∧ lo3 b = 6#3)) := by
  revert b
  decide

theorem decodeRaw_unused {b : Byte} (hb : startsRow b = false) (rest : List Byte) :
    ∃ why, decodeRaw (b :: rest) = .reject why rest := by
  obtain ⟨⟨h7, h3⟩, hlow | ⟨htop, hbit, hsize⟩ | ⟨htop, hbit, hlo⟩⟩ := unused_first_byte hb
  · exact ⟨_, (decodeRaw_of_lt hlow rest).trans (decodeF0_unused hb rest)⟩
  · exact ⟨.unknownOpcode, by simp [decodeRaw, h7, h3, htop, hbit, hsize, sizeOfCode]⟩
  · exact ⟨.unknownMode, by simp [decodeRaw, h7, h3, htop, hbit, hlo, takeMem, Parsed.bind]⟩

/-- Settles O7: the three groups of unused first bytes are rejected before the grades are looked at. -/
theorem unusedFirstBytesRejected : Obligations.UnusedFirstBytesRejected := by
  intro l b rest hb
  obtain ⟨why, h⟩ := decodeRaw_unused (decide_eq_false hb) rest
  exact ⟨why, by rw [decode, h, Parsed.bind]⟩

/-! ### Words of the spec -/

/-- Settles O5: the decoder run on each of the ten words. -/
theorem specWordsDecode : Obligations.SpecWordsDecode :=
  ⟨rfl, rfl, rfl, rfl, rfl, rfl, rfl, rfl, rfl, rfl⟩

end Sys2Proof

namespace Sys2Proof.Machine

/-- Settles O11: a rejection of bytes that the program did not write is the fault of the fetch. -/
theorem undefinedBytesFault : Obligations.UndefinedBytesFault := by
  intro s bs why hrun hdec hb hf hu
  rw [step_of_running hrun, fetchInstr_of_reject hdec hb hf, hu.hits_eq_false]
  rfl

end Sys2Proof.Machine
end

section
/-! PROOFS. Operands in memory and the instructions that use their address: effective addresses (R85), auto-update
refusals (R86), JP mem (R137), LDA (R160), INC of memory (R126); LDCF of a register (R164, R165), and the tables of R81
and R89. -/

namespace Sys2Proof.Machine

/-! ### Coded operands -/

/-- Settles O36, row by row. -/
theorem incrementField : Obligations.IncrementField := by
  unfold Obligations.IncrementField
  decide

/-- GE is the opposite of LT (R89). -/
theorem beq_eq_not_xor : ∀ a b : Bool, (a == b) = !(a ^^ b) := by decide

/-- Settles O37: `condOfCode` finds the condition of each code, whose formula is its row's. -/
theorem conditionTable : Obligations.ConditionTable := by
  intro f
  simp only [List.forall_mem_cons]
  exact ⟨rfl, rfl, rfl, rfl, rfl, rfl, rfl, rfl, rfl, beq_eq_not_xor _ _, rfl, rfl, rfl, rfl, rfl, rfl,
    nofun⟩

/-! ### Effective addresses -/

/-- A displacement or index is added as a signed number (R85). -/
theorem toInt_add_signExtend {n : Nat} (hn : n ≤ 32) (x : Long) (d : BitVec n) :
    (x + d.signExtend 32).toInt = (x.toInt + d.toInt).bmod (2 ^ 32) := by
  rw [BitVec.toInt_add, BitVec.toInt_signExtend_of_le hn]

/-- An absolute address is extended with zeros (R85). -/
theorem toNat_setWidth_long {n : Nat} (hn : n ≤ 32) (a : BitVec n) : (a.setWidth 32 : Long).toNat = a.toNat :=
  BitVec.toNat_setWidth_of_le hn

theorem setsReg_set32 (p : PReg) (v : Long) (s : State) : SetsReg .long ⟨p, 0⟩ v s (s.set32 p v) := by
  have h := writeSlot_setsReg (sz := .long) (x := ⟨p, 0⟩) le_rfl v s
  rwa [writeSlot_long rfl] at h

theorem eaUpdate_of_no_auto {m : Mem} {s : State} (h : autoReg m s = none) : eaUpdate m s = s := by
  cases m with
  | preDec r step => cases h
  | postInc r step => cases h
  | _ => rfl

theorem autoAmount_of_mem {row : AutoStep × BitVec 32}
    (h : row ∈ [(AutoStep.one, 1#32), (.two, 2#32), (.four, 4#32)]) : autoAmount row.1 = row.2 := by
  simp only [List.mem_cons, List.not_mem_nil, or_false] at h
  rcases h with rfl | rfl | rfl <;> rfl

/-- Settles O24, mode by mode. -/
theorem effectiveAddresses : Obligations.EffectiveAddresses := by
  intro s
  refine ⟨fun r => (readSlot_short_long r s).symm, fun r d => ?_, fun a => toNat_setWidth_long (by omega) a,
    fun a => toNat_setWidth_long (by omega) a, fun a => toNat_setWidth_long (by omega) a, fun _ => rfl,
    fun r d => toInt_add_signExtend (by omega) _ d, fun r x => toInt_add_signExtend (by decide) _ _,
    fun r x => toInt_add_signExtend (by decide) _ _, fun row hrow r => ?_, fun m hm => eaUpdate_of_no_auto hm⟩
  · rw [show readSlot .long (codeSlot .long r s) s = s.get32 (reg32 r s) from readSlot_short_long r s]
    exact toInt_add_signExtend (by omega) _ d
  · rw [← autoAmount_of_mem hrow]
    exact ⟨rfl, setsReg_set32 _ _ s, rfl, setsReg_set32 _ _ s⟩

/-! ### Auto-update refusals -/

theorem requireNoAuto_of_none {m : Mem} {s : State} (h : autoReg m s = none) (k : Result State) :
    requireNoAuto m s k = k := by
  rw [requireNoAuto, h]

theorem requireNoAuto_of_auto {m : Mem} {s : State} (h : autoReg m s ≠ none) (k : Result State) :
    requireNoAuto m s k = .refused (.autoUpdateAddress s.pc) := by
  obtain ⟨p, hp⟩ := Option.ne_none_iff_exists'.mp h
  rw [requireNoAuto, hp]

theorem requireNotAuto_of_eq {m : Mem} {x : Slot} {s : State} (h : autoReg m s = some x.reg)
    (k : Result State) : requireNotAuto m x s k = .refused (.autoUpdateData s.pc) := if_pos h

/-- Settles O45: each of these meanings begins with its refusal. -/
theorem autoUpdateRefusals : Obligations.AutoUpdateRefusals :=
  fun _ _ _ =>
    ⟨fun _ h => requireNoAuto_of_auto h _, fun _ h => requireNoAuto_of_auto h _,
      fun _ h => ⟨requireNotAuto_of_eq h _, requireNotAuto_of_eq h _⟩,
      fun _ h => ⟨requireNotAuto_of_eq h _, requireNotAuto_of_eq h _⟩⟩

/-! ### JP through memory -/

theorem execJpMem_of_no_auto (cc : Cond) {m : Mem} {s : State} (h : autoReg m s = none) :
    execJpMem cc m s = jumpIf cc (eaAddr m s).toNat (2 + m.extLen) s := requireNoAuto_of_none h _

theorem jumpTo_of_lt {n : Nat} {s : State} (h : n < Config.addressSpace) :
    jumpTo n s = .next (s.setPc (BitVec.ofNat 24 n)) := by
  rw [jumpTo, if_pos (by omega), BitVec.ofInt_natCast]

theorem jumpTo_of_ge {n : Nat} {s : State} (h : Config.addressSpace ≤ n) :
    jumpTo n s = .refused (.targetOutside s.pc) := if_neg (by omega)

theorem jumpIf_of_true {cc : Cond} {target : Int} {len : Nat} {s : State} (hc : condHolds cc s.flags = true) :
    jumpIf cc target len s = requireNext len s (jumpTo target s) := if_pos hc

theorem jumpIf_of_false {cc : Cond} {target : Int} {len : Nat} {s : State} (hc : condHolds cc s.flags = false) :
    jumpIf cc target len s = finish len s := if_neg (by simp [hc])

/-- D4 refuses an outside `next`, whether the jump is taken or not. -/
theorem jumpIf_of_not_fits {cc : Cond} {target : Int} {len : Nat} {s : State}
    (h : Config.addressSpace ≤ s.pc.toNat + len) : jumpIf cc target len s = .refused (.nextOutside s.pc) := by
  cases hc : condHolds cc s.flags with
  | true => rw [jumpIf_of_true hc, requireNext_of_not_fits h]
  | false => rw [jumpIf_of_false hc, finish_of_not_fits h]

/-- Settles O34, by the cases of `jumpIf`. -/
theorem jumpMemoryResult : Obligations.JumpMemoryResult := by
  intro cc m s
  refine ⟨fun h => requireNoAuto_of_auto h _, fun h hn => ?_,
    fun h hn => ⟨fun hc ht => ?_, fun hc ht => ?_, fun hc => ?_⟩⟩
  · exact (execJpMem_of_no_auto cc h).trans (jumpIf_of_not_fits hn)
  · refine (execJpMem_of_no_auto cc h).trans ?_
    rw [jumpIf_of_true hc, requireNext_of_fits hn, jumpTo_of_lt ht, BitVec.ofNat_toNat]
    rfl
  · refine (execJpMem_of_no_auto cc h).trans ?_
    rw [jumpIf_of_true hc, requireNext_of_fits hn, jumpTo_of_ge ht]
  · refine (execJpMem_of_no_auto cc h).trans ?_
    rw [jumpIf_of_false hc, finish_add hn]
    rfl

/-! ### LDA -/

theorem execLda_of_no_auto (w : WL) (c : BitVec 3) {m : Mem} {s : State} (h : autoReg m s = none) :
    execLda w c m s = finish (Instr.len (.lda w c m))
      (writeSlot w.size (codeSlot w.size c s) ((eaAddr m s).setWidth w.size.bits) s) :=
  requireNoAuto_of_none h _

/-- Settles O46: LDA is a register result, once U9 lets it through. -/
theorem loadAddressResult : Obligations.LoadAddressResult := by
  intro w c m s _ hn hauto
  obtain ⟨t, hfin, hflags, hreg⟩ :=
    finish_writesReg' (codeSlot_fits w.size c s) hn ((eaAddr m s).setWidth w.size.bits)
  refine ⟨t, (execLda_of_no_auto w c hauto).trans hfin, hflags, ?_⟩
  rwa [BitVec.setWidth_eq_extractLsb' (by cases w <;> decide)] at hreg

/-! ### INC of memory -/

/-- The read moves the pointer and draws free values; the store then goes to the same address. -/
theorem execIncMem_result {z : BW} {num : BitVec 3} {m : Mem} {s : State} (hn : NextFits (.incMem z num m) s)
    (hr : Reachable (memAddr m s) z.size.bytes s) :
    ∃ t, ∃ a res : BitVec z.size.bits, execIncMem z num m s = .next t ∧ Holds z.size (memAddr m s) s a ∧
      res = a + BitVec.ofNat z.size.bits (incAmount num) ∧
      WritesMem (.incMem z num m) z.size (memAddr m s) res s t ∧ RegsAfterEa m s t ∧
      t.flags = incFlags a (incAmount num) res s.flags := by
  obtain ⟨a, k, hread, ha⟩ := readEa_completes hr
  obtain ⟨w, t, hwrite, hwf, hfin, hmem, hregs, hflags⟩ :=
    store_finish (u := (eaUpdate m s).setFreeIndex (s.freeIndex + k))
      (a + BitVec.ofNat z.size.bits (incAmount num))
      (incFlags a (incAmount num) (a + BitVec.ofNat z.size.bits (incAmount num)) s.flags) hn hr (by simp)
      (eaUpdate_system m s _) (by simp) (by simp)
  refine ⟨t, a, _, ?_, ha, rfl, hmem, fun p => by simp [hregs p], hflags⟩
  simp only [execIncMem, hread, andThen_next, hwrite, hwf]
  simpa using hfin

/-- Settles O31: INC of memory is a read and a store at one address, with the flags of R127. -/
theorem incMemoryResult : Obligations.IncMemoryResult := by
  intro z num m s _ hn hr k hk
  obtain rfl : k = incAmount num := hk.trans (incAmount_eq num).symm
  obtain ⟨t, a, res, hexec, ha, hres, hmem, hregs, hflags⟩ := execIncMem_result hn hr
  exact ⟨t, a, res, hexec, ha, hres, hmem, hregs, hflags⟩

/-! ### LDCF of a register -/

/-- Bit `num` of a value in C, or a fresh free value, then the next instruction (R164, R168). -/
theorem finish_loadCarry {i : Instr} {n : Nat} {s : State} (hn : NextFits i s) (v : BitVec n) (num : Nat) :
    ∃ t c, finish i.len (loadCarry v num s) = .next t ∧ t.flags = { s.flags with c := c } ∧
      (num < n → c = v.getLsbD num) ∧
      (n ≤ num → c = Config.freeBit s.freeIndex ∧ t.freeIndex = s.freeIndex + 1) ∧
      SameRegs s t ∧ SameMem s t ∧ SameSystem s t ∧ FallsThrough i s t := by
  obtain ⟨k, c, heq, hbit, hfree⟩ := loadCarry_eq v num s
  rw [heq]
  refine ⟨_, c, finish_completes hn rfl, rfl, hbit, fun h => ?_, fun p => by simp, ⟨fun _ => rfl, rfl⟩,
    ⟨rfl, rfl, rfl, rfl, rfl⟩, fallsThrough_setPc hn _⟩
  obtain ⟨hc, rfl⟩ := hfree h
  exact ⟨hc, rfl⟩

/-- The bit number that LDCF A,r takes is the low half of A (R165). -/
theorem bitNumberA_eq (s : State) :
    bitNumberA s = ((s.banks[s.curBank.val]).xwa.extractLsb' 0 4).toNat := by
  have hA : readSlot .byte (slotA s) s = (s.banks[s.curBank.val]).xwa.extractLsb' 0 8 := rfl
  rw [bitNumberA, hA, BitVec.extractLsb'_toNat, BitVec.extractLsb'_toNat]
  exact Nat.mod_mod_of_dvd _ (by decide)

theorem execLdcfImmReg_of_lt {z : BW} {b : BitVec 8} {r : RegOp} {s : State} (hb : b.toNat < 16) :
    execLdcfImmReg z b r s = finish (Instr.len (.ldcfImmReg z b r))
      (loadCarry (readSlot z.size (slotOf z.size r s) s) b.toNat s) := if_pos hb

/-- Settles O51: U19 looks at the third byte first; what is left is a bit of the register. -/
theorem ldcfRegisterResult : Obligations.LdcfRegisterResult := by
  intro z r s
  refine ⟨fun b _ hn hb => ?_, fun b hb => if_neg (by omega), fun n hnum _ hn => ?_⟩
  · obtain ⟨t, c, hfin, hresult⟩ := finish_loadCarry hn (readSlot z.size (slotOf z.size r s) s) b.toNat
    exact ⟨t, c, (execLdcfImmReg_of_lt hb).trans hfin, hresult⟩
  · obtain rfl := hnum.trans (bitNumberA_eq s).symm
    exact finish_loadCarry hn _ _

end Sys2Proof.Machine
end

section
/-! PROOFS. NOP (40_halt_nop.md, R121). -/

namespace Sys2Proof.Machine

/-- NOP is `finish` alone, so only the pc moves. -/
theorem execNop_next {s : State} (h : s.pc.toNat + 1 < Config.addressSpace) :
    execNop s = .next (s.setPc (s.pc + 1#24)) :=
  finish_add (len := Instr.nop.len) h

/-- Settles O27: 00H is the encoding of NOP, whose grade every launch admits, and NOP is `finish`. -/
theorem nopResult : Obligations.NopResult :=
  ⟨fun l rest => decodeEncodeRoundTrip l .nop rest rfl rfl, fun _ => execNop_next⟩

end Sys2Proof.Machine
end

section
/-! PROOFS. NEG (41_inc_neg.md, R128). -/

namespace Sys2Proof.Machine

/-- R128 in the words of the obligation: C compares the operand with 0 as a bit vector, not as a number. -/
theorem negFlags_eq {n : Nat} (a res : BitVec n) :
    negFlags a res = { s := res.msb, z := decide (res = 0), h := decide (a.toNat % 16 ≠ 0),
                       v := decide (a.toNat = 2 ^ (n - 1)), n := true, c := decide (a ≠ 0) } := by
  have hc : a.toNat ≠ 0 ↔ a ≠ 0 := BitVec.toNat_ne_iff_ne (y := 0#n)
  rw [← decide_eq_decide.mpr hc]
  rfl

theorem execNeg_eq {z : BW} {r : RegOp} {s : State} {a res : BitVec z.size.bits}
    (ha : a = readSlot z.size (slotOf z.size r s) s) (hres : res = -a) :
    execNeg z r s = finish (Instr.len (.neg z r))
      ((writeSlot z.size (slotOf z.size r s) res s).setFlags (negFlags a res)) := by
  rw [hres, ← BitVec.zero_sub, ha]
  rfl

/-- Settles O32: NEG is a register result with the flags of R128. -/
theorem negResult : Obligations.NegResult := by
  intro z r s hwf hn a res ha hres
  obtain ⟨t, hfin, hflags, hreg⟩ := finish_writesReg (slotOf_fits hwf s) hn res (negFlags a res)
  exact ⟨t, (execNeg_eq ha hres).trans hfin, hreg, hflags.trans (negFlags_eq a res)⟩

end Sys2Proof.Machine
end

section
/-! PROOFS. The relative jumps JR and JRL (43_jump.md, R138, R139): `jumpIf` in every case, at any length and target. -/

namespace Sys2Proof.Machine

theorem jumpTo_of_inside {target : Int} (s : State) (h0 : 0 ≤ target) (h : target < Config.addressSpace) :
    ∃ a : Addr, jumpTo target s = .next { s with pc := a } ∧ (a.toNat : Int) = target := by
  lift target to ℕ using h0
  have hn : target < Config.addressSpace := Int.ofNat_lt.mp h
  exact ⟨BitVec.ofNat 24 target, jumpTo_of_lt hn,
    congrArg Nat.cast ((BitVec.toNat_ofNat target 24).trans (Nat.mod_eq_of_lt hn))⟩

theorem jumpTo_of_outside {target : Int} (s : State) (h : target < 0 ∨ Config.addressSpace ≤ target) :
    jumpTo target s = .refused (.targetOutside s.pc) := if_neg (by omega)

/-- R138 and R139 at once: a jump of `len` bytes is refused without a `next` in memory, and otherwise goes to its
target, is refused for it, or falls through. -/
theorem jumpIf_result (cc : Cond) (target : Int) (len : Nat) (s : State) :
    (Config.addressSpace ≤ s.pc.toNat + len → jumpIf cc target len s = .refused (.nextOutside s.pc)) ∧
    (s.pc.toNat + len < Config.addressSpace →
      (condHolds cc s.flags = true → 0 ≤ target → target < Config.addressSpace →
        ∃ a : Addr, jumpIf cc target len s = .next { s with pc := a } ∧ (a.toNat : Int) = target) ∧
      (condHolds cc s.flags = true → target < 0 ∨ Config.addressSpace ≤ target →
        jumpIf cc target len s = .refused (.targetOutside s.pc)) ∧
      (condHolds cc s.flags = false →
        jumpIf cc target len s = .next { s with pc := s.pc + BitVec.ofNat 24 len })) := by
  refine ⟨jumpIf_of_not_fits, fun hn => ?_⟩
  have taken (hc : condHolds cc s.flags = true) : jumpIf cc target len s = jumpTo target s :=
    (jumpIf_of_true hc).trans (requireNext_of_fits hn)
  refine ⟨fun hc h0 h => ?_, fun hc h => ?_, fun hc => ?_⟩
  · rw [taken hc]
    exact jumpTo_of_inside s h0 h
  · exact (taken hc).trans (jumpTo_of_outside s h)
  · exact (jumpIf_of_false hc).trans (finish_add hn)

/-- Settles O35: JR and JRL are `jumpIf` with the lengths 2 and 3. -/
theorem jumpRelativeResult : Obligations.JumpRelativeResult := by
  constructor
  · rintro cc d s target rfl
    exact jumpIf_result cc (s.pc.toNat + 2 + d.toInt) 2 s
  · rintro cc d s target rfl
    exact jumpIf_result cc (s.pc.toNat + 3 + d.toInt) 3 s

end Sys2Proof.Machine
end

section
/-! PROOFS. The loads and stores of 44_load.md: LD between registers and of a constant (R145 to R149), LD between a register
and memory (R150, R151), constants stored (R152, R153), and memory to memory (R154, R155). -/

namespace Sys2Proof.Machine

/-! ### Registers and constants -/

/-- Settles O38: both forms are a register result, at a slot that lies inside its 32-bit register. -/
theorem loadRegisterResult : Obligations.LoadRegisterResult := by
  intro sz c r s
  constructor
  · intro _ hn
    exact finish_writesReg' (codeSlot_fits sz c s) hn (readSlot sz (slotOf sz r s) s)
  · intro hwf hn
    exact finish_writesReg' (slotOf_fits hwf s) hn (readSlot sz (codeSlot sz c s) s)

/-- The constant of three bits is extended with zeros (R147). -/
theorem execLdRegImm3_eq (sz : Size) (r : RegOp) (v : BitVec 3) (s : State) :
    execLdRegImm3 sz r v s = finish (Instr.len (.ldRegImm3 sz r v))
      (writeSlot sz (slotOf sz r s) (BitVec.ofNat sz.bits v.toNat) s) := by
  rw [BitVec.ofNat_toNat]
  rfl

/-- Settles O39: the three forms are a register result. -/
theorem loadImmediateResult : Obligations.LoadImmediateResult := by
  intro sz s
  refine ⟨fun r v hwf hn => ?_, fun c v hn => ?_, fun r v hwf hn => ?_⟩
  · obtain ⟨t, hfin, hresult⟩ := finish_writesReg' (slotOf_fits hwf s) hn (BitVec.ofNat sz.bits v.toNat)
    exact ⟨t, (execLdRegImm3_eq sz r v s).trans hfin, hresult⟩
  · exact finish_writesReg' (codeSlot_fits sz c s) hn v
  · exact finish_writesReg' (slotOf_fits hwf s) hn v

/-! ### A register and memory -/

theorem requireNotAuto_of_ne {m : Mem} {x : Slot} {s : State} (h : autoReg m s ≠ some x.reg)
    (k : Result State) : requireNotAuto m x s k = k := if_neg h

theorem loadStep_eaUpdate_setFreeIndex (m : Mem) (s : State) (n : Nat) :
    LoadStep s ((eaUpdate m s).setFreeIndex n) :=
  (loadStep_eaUpdate m s).trans (loadStep_setFreeIndex _ n)

/-- Settles O40: past U13, the read moves the pointer and draws free values, then the register is
written. -/
theorem loadFromMemoryResult : Obligations.LoadFromMemoryResult := by
  intro sz c m s _ hn hr hauto
  obtain ⟨v, k, hread, hv⟩ := readEa_completes hr
  have hu := loadStep_eaUpdate_setFreeIndex m s (s.freeIndex + k)
  obtain ⟨t, hfin, hresult⟩ :=
    finish_loads v (codeSlot_fits sz c s) hn (sameRegs_setFreeIndex (eaUpdate m s) _)
      hu.quiet.pc hu.quiet.system hu.same.bytes hu.same.written hu.quiet.flags
  refine ⟨t, v, (requireNotAuto_of_ne hauto _).trans ?_, hv, hresult⟩
  rw [hread, andThen_next, hfin]

/-- A store, after a step that moved registers or drew free values only, then the next instruction. -/
theorem writeMem_finish_result {i : Instr} {sz : Size} {a : Addr} {s u : State} (hu : LoadStep s u)
    (v : BitVec sz.bits) (hn : NextFits i s) (hr : Reachable a sz.bytes s) :
    ∃ t, andThen (writeMem sz a v u) (fun w => finish i.len w) = .next t ∧ WritesMem i sz a v s t ∧
      SameRegs u t ∧ t.flags = s.flags := by
  obtain ⟨w, t, hwrite, hfin, hmem, hregs, hflags⟩ :=
    store_finish' v hn hr hu.quiet.pc hu.quiet.system hu.same.bytes hu.same.written
  exact ⟨t, by rw [hwrite, andThen_next, hfin], hmem, hregs, hflags.trans hu.quiet.flags⟩

/-- Settles O41: past U13, LD (mem),R is a store after the move of the pointer. -/
theorem storeRegisterResult : Obligations.StoreRegisterResult := by
  intro sz m c s _ hn hr hauto
  obtain ⟨t, hstore, hresult⟩ :=
    writeMem_finish_result (loadStep_eaUpdate m s) (readSlot sz (codeSlot sz c s) s) hn hr
  exact ⟨t, (requireNotAuto_of_ne hauto _).trans hstore, hresult⟩

/-! ### Constants stored -/

/-- Settles O42: a store at the absolute address, and one after the move of the pointer. -/
theorem storeImmediateResult : Obligations.StoreImmediateResult := by
  intro s
  constructor
  · intro z a v hn hr
    exact writeMem_finish_result (LoadStep.refl s) v hn hr
  · intro z m v _ hn hr
    exact writeMem_finish_result (loadStep_eaUpdate m s) v hn hr

/-! ### Memory to memory -/

/-- A read after the move of a pointer finds what memory held before the move. -/
theorem readMem_eaUpdate_completes {sz : Size} {a : Addr} {s : State} (m : Mem)
    (h : Reachable a sz.bytes s) :
    ∃ v n, readMem sz a (eaUpdate m s) = .next (v, (eaUpdate m s).setFreeIndex n) ∧ Holds sz a s v := by
  obtain ⟨v, k, hread, hv⟩ := readMem_completes (h.congr (eaUpdate_launch m s))
  exact ⟨v, _, hread, hv.congr (fun a => (eaUpdate_byteAt m s a).symm) (eaUpdate_launch m s).symm⟩

/-- R63: the store from `src` to `dst` takes the value read before it, whichever of the two addresses is
that of the memory operand. -/
theorem transfer_result {i : Instr} {sz : Size} {src dst : Addr} {m : Mem} {s : State}
    (hsrc : Reachable src sz.bytes s) (hdst : Reachable dst sz.bytes s) (hn : NextFits i s) :
    ∃ t v, (andThen (readMem sz src (eaUpdate m s)) fun p =>
        andThen (writeMem sz dst p.1 p.2) fun w => finish i.len w) = .next t ∧
      Holds sz src s v ∧ WritesMem i sz dst v s t ∧ RegsAfterEa m s t ∧ t.flags = s.flags := by
  obtain ⟨v, n, hread, hv⟩ := readMem_eaUpdate_completes m hsrc
  obtain ⟨t, hstore, hmem, hregs, hflags⟩ :=
    writeMem_finish_result (loadStep_eaUpdate_setFreeIndex m s n) v hn hdst
  refine ⟨t, v, ?_, hv, hmem, fun p => (hregs p).trans (sameRegs_setFreeIndex _ _ p), hflags⟩
  rw [hread, andThen_next, hstore]

/-- Settles O44: the two directions are one transfer with the addresses exchanged. -/
theorem memoryTransferResult : Obligations.MemoryTransferResult := by
  intro z a m s _ habs hmem
  constructor
  · intro hn
    exact transfer_result hmem habs hn
  · intro hn
    exact transfer_result habs hmem hn

end Sys2Proof.Machine
end

section
/-! PROOFS. LDAR (45_load_address_control_carry.md R161), the refusals of LDC (R162, R163, U11) and LDCF of a memory byte
(R166 to R168). -/

namespace Sys2Proof.Machine

/-! ### LDCF of a memory byte -/

theorem SameSystem.trans {s t u : State} (h : SameSystem s t) (k : SameSystem t u) : SameSystem s u :=
  ⟨k.cr.trans h.cr, k.rfp.trans h.rfp, k.iff.trans h.iff, k.halted.trans h.halted, k.launch.trans h.launch⟩

theorem NextFits.congr_pc {i : Instr} {s u : State} (h : NextFits i s) (hpc : u.pc = s.pc) : NextFits i u := by
  rw [NextFits, hpc]
  exact h

theorem FallsThrough.congr_pc {i : Instr} {s u t : State} (h : FallsThrough i u t) (hpc : u.pc = s.pc) :
    FallsThrough i s t := by
  rw [FallsThrough, ← hpc]
  exact h

/-- Both forms of LDCF (mem) at once: the read moves the pointer and may draw free values, then C takes bit
`num` of the byte, or the next free value when a byte has no such bit (R168). -/
theorem readEa_loadCarry_result {i : Instr} {m : Mem} {s : State} (hn : NextFits i s)
    (hr : Reachable (memAddr m s) 1 s) (num : Nat) :
    ∃ t, ∃ v : BitVec 8, ∃ c,
      andThen (readEa .byte m s) (fun p => finish i.len (loadCarry p.1 num p.2)) = .next t ∧
      Holds .byte (memAddr m s) s v ∧ t.flags = { s.flags with c := c } ∧ (num < 8 → c = v.getLsbD num) ∧
      (8 ≤ num → ∃ k, s.freeIndex ≤ k ∧ c = Config.freeBit k ∧ t.freeIndex = k + 1) ∧
      RegsAfterEa m s t ∧ SameMem s t ∧ SameSystem s t ∧ FallsThrough i s t := by
  obtain ⟨v, k, hread, hv⟩ := readEa_completes (sz := .byte) hr
  have hu := loadStep_eaUpdate_setFreeIndex m s (s.freeIndex + k)
  obtain ⟨t, c, hfin, hflags, hbit, hfree, hregs, hmem, hsys, hnext⟩ :=
    finish_loadCarry (hn.congr_pc hu.quiet.pc) v num
  refine ⟨t, v, c, ?_, hv, ?_, hbit, fun h => ⟨s.freeIndex + k, Nat.le_add_right _ _, hfree h⟩,
    fun p => (hregs p).trans (sameRegs_setFreeIndex _ _ p), hu.same.trans hmem,
    hu.quiet.system.trans hsys, hnext.congr_pc hu.quiet.pc⟩
  · rw [hread, andThen_next, hfin]
  · rw [hflags, hu.quiet.flags]

/-- Settles O52: a three-bit number always names a bit of the byte; the number in A may not. -/
theorem ldcfMemoryResult : Obligations.LdcfMemoryResult := by
  intro m s _ hr
  refine ⟨fun num hn => ?_, fun n hnum hn => ?_⟩
  · obtain ⟨t, v, c, hexec, hv, hflags, hbit, -, hframe⟩ := readEa_loadCarry_result hn hr num.toNat
    obtain rfl := hbit num.isLt
    exact ⟨t, v, hexec, hv, hflags, hframe⟩
  · obtain rfl := hnum.trans (bitNumberA_eq s).symm
    exact readEa_loadCarry_result hn hr (bitNumberA s)

/-! ### LDAR -/

theorem execLdar_of_inside {w : WL} {c : BitVec 3} {d : BitVec 16} {s : State} {target : Int}
    (ht : target = s.pc.toNat + 4 + d.toInt) (h0 : 0 ≤ target) (h : target < Config.addressSpace) :
    execLdar w c d s = finish (Instr.len (.ldar w c d))
      (writeSlot w.size (codeSlot w.size c s) (BitVec.ofInt w.size.bits target) s) := by
  subst ht
  exact if_pos ⟨h0, h⟩

theorem execLdar_of_outside (w : WL) (c : BitVec 3) {d : BitVec 16} {s : State} {target : Int}
    (ht : target = s.pc.toNat + 4 + d.toInt) (h : target < 0 ∨ Config.addressSpace ≤ target) :
    execLdar w c d s = .refused (.addressOutside s.pc) := by
  subst ht
  exact if_neg (by omega)

/-- A register takes the low bits of an address (R161). -/
theorem natCast_toNat_ofInt (n : Nat) (x : Int) : ((BitVec.ofInt n x).toNat : Int) = x % 2 ^ n := by
  rw [BitVec.toNat_ofInt, Nat.cast_pow, Nat.cast_ofNat, Int.toNat_of_nonneg (Int.emod_nonneg _ (by positivity))]

/-- Settles O47: D4 looks at the address first; past it LDAR is a register result. -/
theorem loadRelativeAddressResult : Obligations.LoadRelativeAddressResult := by
  intro w c d s target ht
  refine ⟨fun h0 h hn => ?_, execLdar_of_outside w c ht⟩
  obtain ⟨t, hfin, hflags, hreg⟩ :=
    finish_writesReg' (codeSlot_fits w.size c s) hn (BitVec.ofInt w.size.bits target)
  exact ⟨t, _, (execLdar_of_inside ht h0 h).trans hfin, natCast_toNat_ofInt _ _, hflags, hreg⟩

/-! ### Refusals of LDC -/

theorem requireCr_of_unmapped (sz : Size) {code : Byte} {s : State} (h : s.crEntry code = none) :
    requireCr sz code s = .refused (.crCode s.pc) := by
  rw [requireCr, h]

theorem requireCr_of_other_width {sz : Size} {code : Byte} {s : State} {e : CrEntry}
    (he : s.crEntry code = some e) (hw : e.width ≠ sz) : requireCr sz code s = .refused (.crWidth s.pc) := by
  rw [requireCr, he]
  exact if_neg hw

/-- Both directions of LDC begin with `requireCr`. -/
theorem ldc_refused_of_requireCr {sz : Size} {cr : BitVec 8} {s : State} {why : Refusal}
    (h : requireCr sz cr s = .refused why) (r : RegOp) :
    execLdcToCr sz cr r s = .refused why ∧ execLdcFromCr sz r cr s = .refused why := by
  constructor
  · rw [execLdcToCr, h, andThen_refused]
  · rw [execLdcFromCr, h, andThen_refused]

/-- The map of R6 is empty. -/
theorem crEntry_defaultLaunch (code : Byte) {s : State} (h : s.launch = defaultLaunch) :
    s.crEntry code = none := by
  rw [State.crEntry, h]
  rfl

/-- Settles O50: LDC is refused where `requireCr` refuses, and a code outside the map is one such case. -/
theorem ldcRefusals : Obligations.LdcRefusals :=
  ⟨fun sz _ r _ => ⟨fun h => ldc_refused_of_requireCr (requireCr_of_unmapped sz h) r,
      fun _ he hw => ldc_refused_of_requireCr (requireCr_of_other_width he hw) r⟩,
    fun cr _ => crEntry_defaultLaunch cr⟩

end Sys2Proof.Machine
end

section
/-! PROOFS. The block loads of 46_block_load.md: one item of LDI and LDD (R170, R172), all items of LDIR and LDDR (R171,
R173). -/

namespace Sys2Proof.Machine

/-! ### What both kinds share -/

/-- R174 adds `-k` where the model subtracts `k` from 0. -/
theorem blockStep_down (z : BW) : blockStep .down z = -BitVec.ofNat 32 z.size.bytes := BitVec.zero_sub _

theorem countReg_of_rfp {s t : State} (h : t.rfp = s.rfp) : countReg t = countReg s := by
  rw [countReg, countReg, curBank_of_rfp h]

theorem PointersMoved.sameRegs {dst src : PReg} {d : Long} {n : Nat} {s t u : State}
    (h : PointersMoved dst src d n s t) (hu : SameRegs t u) : PointersMoved dst src d n s u where
  dst_moved := (hu dst).trans h.dst_moved
  src_moved := (hu src).trans h.src_moved
  count := by rw [hu]; exact h.count
  upper := by rw [hu]; exact h.upper
  regs := fun p hd hs hc => (hu p).trans (h.regs p hd hs hc)

theorem Stores.sameMem {sz : Size} {a : Addr} {v : BitVec sz.bits} {s t u : State} (h : Stores sz a v s t)
    (hu : SameMem t u) : Stores sz a v s u :=
  h.congr (fun _ => rfl) rfl (fun _ => rfl) hu.bytes hu.written

/-- The end of a block load, from a state that differs from `s` in registers and memory only. -/
theorem finish_setFlags_result {i : Instr} {s u : State} (hn : NextFits i s) (hu : Quiet s u) (f : Flags) :
    ∃ t, finish i.len (u.setFlags f) = .next t ∧ t.flags = f ∧ SameRegs u t ∧ SameMem u t ∧
      SameSystem s t ∧ FallsThrough i s t :=
  ⟨_, finish_completes hn hu.pc, rfl, fun p => by simp, ⟨fun _ => rfl, rfl⟩,
    ⟨hu.system.cr, hu.system.rfp, hu.system.iff, hu.system.halted, hu.system.launch⟩,
    fallsThrough_setPc hn _⟩

/-! ### One item -/

/-- R170 and R172 at once: an item in either direction, then the flags, of which V looks at the new BC. -/
theorem blockOnce_result {i : Instr} {z : BW} {s : State} (dir : Dir) (p : BlockPair) {d : Long}
    (hdir : blockStep dir z = d) (hn : NextFits i s)
    (hsrc : Reachable (dataAddr (s.get32 (p.src s))) z.size.bytes s)
    (hdst : Reachable (dataAddr (s.get32 (p.dst s))) z.size.bytes s) :
    ∃ t v, blockOnce dir z p i.len s = .next t ∧ Holds z.size (dataAddr (s.get32 (p.src s))) s v ∧
      WritesMem i z.size (dataAddr (s.get32 (p.dst s))) v s t ∧
      PointersMoved (p.dst s) (p.src s) d 1 s t ∧
      t.flags = { s.flags with
        h := false, v := decide ((t.get32 (countReg s)).setWidth 16 ≠ 0#16), n := false } := by
  subst hdir
  obtain ⟨v, u, hitem, hv, hst, hmoved, hu⟩ := item_completes (dir := dir) hsrc hdst
  obtain ⟨t, hfin, hflags, hregs, hmem, hsys, hnext⟩ :=
    finish_setFlags_result hn hu (blockFlags (counter u != 0) u.flags)
  have hcount : counter u = (t.get32 (countReg s)).setWidth 16 := by
    rw [counter_eq, countReg_of_rfp hu.system.rfp, hregs]
  refine ⟨t, v, ?_, hv, ⟨hst.sameMem hmem, hsys, hnext⟩, hmoved.sameRegs hregs, ?_⟩
  · rw [blockOnce, hitem, andThen_next, hfin]
  · rw [hflags, hcount, hu.flags, bne, beq_eq_decide, ← decide_not]
    rfl

/-- Settles O53: the four forms are one item, in two directions for two pairs of pointers. -/
theorem blockOnceResult : Obligations.BlockOnceResult := by
  intro z s
  simp only [List.forall_mem_cons]
  exact ⟨blockOnce_result .up .deHl rfl, blockOnce_result .up .ixIy rfl,
    blockOnce_result .down .deHl (blockStep_down z), blockOnce_result .down .ixIy (blockStep_down z),
    List.forall_mem_nil _⟩

/-! ### All items -/

/-- How many items the counter stands for: the loop tests BC after the item, so 0 means 65536 (R171). -/
def itemCount (bc : BitVec 16) : Nat := if bc = 0#16 then 65536 else bc.toNat

/-- The count in the range that `repeatItems_completes` asks for. -/
theorem itemCount_eq_succ (bc : BitVec 16) :
    ∃ m, itemCount bc = m + 1 ∧ m < 65536 ∧ bc = BitVec.ofNat 16 (m + 1) := by
  by_cases h : bc = 0#16
  · exact ⟨65535, if_pos h, by decide, h⟩
  · have hpos : bc.toNat ≠ 0 := BitVec.toNat_ne_iff_ne.mpr h
    obtain ⟨m, hm⟩ := Nat.exists_eq_succ_of_ne_zero hpos
    have hlt := bc.isLt
    refine ⟨m, (if_neg h).trans hm, by omega, ?_⟩
    rw [← Nat.succ_eq_add_one, ← hm, BitVec.ofNat_toNat, BitVec.setWidth_eq]

/-- R171 and R173 at once: the loop from a counter that stands at its number of items, then the flags. -/
theorem blockRepeat_result {i : Instr} {z : BW} {s : State} (dir : Dir) (p : BlockPair) {d : Long}
    (hdir : blockStep dir z = d) {n : Nat} (hcount : n = itemCount ((s.get32 (countReg s)).setWidth 16))
    (hn : NextFits i s)
    (hr : ∀ k < n,
      Reachable (dataAddr (s.get32 (p.src s) + d * BitVec.ofNat 32 k)) z.size.bytes s ∧
      Reachable (dataAddr (s.get32 (p.dst s) + d * BitVec.ofNat 32 k)) z.size.bytes s) :
    ∃ t, ∃ f : Nat → State, blockRepeat dir z p i.len s = .next t ∧ f 0 = s ∧
      (∀ k < n, ∃ v,
        Holds z.size (dataAddr (s.get32 (p.src s) + d * BitVec.ofNat 32 k)) (f k) v ∧
        Stores z.size (dataAddr (s.get32 (p.dst s) + d * BitVec.ofNat 32 k)) v (f k) (f (k + 1)) ∧
        (f (k + 1)).launch = s.launch) ∧
      SameMem (f n) t ∧ PointersMoved (p.dst s) (p.src s) d n s t ∧ SameSystem s t ∧
      t.flags = { s.flags with h := false, v := false, n := false } ∧ FallsThrough i s t := by
  subst hdir
  obtain ⟨m, hm, hlt, hbc⟩ := itemCount_eq_succ ((s.get32 (countReg s)).setWidth 16)
  obtain rfl : n = m + 1 := hcount.trans hm
  obtain ⟨f, hloop, hstart, hitems, hmoved, hu⟩ :=
    repeatItems_completes m 0x10000 s hlt hlt ((counter_eq s).trans hbc) hr
  obtain ⟨t, hfin, hflags, hregs, hmem, hsys, hnext⟩ :=
    finish_setFlags_result hn hu (blockFlags false (f (m + 1)).flags)
  refine ⟨t, f, ?_, hstart, hitems, hmem, hmoved.sameRegs hregs, hsys, ?_, hnext⟩
  · rw [blockRepeat, hloop, andThen_next, hfin]
  · rw [hflags, hu.flags]
    rfl

/-- Settles O54: the four forms are the loop, in two directions for two pairs of pointers. -/
theorem blockRepeatResult : Obligations.BlockRepeatResult := by
  intro z s n hcount
  simp only [List.forall_mem_cons]
  exact ⟨blockRepeat_result .up .deHl rfl hcount, blockRepeat_result .up .ixIy rfl hcount,
    blockRepeat_result .down .deHl (blockStep_down z) hcount,
    blockRepeat_result .down .ixIy (blockStep_down z) hcount, List.forall_mem_nil _⟩

end Sys2Proof.Machine
end

section
/-! PROOFS. The cyclic pointers MDEC1/2/4 and MINC1/2/4 (48_modulo_mirror.md R185 to R190, R192) and the mirror MIRR
(R191). -/

namespace Sys2Proof.Machine

/-! ### Cyclic pointers -/

theorem moduloNum_of_pow {field : BitVec 16} {k nmin n : Nat} (h1 : nmin ≤ n) (h2 : n ≤ 15)
    (h : field.toNat + k = 2 ^ n) : moduloNum field k nmin = some (2 ^ n) :=
  moduloNum_eq_some.mpr ⟨h.symm, n, h1, h2, h⟩

theorem moduloNum_eq_none {field : BitVec 16} {k nmin : Nat}
    (h : ∀ n : Nat, nmin ≤ n → n ≤ 15 → field.toNat + k ≠ 2 ^ n) : moduloNum field k nmin = none := by
  refine Option.eq_none_iff_forall_ne_some.mpr fun num hnum => ?_
  obtain ⟨-, n, h1, h2, hpow⟩ := moduloNum_eq_some.mp hnum
  exact h n h1 h2 hpow

theorem moduloStep_of_some {cycle : Nat → Nat → BitVec 16 → BitVec 16} {k nmin num : Nat} {field : BitVec 16}
    (h : moduloNum field k nmin = some num) (r : RegOp) (len : Nat) (s : State) :
    moduloStep cycle k nmin field r len s = finish len (writeSlot .word (slotOf .word r s)
      (cycle num k (readSlot .word (slotOf .word r s) s)) s) := by
  rw [moduloStep, h]

theorem moduloStep_of_none {cycle : Nat → Nat → BitVec 16 → BitVec 16} {k nmin : Nat} {field : BitVec 16}
    (h : moduloNum field k nmin = none) (r : RegOp) (len : Nat) (s : State) :
    moduloStep cycle k nmin field r len s = .refused (.moduloNumber s.pc) := by
  rw [moduloStep, h]

/-- R185 to R190 at once: `moduloStep` in either direction, for any `k` and any smallest exponent. -/
theorem moduloStep_result (i : Instr) (down : Bool) {k nmin : Nat} {field : BitVec 16} {r : RegOp} {s : State}
    {a : BitVec 16} (ha : a = readSlot .word (slotOf .word r s) s) (hr : i.wf = r.ok .word) :
    (∀ n : Nat, nmin ≤ n → n ≤ 15 → field.toNat + k = 2 ^ n → i.wf = true → NextFits i s →
      ∃ t, ∃ v : BitVec 16,
        moduloStep (bif down then cycleDown else cycleUp) k nmin field r i.len s = .next t ∧
        t.flags = s.flags ∧ WritesReg i .word (slotOf .word r s) v s t ∧
        (down = true →
          v = if a.toNat % 2 ^ n = 0 then a + BitVec.ofNat 16 (2 ^ n - k) else a - BitVec.ofNat 16 k) ∧
        (down = false →
          v = if a.toNat % 2 ^ n = 2 ^ n - k then a - BitVec.ofNat 16 (2 ^ n - k)
            else a + BitVec.ofNat 16 k)) ∧
    ((∀ n : Nat, nmin ≤ n → n ≤ 15 → field.toNat + k ≠ 2 ^ n) →
      moduloStep (bif down then cycleDown else cycleUp) k nmin field r i.len s =
        .refused (.moduloNumber s.pc)) := by
  subst ha
  refine ⟨fun n h1 h2 hpow hwf hn => ?_, fun h => moduloStep_of_none (moduloNum_eq_none h) r _ s⟩
  obtain ⟨t, hfin, hflags, hreg⟩ := finish_writesReg' (slotOf_fits (hr.symm.trans hwf) s) hn
    ((bif down then cycleDown else cycleUp) (2 ^ n) k (readSlot .word (slotOf .word r s) s))
  refine ⟨t, _, (moduloStep_of_some (moduloNum_of_pow h1 h2 hpow) r _ s).trans hfin, hflags, hreg, ?_, ?_⟩
  · rintro rfl
    rfl
  · rintro rfl
    rfl

/-- Settles O56: the six instructions are `moduloStep`, in two directions for three sizes of step. (`eq_self` would
rewrite the premise that names the direction.) -/
theorem moduloResult : Obligations.ModuloResult := by
  intro field r s a ha
  simp only [List.forall_mem_cons, -eq_self]
  exact ⟨moduloStep_result (.mdec1 field r) true ha rfl, moduloStep_result (.mdec2 field r) true ha rfl,
    moduloStep_result (.mdec4 field r) true ha rfl, moduloStep_result (.minc1 field r) false ha rfl,
    moduloStep_result (.minc2 field r) false ha rfl, moduloStep_result (.minc4 field r) false ha rfl,
    List.forall_mem_nil _⟩

/-! ### Mirror -/

theorem getLsbD_mirror (a : BitVec 16) {i : Nat} (hi : i < 16) :
    (mirror a).getLsbD i = a.getLsbD (15 - i) := by
  rw [mirror, BitVec.getLsbD_reverse, BitVec.getMsbD_eq_getLsbD, decide_eq_true hi, Bool.true_and]

/-- Settles O57: MIRR is a register result, and the value is the mirror of the register. -/
theorem mirrorResult : Obligations.MirrorResult := by
  intro r s hwf hn
  obtain ⟨t, hfin, hflags, hreg⟩ :=
    finish_writesReg' (slotOf_fits hwf s) hn (mirror (readSlot .word (slotOf .word r s) s))
  exact ⟨t, _, hfin, hflags, hreg, fun i hi => getLsbD_mirror _ hi⟩

end Sys2Proof.Machine
end

section
/-! PROOFS. The multiplies of 49_multiply.md: MUL and MULS with a register, a constant (R195, R196, R198, R199) and a memory
operand (R197, R200), and MULA (R201). -/

namespace Sys2Proof.Machine

/-! ### Products are exact at twice the width -/

theorem wide_bits (z : BW) : z.wide.bits = z.size.bits * 2 := by cases z <;> rfl

theorem productU_toNat {z : BW} (a b : BitVec z.size.bits) : (productU z a b).toNat = a.toNat * b.toNat := by
  have hlt : a.toNat * b.toNat < 2 ^ z.wide.bits := by
    rw [wide_bits, Nat.mul_two, Nat.pow_add]
    exact Nat.mul_lt_mul'' a.isLt b.isLt
  rw [productU, BitVec.toNat_ofNat, Nat.mod_eq_of_lt hlt]

/-- No signed product exceeds a quarter of the double-width range, which the least operand's square reaches. -/
theorem productS_toInt {z : BW} (a b : BitVec z.size.bits) : (productS z a b).toInt = a.toInt * b.toInt := by
  have hle : a.toInt * b.toInt ≤ 2 ^ (z.size.bits * 2 - 2) := BitVec.toInt_mul_toInt_le
  have hge : -(2 ^ (z.size.bits * 2 - 2)) ≤ a.toInt * b.toInt := BitVec.le_toInt_mul_toInt
  have hpos : (0 : Int) < 2 ^ (z.size.bits * 2 - 2) := by positivity
  have hrange : ((2 ^ z.wide.bits : Nat) : Int) = 4 * 2 ^ (z.size.bits * 2 - 2) := by cases z <;> rfl
  rw [productS, BitVec.toInt_ofInt]
  exact Int.bmod_eq_of_le_mul_two (by omega) (by omega)

/-! ### A register and a constant -/

/-- Any multiply with the operand `b` is a register result; `P` is what its product meets. -/
theorem multiplyInto_result {i : Instr} {z : BW} {x : Slot} {s : State} {a b : BitVec z.size.bits}
    {product : BitVec z.size.bits → BitVec z.size.bits → BitVec z.wide.bits} {P : BitVec z.wide.bits → Prop}
    (hP : P (product a b)) (ha : a = readSlot z.size x s) (hx : x.off + z.wide.bits ≤ 32) (hn : NextFits i s) :
    ∃ t, ∃ v : BitVec z.wide.bits, finish i.len (multiplyInto z product x b s) = .next t ∧
      t.flags = s.flags ∧ WritesReg i z.wide x v s t ∧ P v := by
  subst ha
  obtain ⟨t, hfin, hflags, hreg⟩ := finish_writesReg' hx hn (product (readSlot z.size x s) b)
  exact ⟨t, _, hfin, hflags, hreg, hP⟩

/-- A multiply destination by 3-bit code next to an operand with a check of its own (R202). -/
theorem mulCode_fits_of_and {z : BW} {c : BitVec 3} {ok : Bool} (h : (mulCodeOk z c && ok) = true) (s : State) :
    (codeSlot z.size c s).off + z.wide.bits ≤ 32 :=
  mulCode_fits (Bool.and_elim_left h) s

/-- Settles O58: the four forms write an exact product over the lower half that they read. -/
theorem multiplyResult : Obligations.MultiplyResult := by
  intro z s
  constructor
  · rintro c r a _ ha rfl
    exact ⟨fun hwf hn => multiplyInto_result (productU_toNat a _) ha (mulCode_fits_of_and hwf s) hn,
      fun hwf hn => multiplyInto_result (productS_toInt a _) ha (mulCode_fits_of_and hwf s) hn⟩
  · intro r a b ha
    exact ⟨fun hwf hn => multiplyInto_result (productU_toNat a b) ha (mulSlot_fits hwf s) hn,
      fun hwf hn => multiplyInto_result (productS_toInt a b) ha (mulSlot_fits hwf s) hn⟩

/-! ### A memory operand -/

/-- U13 keeps the pointer of the mode off the destination, so the move does not change the multiplicand. -/
theorem readSlot_eaUpdate {sz : Size} {m : Mem} {x : Slot} {s : State} (h : autoReg m s ≠ some x.reg) (n : Nat) :
    readSlot sz x ((eaUpdate m s).setFreeIndex n) = readSlot sz x s := by
  rw [readSlot, sameRegs_setFreeIndex, eaUpdate_get32_ne h, readSlot]

/-- Any multiply with a memory operand: the read moves the pointer and draws free values, then the register
is written; `P` is what the product with each operand meets. -/
theorem multiplyMem_result {i : Instr} {z : BW} {m : Mem} {x : Slot} {s : State} {a : BitVec z.size.bits}
    {product : BitVec z.size.bits → BitVec z.size.bits → BitVec z.wide.bits}
    {P : BitVec z.size.bits → BitVec z.wide.bits → Prop} (hP : ∀ b, P b (product a b))
    (ha : a = readSlot z.size x s) (hx : x.off + z.wide.bits ≤ 32) (hn : NextFits i s)
    (hr : Reachable (memAddr m s) z.size.bytes s) (hauto : autoReg m s ≠ some x.reg) :
    ∃ t, ∃ b : BitVec z.size.bits, ∃ v : BitVec z.wide.bits,
      requireNotAuto m x s (andThen (readEa z.size m s) fun p =>
        finish i.len (multiplyInto z product x p.1 p.2)) = .next t ∧
      Holds z.size (memAddr m s) s b ∧ P b v ∧ SetsReg z.wide x v (eaUpdate m s) t ∧ SameMem s t ∧
      SameSystem s t ∧ t.flags = s.flags ∧ FallsThrough i s t := by
  obtain ⟨b, k, hread, hb⟩ := readEa_completes hr
  have hu := loadStep_eaUpdate_setFreeIndex m s (s.freeIndex + k)
  obtain ⟨t, hfin, hresult⟩ :=
    finish_loads (product a b) hx hn (sameRegs_setFreeIndex (eaUpdate m s) _)
      hu.quiet.pc hu.quiet.system hu.same.bytes hu.same.written hu.quiet.flags
  refine ⟨t, b, _, (requireNotAuto_of_ne hauto _).trans ?_, hb, hP b, hresult⟩
  rw [hread, andThen_next, multiplyInto, readSlot_eaUpdate hauto, ← ha, hfin]

/-- Settles O59: the product with the memory operand is exact, as with a register. -/
theorem multiplyMemoryResult : Obligations.MultiplyMemoryResult := by
  intro z c m s a ha hr hauto
  exact ⟨fun hwf hn => multiplyMem_result (productU_toNat a) ha (mulCode_fits_of_and hwf s) hn hr hauto,
    fun hwf hn => multiplyMem_result (productS_toInt a) ha (mulCode_fits_of_and hwf s) hn hr hauto⟩

/-! ### MULA -/

/-- The registers after MULA: the sum in `dst`, and XHL moved down by a word. -/
def mulaSums (dst : PReg) (p : BitVec 32) (s : State) : State :=
  (s.set32 dst (s.get32 dst + p)).set32 (reg32 3#3 s) (s.get32 (reg32 3#3 s) - 2)

/-- The operands of the flags are the old register, the product and the sum. -/
theorem mulaRegs_eq (dst : PReg) (p : BitVec 32) (s : State) :
    mulaRegs dst p s =
      (mulaSums dst p s).setFlags (mulaFlags (s.get32 dst) p (s.get32 dst + p) s.flags) := by
  simp [mulaRegs, mulaSums]

theorem loadStep_mulaSums (dst : PReg) (p : BitVec 32) (s : State) : LoadStep s (mulaSums dst p s) :=
  (loadStep_set32 _ _ _).trans (loadStep_set32 _ _ _)

theorem mulaSums_get32_dst {dst : PReg} {s : State} (p : BitVec 32) (h : dst ≠ reg32 3#3 s) :
    (mulaSums dst p s).get32 dst = s.get32 dst + p := by
  rw [mulaSums, State.get32_set32_ne _ _ h, State.get32_set32_same]

theorem mulaSums_get32_xhl (dst : PReg) (p : BitVec 32) (s : State) :
    (mulaSums dst p s).get32 (reg32 3#3 s) = s.get32 (reg32 3#3 s) - 2 :=
  State.get32_set32_same _ _ _

theorem mulaSums_get32_ne {dst q : PReg} {s : State} (p : BitVec 32) (hd : q ≠ dst) (hl : q ≠ reg32 3#3 s) :
    (mulaSums dst p s).get32 q = s.get32 q := by
  rw [mulaSums, State.get32_set32_ne _ _ hl, State.get32_set32_ne _ _ hd]

/-- R201's V: the addends agree in sign, and the sum does not. -/
theorem mulaFlags_eq (d p res : BitVec 32) (f : Flags) :
    mulaFlags d p res f =
      { f with s := res.msb, z := decide (res = 0), v := decide (d.msb = p.msb ∧ res.msb ≠ d.msb) } := by
  simp [mulaFlags, bne, beq_eq_decide]

theorem set32_setFreeIndex (s : State) (p : PReg) (v : Long) (n : Nat) :
    (s.setFreeIndex n).set32 p v = (s.set32 p v).setFreeIndex n := by
  cases p <;> rfl

/-- Both operands of MULA are read from the memory of `s`; between and after them only free values are drawn. -/
theorem readMem_twice_completes {sz : Size} {a b : Addr} {s : State} (ha : Reachable a sz.bytes s)
    (hb : Reachable b sz.bytes s) :
    ∃ v w n m, readMem sz a s = .next (v, s.setFreeIndex n) ∧
      readMem sz b (s.setFreeIndex n) = .next (w, s.setFreeIndex m) ∧ Holds sz a s v ∧ Holds sz b s w := by
  obtain ⟨v, j, hv, hav⟩ := readMem_completes ha
  obtain ⟨w, k, hw, hbw⟩ := readMem_completes (s := s.setFreeIndex (s.freeIndex + j)) (hb.congr rfl)
  exact ⟨v, w, _, _, hv, hw, hav, hbw.congr (fun _ => rfl) rfl⟩

theorem execMula_of_xhl {r : RegOp} {s : State} (h : (slotOf .word r s).reg = reg32 3#3 s) :
    execMula r s = .refused (.mulaXhl s.pc) := if_pos h

/-- The draws of the two reads stay beside the sums. -/
theorem mulaSums_setFreeIndex (dst : PReg) (p : BitVec 32) (s : State) (n : Nat) :
    mulaSums dst p (s.setFreeIndex n) = (mulaSums dst p s).setFreeIndex n := by
  simp only [mulaSums, State.setFreeIndex_get32, set32_setFreeIndex]
  rfl

/-- The end of MULA, in a state that differs from `s` in its number of draws only. -/
theorem finish_mulaRegs {i : Instr} {dst : PReg} {s : State} (hn : NextFits i s) (p : BitVec 32) (n : Nat) :
    ∃ t, finish i.len (mulaRegs dst p (s.setFreeIndex n)) = .next t ∧
      t.flags = mulaFlags (s.get32 dst) p (s.get32 dst + p) s.flags ∧ SameRegs (mulaSums dst p s) t ∧
      SameMem s t ∧ SameSystem s t ∧ FallsThrough i s t := by
  have hu := (loadStep_mulaSums dst p s).trans (loadStep_setFreeIndex _ n)
  obtain ⟨t, hfin, hflags, hregs, hmem, hsys, hnext⟩ :=
    finish_setFlags_result hn hu.quiet (mulaFlags (s.get32 dst) p (s.get32 dst + p) s.flags)
  refine ⟨t, ?_, hflags, fun q => (hregs q).trans (sameRegs_setFreeIndex _ _ q), hu.same.trans hmem, hsys,
    hnext⟩
  rw [mulaRegs_eq, mulaSums_setFreeIndex, State.setFreeIndex_get32, State.setFreeIndex_flags, hfin]

/-- R201: past U14, the two words are read, then the registers and flags are written. -/
theorem execMula_next {r : RegOp} {dst : PReg} {s : State} (hd : dst = (slotOf .word r s).reg)
    (hn : NextFits (.mula r) s) (hne : dst ≠ reg32 3#3 s)
    (hde : Reachable (dataAddr (s.get32 (reg32 2#3 s))) 2 s)
    (hhl : Reachable (dataAddr (s.get32 (reg32 3#3 s))) 2 s) :
    ∃ t a b, execMula r s = .next t ∧ Holds .word (dataAddr (s.get32 (reg32 2#3 s))) s a ∧
      Holds .word (dataAddr (s.get32 (reg32 3#3 s))) s b ∧
      t.flags = mulaFlags (s.get32 dst) (productWord a b) (s.get32 dst + productWord a b) s.flags ∧
      SameRegs (mulaSums dst (productWord a b) s) t ∧ SameMem s t ∧ SameSystem s t ∧
      FallsThrough (.mula r) s t := by
  subst hd
  obtain ⟨a, b, n, m, hreada, hreadb, ha, hb⟩ := readMem_twice_completes (sz := .word) hde hhl
  obtain ⟨t, hfin, hresult⟩ := finish_mulaRegs hn (productWord a b) m
  refine ⟨t, a, b, ?_, ha, hb, hresult⟩
  simp only [execMula]
  rw [if_neg hne, hreada, andThen_next, hreadb, andThen_next, hfin]

/-- Settles O60: MULA of XHL is refused; another register takes the sum, beside XHL and the flags. -/
theorem mulaResult : Obligations.MulaResult := by
  rintro r s dst _ _ hd rfl rfl
  refine ⟨fun _ hn hne hde hhl => ?_, fun h => execMula_of_xhl (hd.symm.trans h)⟩
  obtain ⟨t, a, b, hexec, ha, hb, hflags, hregs, hframe⟩ := execMula_next hd hn hne hde hhl
  exact ⟨t, a, b, productWord a b, _, hexec, ha, hb, productS_toInt (z := .word) a b, rfl,
    (hregs _).trans (mulaSums_get32_dst _ hne), (hregs _).trans (mulaSums_get32_xhl _ _ _),
    fun q hq hl => (hregs q).trans (mulaSums_get32_ne _ hq hl), hflags.trans (mulaFlags_eq _ _ _ _), hframe⟩

end Sys2Proof.Machine
end

section
/-! PROOFS. The faults of 60_exceptions.md: an access is Stuck at its first byte outside memory and the devices (R212),
and no meaning has another fault (R211, R226). -/

namespace Sys2Proof.Machine

/-! ### Accesses that leave memory -/

theorem readByte_of_unadmitted {a : Addr} {s : State} (hd : s.isDevice a.toNat = false)
    (ha : s.isAdmitted a.toNat = false) : readByte a s = .fault (.stuck s.pc a.toNat) := by
  simp [readByte, hd, ha]

theorem writeByte_of_unadmitted {a : Addr} (b : Byte) {s : State} (hd : s.isDevice a.toNat = false)
    (ha : s.isAdmitted a.toNat = false) : writeByte a b s = .fault (.stuck s.pc a.toNat) := by
  simp [writeByte, hd, ha]

theorem Reachable.head {a : Addr} {n : Nat} {s : State} (h : Reachable a (n + 1) s) :
    s.isDevice a.toNat = true ∨ s.isAdmitted a.toNat = true := by
  simpa [byteAddr_zero] using h 0 (Nat.succ_pos n)

theorem Reachable.tail {a : Addr} {n : Nat} {s : State} (h : Reachable a (n + 1) s) :
    Reachable (a + 1#24) n s := by
  intro i hi
  rw [byteAddr_succ]
  exact h (i + 1) (Nat.succ_lt_succ hi)

theorem isAdmitted_of_launch {s s' : State} (hl : s'.launch = s.launch) (a : Nat) :
    s'.isAdmitted a = s.isAdmitted a := by simp [State.isAdmitted, hl]

/-- A store of one byte changes memory and the written set only. -/
theorem writeByte_quiet {a : Addr} {b : Byte} {s t : State} (h : writeByte a b s = .next t) : Quiet s t := by
  rcases writeByte_eq_next h with ⟨-, rfl⟩ | ⟨-, -, rfl⟩ <;> exact ⟨⟨rfl, rfl, rfl, rfl, rfl⟩, rfl, rfl⟩

/-- Reading goes on over the bytes that are there, and stops at the first that is not. -/
theorem readBytes_stuck {n k : Nat} {a : Addr} {s : State} (hk : k < n) (hr : Reachable a k s)
    (hd : s.isDevice (byteAddr a k) = false) (ha : s.isAdmitted (byteAddr a k) = false) :
    readBytes n a s = .fault (.stuck s.pc (byteAddr a k)) := by
  induction k generalizing n a s with
  | zero =>
    obtain ⟨n, rfl⟩ := Nat.exists_eq_add_one.mpr hk
    rw [byteAddr_zero] at hd ha ⊢
    rw [readBytes, readByte_of_unadmitted hd ha, andThen_fault]
  | succ k ih =>
    obtain ⟨n, rfl⟩ := Nat.exists_eq_add_one.mpr (Nat.zero_lt_of_lt hk)
    obtain ⟨⟨b, u⟩, hb⟩ := readByte_completes hr.head
    obtain ⟨j, rfl, -⟩ := readByte_eq_next hb
    rw [← byteAddr_succ] at hd ha ⊢
    have hrest := ih (s := s.setFreeIndex (s.freeIndex + j)) (Nat.lt_of_succ_lt_succ hk)
      (hr.tail.congr rfl) hd ha
    rw [readBytes, hb, andThen_next, hrest, andThen_fault, State.setFreeIndex_pc]

theorem writeBytes_stuck {bs : List Byte} {k : Nat} {a : Addr} {s : State} (hk : k < bs.length)
    (hr : Reachable a k s) (hd : s.isDevice (byteAddr a k) = false)
    (ha : s.isAdmitted (byteAddr a k) = false) :
    writeBytes bs a s = .fault (.stuck s.pc (byteAddr a k)) := by
  induction bs generalizing k a s with
  | nil => exact absurd hk (Nat.not_lt_zero k)
  | cons b bs ih =>
    cases k with
    | zero =>
      rw [byteAddr_zero] at hd ha ⊢
      rw [writeBytes, writeByte_of_unadmitted b hd ha, andThen_fault]
    | succ k =>
      obtain ⟨u, hb⟩ := writeByte_completes b hr.head
      have hq := writeByte_quiet hb
      have hl := hq.system.launch
      rw [← byteAddr_succ] at hd ha ⊢
      rw [writeBytes, hb, andThen_next, ih (Nat.lt_of_succ_lt_succ hk) (hr.tail.congr hl)
        ((isDevice_of_launch hl _).trans hd) ((isAdmitted_of_launch hl _).trans ha), hq.pc]

/-- Settles O21, by the bytes of the read and of the write. -/
theorem unadmittedAccessIsStuck : Obligations.UnadmittedAccessIsStuck := by
  intro sz a v s k hk hr hd ha
  have hlen : k < (leBytes sz.bytes v.toNat).length := by rwa [leBytes_length]
  exact ⟨by rw [readMem, readBytes_stuck hk hr hd ha, andThen_fault], writeBytes_stuck hlen hr hd ha⟩

/-! ### Results whose only fault is Stuck -/

/-- A fault of `r`, if `r` is one, is Stuck with the pc of `s` at an address that is neither admitted
nor a device's (R212). -/
def OnlyStuck {α : Type} (s : State) (r : Result α) : Prop :=
  ∀ e, r = .fault e → ∃ a, e = .stuck s.pc a ∧ s.isDevice a = false ∧ s.isAdmitted a = false

section
variable {α β : Type} {s u : State} {r : Result α}

theorem onlyStuck_next (x : α) : OnlyStuck s (.next x) := nofun

theorem onlyStuck_refused (why : Refusal) : OnlyStuck s (.refused why : Result α) := nofun

theorem onlyStuck_stuck {a : Nat} (hd : s.isDevice a = false) (ha : s.isAdmitted a = false) :
    OnlyStuck s (.fault (.stuck s.pc a) : Result α) := by
  rintro _ ⟨⟩
  exact ⟨a, rfl, hd, ha⟩

/-- A sequence has the faults of its parts. -/
theorem OnlyStuck.bind {f : α → Result β} (h : OnlyStuck s r)
    (hf : ∀ x, r = .next x → OnlyStuck s (f x)) : OnlyStuck s (andThen r f) := by
  cases r with
  | next x => exact hf x rfl
  | fault e =>
    rintro _ ⟨⟩
    exact h e rfl
  | refused why => exact onlyStuck_refused why

theorem onlyStuck_ite {c : Prop} [Decidable c] {r' : Result α} (h : c → OnlyStuck s r)
    (h' : ¬ c → OnlyStuck s r') : OnlyStuck s (if c then r else r') := by
  split
  · exact h ‹_›
  · exact h' ‹_›

/-- The pc and the launch arguments decide which fault is meant. -/
theorem OnlyStuck.of_quiet (h : OnlyStuck u r) (hq : Quiet s u) : OnlyStuck s r := by
  intro e he
  obtain ⟨a, rfl, hd, ha⟩ := h e he
  have hl := hq.system.launch
  exact ⟨a, by rw [hq.pc], by rwa [isDevice_of_launch hl] at hd, by rwa [isAdmitted_of_launch hl] at ha⟩

/-! ### Sequencing and refusals have no fault of their own -/

theorem onlyStuck_finish (len : Nat) (u : State) : OnlyStuck s (finish len u) :=
  onlyStuck_ite (fun _ => onlyStuck_next _) fun _ => onlyStuck_refused _

/-- A part that can be Stuck, then the next instruction. -/
theorem OnlyStuck.finish_after {len : α → Nat} {g : α → State} (h : OnlyStuck s r) :
    OnlyStuck s (andThen r fun x => finish (len x) (g x)) :=
  h.bind fun _ _ => onlyStuck_finish _ _

theorem onlyStuck_jumpTo (target : Int) (u : State) : OnlyStuck s (jumpTo target u) :=
  onlyStuck_ite (fun _ => onlyStuck_next _) fun _ => onlyStuck_refused _

theorem onlyStuck_requireNext {len : Nat} {k : Result State} (h : OnlyStuck s k) :
    OnlyStuck s (requireNext len u k) :=
  onlyStuck_ite (fun _ => h) fun _ => onlyStuck_refused _

theorem onlyStuck_jumpIf (cc : Cond) (target : Int) (len : Nat) (u : State) :
    OnlyStuck s (jumpIf cc target len u) :=
  onlyStuck_ite (fun _ => onlyStuck_requireNext (onlyStuck_jumpTo _ _)) fun _ => onlyStuck_finish _ _

theorem onlyStuck_requireNoAuto {m : Mem} {k : Result State} (h : OnlyStuck s k) :
    OnlyStuck s (requireNoAuto m u k) := by
  unfold requireNoAuto
  split
  · exact h
  · exact onlyStuck_refused _

theorem onlyStuck_requireNotAuto {m : Mem} {x : Slot} {k : Result State} (h : OnlyStuck s k) :
    OnlyStuck s (requireNotAuto m x u k) :=
  onlyStuck_ite (fun _ => onlyStuck_refused _) fun _ => h

theorem onlyStuck_requireCr (sz : Size) (code : Byte) (u : State) : OnlyStuck s (requireCr sz code u) := by
  unfold requireCr
  split
  · exact onlyStuck_refused _
  · exact onlyStuck_ite (fun _ => onlyStuck_next _) fun _ => onlyStuck_refused _

theorem onlyStuck_moduloStep (cycle : Nat → Nat → BitVec 16 → BitVec 16) (k nmin : Nat)
    (field : BitVec 16) (r : RegOp) (len : Nat) (u : State) :
    OnlyStuck s (moduloStep cycle k nmin field r len u) := by
  unfold moduloStep
  split
  · exact onlyStuck_refused _
  · exact onlyStuck_finish _ _

/-! ### Accesses are Stuck or answer -/

theorem onlyStuck_readByte (a : Addr) (s : State) : OnlyStuck s (readByte a s) :=
  onlyStuck_ite (fun _ => onlyStuck_next _) fun hd =>
    onlyStuck_ite (fun _ => onlyStuck_next _) fun ha => onlyStuck_stuck (by simpa using hd) (by simpa using ha)

theorem onlyStuck_writeByte (a : Addr) (b : Byte) (s : State) : OnlyStuck s (writeByte a b s) :=
  onlyStuck_ite (fun _ => onlyStuck_next _) fun hd =>
    onlyStuck_ite (fun _ => onlyStuck_next _) fun ha => onlyStuck_stuck (by simpa using hd) (by simpa using ha)

theorem onlyStuck_readBytes (n : Nat) (a : Addr) (s : State) : OnlyStuck s (readBytes n a s) := by
  induction n generalizing a s with
  | zero => exact onlyStuck_next _
  | succ n ih =>
    refine (onlyStuck_readByte a s).bind fun p hp => ?_
    obtain ⟨k, hk, -⟩ := readByte_eq_next (b := p.1) (t := p.2) hp
    have hq : Quiet s p.2 := by
      rw [hk]
      exact (loadStep_setFreeIndex s _).quiet
    exact ((ih (a + 1#24) p.2).of_quiet hq).bind fun _ _ => onlyStuck_next _

theorem onlyStuck_writeBytes (bs : List Byte) (a : Addr) (s : State) : OnlyStuck s (writeBytes bs a s) := by
  induction bs generalizing a s with
  | nil => exact onlyStuck_next _
  | cons b bs ih =>
    exact (onlyStuck_writeByte a b s).bind fun t ht => (ih (a + 1#24) t).of_quiet (writeByte_quiet ht)

theorem onlyStuck_readMem (sz : Size) (a : Addr) (s : State) : OnlyStuck s (readMem sz a s) :=
  (onlyStuck_readBytes _ _ _).bind fun _ _ => onlyStuck_next _

theorem onlyStuck_writeMem (sz : Size) (a : Addr) (v : BitVec sz.bits) (s : State) :
    OnlyStuck s (writeMem sz a v s) := onlyStuck_writeBytes _ _ _

theorem onlyStuck_readEa (sz : Size) (m : Mem) (s : State) : OnlyStuck s (readEa sz m s) :=
  (onlyStuck_readMem _ _ _).of_quiet (loadStep_eaUpdate m s).quiet

theorem onlyStuck_writeEa (sz : Size) (m : Mem) (v : BitVec sz.bits) (s : State) :
    OnlyStuck s (writeEa sz m v s) :=
  (onlyStuck_writeMem _ _ _ _).of_quiet (loadStep_eaUpdate m s).quiet

/-- A read, then a store of a value made from it, in the state that the read left. -/
theorem OnlyStuck.store_after {sz sz' : Size} {a : Addr} {v : BitVec sz.bits → BitVec sz'.bits}
    {r : Result (BitVec sz.bits × State)} {f : BitVec sz.bits × State → State → Result State}
    (hr : OnlyStuck s r) (hquiet : ∀ p, r = .next p → Quiet s p.2)
    (hf : ∀ p w, OnlyStuck s (f p w)) :
    OnlyStuck s (andThen r fun p => andThen (writeMem sz' a (v p.1) p.2) (f p)) :=
  hr.bind fun p hp => ((onlyStuck_writeMem _ _ _ _).of_quiet (hquiet p hp)).bind fun w _ => hf p w

/-! ### Block loads -/

theorem onlyStuck_item (dir : Dir) (z : BW) (p : BlockPair) (s : State) : OnlyStuck s (item dir z p s) :=
  (onlyStuck_readMem _ _ _).store_after (v := id) (fun _ hq => (readMem_step hq).quiet)
    fun _ _ => onlyStuck_next _

theorem onlyStuck_repeatItems (dir : Dir) (z : BW) (p : BlockPair) (fuel : Nat) (s : State) :
    OnlyStuck s (repeatItems dir z p fuel s) := by
  induction fuel generalizing s with
  | zero => exact onlyStuck_next _
  | succ fuel ih =>
    exact (onlyStuck_item dir z p s).bind fun t ht =>
      onlyStuck_ite (fun _ => onlyStuck_next _) fun _ => (ih t).of_quiet (item_step ht).quiet

theorem onlyStuck_blockOnce (dir : Dir) (z : BW) (p : BlockPair) (len : Nat) (s : State) :
    OnlyStuck s (blockOnce dir z p len s) := (onlyStuck_item dir z p s).finish_after

theorem onlyStuck_blockRepeat (dir : Dir) (z : BW) (p : BlockPair) (len : Nat) (s : State) :
    OnlyStuck s (blockRepeat dir z p len s) := (onlyStuck_repeatItems dir z p _ s).finish_after

/-! ### Instructions with a shape of their own -/

theorem onlyStuck_execHalt (s : State) : OnlyStuck s (execHalt s) :=
  (onlyStuck_finish _ _).bind fun _ _ => onlyStuck_next _

theorem onlyStuck_execLink (r : RegOp) (d : BitVec 16) (s : State) : OnlyStuck s (execLink r d s) :=
  onlyStuck_ite (fun _ => onlyStuck_refused _) fun _ => (onlyStuck_writeMem _ _ _ s).finish_after

theorem onlyStuck_execMula (r : RegOp) (s : State) : OnlyStuck s (execMula r s) :=
  onlyStuck_ite (fun _ => onlyStuck_refused _) fun _ =>
    (onlyStuck_readMem _ _ s).bind fun _ hp =>
      ((onlyStuck_readMem _ _ _).of_quiet (readMem_step hp).quiet).finish_after

end

/-- No meaning has a fault but Stuck. -/
theorem exec_onlyStuck (i : Instr) (s : State) : OnlyStuck s (exec i s) := by
  cases i with
  | halt => exact onlyStuck_execHalt s
  | incReg sz num r => exact onlyStuck_finish _ _
  | incMem z num m =>
    exact (onlyStuck_readEa z.size m s).store_after (v := fun a => a + BitVec.ofNat _ (incAmount num))
      (fun _ hp => (readEa_step hp).quiet) fun _ _ => onlyStuck_finish _ _
  | incf => exact onlyStuck_finish _ _
  | jpAbs16 a => exact onlyStuck_requireNext (onlyStuck_next _)
  | jpAbs24 a => exact onlyStuck_requireNext (onlyStuck_next _)
  | jpMem cc m => exact onlyStuck_requireNoAuto (onlyStuck_jumpIf _ _ _ _)
  | jr cc d => exact onlyStuck_jumpIf _ _ _ _
  | jrl cc d => exact onlyStuck_jumpIf _ _ _ _
  | ldCodeFromReg sz c r => exact onlyStuck_finish _ _
  | ldRegFromCode sz r c => exact onlyStuck_finish _ _
  | ldRegImm3 sz r v => exact onlyStuck_finish _ _
  | ldCodeImm sz c v => exact onlyStuck_finish _ _
  | ldRegImm sz r v => exact onlyStuck_finish _ _
  | ldCodeMem sz c m => exact onlyStuck_requireNotAuto (onlyStuck_readEa sz m s).finish_after
  | ldMemCode sz m c => exact onlyStuck_requireNotAuto (onlyStuck_writeEa sz m _ s).finish_after
  | ldAbs8Imm z a v => exact (onlyStuck_writeMem _ _ v s).finish_after
  | ldMemImm z m v => exact (onlyStuck_writeEa _ m v s).finish_after
  | ldAbs16Mem z a m =>
    exact (onlyStuck_readEa z.size m s).store_after (v := id) (fun _ hp => (readEa_step hp).quiet)
      fun _ _ => onlyStuck_finish _ _
  | ldMemAbs16 z m a =>
    have hea := loadStep_eaUpdate m s
    exact ((onlyStuck_readMem _ _ _).of_quiet hea.quiet).store_after (v := id)
      (fun _ hp => (hea.trans (readMem_step hp)).quiet) fun _ _ => onlyStuck_finish _ _
  | lda w c m => exact onlyStuck_requireNoAuto (onlyStuck_finish _ _)
  | ldar w c d => exact onlyStuck_ite (fun _ => onlyStuck_finish _ _) fun _ => onlyStuck_refused _
  | ldcToCr sz cr r => exact (onlyStuck_requireCr sz cr s).finish_after
  | ldcFromCr sz r cr => exact (onlyStuck_requireCr sz cr s).finish_after
  | ldcfImmReg z b r => exact onlyStuck_ite (fun _ => onlyStuck_finish _ _) fun _ => onlyStuck_refused _
  | ldcfAReg z r => exact onlyStuck_finish _ _
  | ldcfImmMem num m => exact (onlyStuck_readEa .byte m s).finish_after
  | ldcfAMem m => exact (onlyStuck_readEa .byte m s).finish_after
  | lddDeHl z => exact onlyStuck_blockOnce _ _ _ _ _
  | lddIxIy z => exact onlyStuck_blockOnce _ _ _ _ _
  | lddrDeHl z => exact onlyStuck_blockRepeat _ _ _ _ _
  | lddrIxIy z => exact onlyStuck_blockRepeat _ _ _ _ _
  | ldiDeHl z => exact onlyStuck_blockOnce _ _ _ _ _
  | ldiIxIy z => exact onlyStuck_blockOnce _ _ _ _ _
  | ldirDeHl z => exact onlyStuck_blockRepeat _ _ _ _ _
  | ldirIxIy z => exact onlyStuck_blockRepeat _ _ _ _ _
  | ldf num => exact onlyStuck_ite (fun _ => onlyStuck_finish _ _) fun _ => onlyStuck_refused _
  | ldx a v => exact (onlyStuck_writeMem .byte _ v s).finish_after
  | link r d => exact onlyStuck_execLink r d s
  | mdec1 field r => exact onlyStuck_moduloStep _ _ _ _ _ _ _
  | mdec2 field r => exact onlyStuck_moduloStep _ _ _ _ _ _ _
  | mdec4 field r => exact onlyStuck_moduloStep _ _ _ _ _ _ _
  | minc1 field r => exact onlyStuck_moduloStep _ _ _ _ _ _ _
  | minc2 field r => exact onlyStuck_moduloStep _ _ _ _ _ _ _
  | minc4 field r => exact onlyStuck_moduloStep _ _ _ _ _ _ _
  | mirr r => exact onlyStuck_finish _ _
  | mulReg z c r => exact onlyStuck_finish _ _
  | mulImm z r v => exact onlyStuck_finish _ _
  | mulMem z c m => exact onlyStuck_requireNotAuto (onlyStuck_readEa z.size m s).finish_after
  | mula r => exact onlyStuck_execMula r s
  | mulsReg z c r => exact onlyStuck_finish _ _
  | mulsImm z r v => exact onlyStuck_finish _ _
  | mulsMem z c m => exact onlyStuck_requireNotAuto (onlyStuck_readEa z.size m s).finish_after
  | neg z r => exact onlyStuck_finish _ _
  | nop => exact onlyStuck_finish _ _

/-- Settles O19: the accesses of a meaning are Stuck or answer, and nothing else in it has a fault. -/
theorem instructionFaultsAreStuck : Obligations.InstructionFaultsAreStuck := exec_onlyStuck

end Sys2Proof.Machine
end

section
/-! PROOFS. A fetch is Stuck where the bytes end (60_exceptions.md R212, R215); no step changes the launch arguments or
the mask (R213, R237); the values after reset (10_state.md R36). -/

namespace Sys2Proof.Machine

/-! ### Fetching beyond memory -/

/-- No byte can be fetched from `a`: it lies above FFFFFFH, or is neither admitted nor a device's
(R212, R215). -/
def Unfetchable (s : State) (a : Nat) : Prop :=
  Config.addressSpace ≤ a ∨ (s.isDevice a = false ∧ s.isAdmitted a = false)

theorem fetchWindow_of_unfetchable {s : State} {a : Nat} (h : Unfetchable s a) (n d : Nat) :
    fetchWindow s (n + 1) a d = ([], .stuck a) := by
  rw [fetchWindow]
  by_cases ha : Config.addressSpace ≤ a
  · rw [if_pos ha]
  · obtain ⟨hdev, hadm⟩ := h.resolve_left ha
    simp [ha, hdev, hadm]

theorem fetchWindow_end_succ {s : State} (n : Nat) {a : Nat} (d : Nat) (ha : a < Config.addressSpace)
    (hm : s.isDevice a = true ∨ s.isAdmitted a = true) :
    (fetchWindow s (n + 1) a d).2 = (fetchWindow s n (a + 1) (d + if s.isDevice a then 1 else 0)).2 := by
  rw [fetchWindow, if_neg (by omega)]
  by_cases hd : s.isDevice a = true
  · simp [hd]
  · simp [hd, hm.resolve_left hd]

/-- A window that asks for more bytes than are there has these bytes and is Stuck behind them. -/
theorem fetchWindow_of_short_bytes {s : State} {n a d : Nat} {bs : List Byte} (hn : bs.length < n)
    (hb : BytesFrom s a d bs) (hf : Fetchable s a bs.length) (hend : Unfetchable s (a + bs.length)) :
    fetchWindow s n a d = (bs, .stuck (a + bs.length)) := by
  obtain ⟨n, rfl⟩ := Nat.exists_eq_add_one.mpr (Nat.zero_lt_of_lt hn)
  induction bs generalizing n a d with
  | nil => exact fetchWindow_of_unfetchable hend n d
  | cons b bs ih =>
    obtain ⟨n, rfl⟩ := Nat.exists_eq_add_one.mpr (show 0 < n by simp at hn; omega)
    have hstep : a + (b :: bs).length = a + 1 + bs.length := by simp only [List.length_cons]; omega
    rw [hstep] at hend ⊢
    have hrest := ih hb.tail hf.tail hend n (Nat.lt_of_succ_lt_succ hn)
    have hm := hf.2 0 (Nat.succ_pos _)
    refine Prod.ext ?_ ?_
    · rw [fetchWindow_succ _ d hf.head_lt hm, hrest, ← hb.head]
    · rw [fetchWindow_end_succ _ d hf.head_lt hm, hrest]

/-- A fetch that needs more bytes than are there is Stuck behind them. -/
theorem fetchInstr_of_short {s : State} {bs : List Byte} (hdec : decode s.launch bs = .short)
    (hb : BytesAt s s.pc.toNat bs) (hf : Fetchable s s.pc.toNat bs.length)
    (hend : Unfetchable s (s.pc.toNat + bs.length)) :
    fetchInstr s = .fault (.stuck s.pc (s.pc.toNat + bs.length)) := by
  have hlen : bs.length < maxLength :=
    Nat.lt_of_not_le fun h => decodedLength.2 s.launch bs h hdec
  simp only [fetchInstr, fetchWindow_of_short_bytes hlen ((bytesAt_iff _ _ _).mp hb) hf hend, hdec]

/-- Settles O10: the window ends before the decoder has its bytes, and the step has the fault of the
fetch. -/
theorem fetchOutsideMemoryStops : Obligations.FetchOutsideMemoryStops := by
  intro s bs hrun hdec hb hf hend
  rw [step_of_running hrun, fetchInstr_of_short hdec hb hf hend, andThen_fault]

/-! ### What no step changes -/

/-- No effect writes the launch arguments or the mask. -/
theorem Effect.launch_iff {i : Instr} {s t : State} (he : Effect i s t) :
    t.launch = s.launch ∧ t.iff = s.iff := by
  cases he with
  | ordinary hu => exact ⟨hu.system.launch, hu.system.iff⟩
  | jump _ _ => exact ⟨rfl, rfl⟩
  | rfp _ _ => exact ⟨rfl, rfl⟩
  | control _ _ _ => exact ⟨rfl, rfl⟩
  | halt _ => exact ⟨rfl, rfl⟩

/-- Settles O14: a halted state stays, a fetch only counts its draws, and no effect of an instruction
writes either. -/
theorem stepKeepsLaunchAndMask : Obligations.StepKeepsLaunchAndMask := by
  intro s t h
  rcases step_eq_next.mp h with ⟨-, rfl⟩ | ⟨-, i, u, hfetch, hexec⟩
  · exact ⟨rfl, rfl⟩
  · obtain ⟨rest, -, -, rfl⟩ := fetchInstr_eq_next hfetch
    exact (exec_completes hexec).2.launch_iff

/-! ### Reset -/

theorem reset_get32_bank (b : Fin 4) (r : BankReg) : State.reset.get32 (.bank b r) = 0 := by
  revert b
  cases r <;> decide

/-- Settles O26: every register but XSP, bank by bank, and the other fields as `resetFrom` sets them. -/
theorem resetModelValues : Obligations.ResetModelValues := by
  refine ⟨fun p hp => ?_, rfl, rfl, rfl, rfl, fun _ => rfl, rfl, rfl⟩
  cases p with
  | bank b r => exact reset_get32_bank b r
  | xix => rfl
  | xiy => rfl
  | xiz => rfl
  | xsp => exact absurd rfl hp

end Sys2Proof.Machine
end
